-- ==== Sys2Proof/Word.lean ====
section
/-!
DEFINITION. The words the block exchanges and holds: 32-bit port words, transport bytes, Samples and pin ids.
-/

namespace Sys2Proof

/-- One word of a command or of a response at a port (R10, R90, R95). -/
abbrev Word := BitVec 32

/-- One byte of a transport that carries words as bytes (R61). -/
abbrev Byte := BitVec 8

/-- One Sample, unsigned, in the widest field a command can have for it (R4, R12, R21, R92). An instance uses the low
`SAMPLE_BITS` bits. -/
abbrev Sample := BitVec 24

/-- One PinId, as an INIT header carries it (R4, R33, R92). An instance uses the low `PIN_BITS` bits; a wider `PIN` holds it
zero-extended. -/
abbrev PinId := BitVec 8

/-- One register number as RDREG carries it (R91 format R, R39). -/
abbrev RegNo := BitVec 8

end Sys2Proof
end

