-- ==== Sys2Proof/Config.lean ====
section
/-!
DEFINITION. The implementation parameters of one instance (R4), the reference instance, and the free values: opaque
constants that stand for what the spec leaves unspecified.
-/

namespace Sys2Proof

/-- The two agents that execute steps (R9). Each has exactly one command port (R10), so an `Agent` also names a port. -/
inductive Agent
  | producer
  | consumer
  deriving DecidableEq, Repr, Inhabited

/-- The TrigSource strategy an INIT selects: bit 8 of its header, 0 = TABLE, 1 = DIRECT (R26, R92). -/
inductive Strategy
  | table
  | direct
  deriving DecidableEq, Repr, Inhabited

/-- The parameters of R4 that vary between instances. `W` is no field: `W = FS` always (R4, R31). The number system `NUM`
is the structure `Machine.NumSys`, an argument of evaluation, not a field. -/
structure Config where
  /-- `FS`, ticks per second. -/
  fs : Nat
  /-- `C`, ring capacity in slots. -/
  cap : Nat
  /-- `SAMPLE_BITS`, width of one Sample. -/
  sampleBits : Nat
  /-- `PIN_BITS`, width of a PinId. -/
  pinBits : Nat
  /-- `LMAX`, depth of the trig table memory. -/
  lmax : Nat
  /-- `DROP_BITS`, width of the overrun counter. -/
  dropBits : Nat
  /-- The table strategy is built into this instance (R4 "strategies", U12). -/
  hasTable : Bool
  /-- The direct strategy is built into this instance. -/
  hasDirect : Bool
  deriving DecidableEq, Repr

/-- The reference instance of R4. -/
def Config.reference : Config :=
  { fs := 5000, cap := 2048, sampleBits := 12, pinBits := 8, lmax := 5000, dropBits := 32
    hasTable := true, hasDirect := true }

/-- `W`, the window length in samples: `W = FS` always (R4, R31). -/
def Config.window (c : Config) : Nat := c.fs

/-- `SMAX = 2^SAMPLE_BITS - 1` (R4). -/
def Config.smax (c : Config) : Nat := 2 ^ c.sampleBits - 1

/-- `LMIN` (R4). -/
def Config.lmin : Nat := 4

/-- `IDX_BITS = ceil(log2 C)` (R4): the width of `WR` and `RD`. -/
def Config.idxBits (c : Config) : Nat := Nat.clog 2 c.cap

/-- `NCNT_BITS = ceil(log2 (W+1))` (R4): the width of `N`. -/
def Config.ncntBits (c : Config) : Nat := Nat.clog 2 (c.window + 1)

/-- Whether the instance has a table strategy, a direct strategy, or both: never neither (R4). The numeric constraints
are R4's column "constraint". -/
abbrev Config.wf (c : Config) : Prop :=
  1 ≤ c.fs ∧ 2 ≤ c.cap ∧ Config.lmin ≤ c.lmax ∧ 1 ≤ c.dropBits ∧ (c.hasTable = true ∨ c.hasDirect = true) ∧
    1 ≤ c.sampleBits ∧ 1 ≤ c.pinBits

/-- Free value (log 5): the word RDREG returns for a register that holds an unspecified value (R202 corner (b), U2, U3).
First argument: `State.draw`; second: the register number. -/
opaque Config.freeWord : Nat → RegNo → Word

/-- Free value (log 6): what a POP reads from a `BUF` slot no PUSH has written since reset (U2).
First argument: `State.draw`; second: the slot index. -/
opaque Config.freeSample : Nat → Nat → Sample

/-- Free value (log 4): the real number an unspecified `Num` stands for (U2). -/
opaque Config.freeReal : Nat → Nat → ℝ

/-- Free value (log 7): which agent goes first when both have a micro-step enabled and the schedule in State says
nothing (R71, R236, U13). The argument is `State.turn`. -/
opaque Config.arbiter : Nat → Agent

/-- Free value (log 3): the word RDREG returns for an integer register whose value needs more than 32 bits. R39 states no
result there. -/
opaque Config.freeWide : Nat → Word

/-- Free value (log 12): the 12 bits of `VALUE` (R95) for a popped Sample that needs more than 12 bits. -/
opaque Config.freeValue : Sample → BitVec 12

/-- Free value (log 11): which error an INIT answers that selects a strategy the instance was built without, and whose other
operands pass: ILLEGAL_COMMAND if true, CONFIG_ERROR if false. R4 and U12 state none. -/
opaque Config.unbuiltIllegal : Config → Strategy → Bool

/-- Free value (log 8): the port word of a real number too large for binary32. R97 states no result there ("no overflow
case arises for the reference parameters"). -/
opaque Config.freeEncoding : ℝ → Word

end Sys2Proof
end

