-- ==== Sys2Proof/Syntax.lean ====
section
/-!
DEFINITION. The nine commands of `spec/opcode_table.json` (R93), with the operands their formats carry (R91, R92).
-/

namespace Sys2Proof

/-- The named registers of the register map (R39). -/
inductive Reg
  | status | wr | rd | n | l | pin | dropcnt | f0 | sumI | sumQ | angle | ampl
  deriving DecidableEq, Repr

/-- A command (R93). Operands are the fields of the command word, already cut out; `f0bits` and `reg` are kept as the
bits that came in, because INIT's check of the frequency (R200) and RDREG's check of the number (R202) are part of those
commands' own meaning. -/
inductive Instr
  /-- PUSH, format S (R120). -/
  | push (sample : Sample)
  /-- POP, format Z (R121). -/
  | pop
  /-- CONSUME, format S (R180). -/
  | consume (sample : Sample)
  /-- TICK, format S (R162). -/
  | tick (sample : Sample)
  /-- INIT, format I (R200). -/
  | init (pin : PinId) (strat : Strategy) (f0bits : Word)
  /-- START, format Z (R160). -/
  | start
  /-- STOP, format Z (R161). -/
  | stop
  /-- LOOP, format Z (R201). -/
  | loop
  /-- RDREG, format R (R202). -/
  | rdreg (reg : RegNo)
  deriving DecidableEq, Repr

end Sys2Proof
end

