-- ==== Sys2Proof/WellFormed.lean ====
section
/-!
DEFINITION. Which terms of `Instr` are commands of an instance: operands as wide as its parameters say (R4, R92), and an
RDREG of a register of the map (R39, R98 (d)).
-/

namespace Sys2Proof

/-- The register numbers that R39's table lists: 0x00 to 0x06 and 0x08 to 0x0C. -/
def legalReg (r : RegNo) : Bool := r.toNat ≤ 0x06 || (0x08 ≤ r.toNat && r.toNat ≤ 0x0C)

/-- A Sample is `SAMPLE_BITS` wide: `0..SMAX` (R4, R12). -/
def sampleFits (c : Config) (x : Sample) : Bool := decide (x.toNat < 2 ^ c.sampleBits)

/-- A PinId is `PIN_BITS` wide (R4, R33). -/
def pinFits (c : Config) (p : PinId) : Bool := decide (p.toNat < 2 ^ c.pinBits)

/-- A command is well formed on an instance if its operands fit (R92) and it reads no reserved register (R98 (d)). -/
def Instr.wellFormed (c : Config) : Instr → Bool
  | .push x => sampleFits c x
  | .pop => true
  | .consume x => sampleFits c x
  | .tick x => sampleFits c x
  | .init pin _ _ => pinFits c pin
  | .start => true
  | .stop => true
  | .loop => true
  | .rdreg r => legalReg r

end Sys2Proof
end

