-- ==== Sys2Proof/Decode.lean ====
section
/-!
DEFINITION. From command words to commands and back (R90 to R94, R98, R99), the register map's numbering (R39), the
little-endian byte transport (R61), and the table's view of the decoder.
-/

namespace Sys2Proof

/-- The reasons of R98 for which a command is illegal, and the one malformed shape no port can deliver. -/
inductive DecodeError
  /-- R98 (a). -/
  | unknownOpcode
  /-- R98 (b). -/
  | reservedBits
  /-- R98 (c). -/
  | wrongPort
  /-- R98 (d). -/
  | reservedRegister
  /-- Not one word, nor an INIT header and its payload word: `fetchCommand` never cuts such a command. -/
  | wrongLength
  deriving DecidableEq, Repr

/-- `bits[hi:lo]` of R6 as a number; `len = hi - lo + 1`. -/
def field (w : Word) (lo len : Nat) : BitVec len := w.extractLsb' lo len

/-- Bits [31:24] of a command's first word (R90). -/
def opcode (w : Word) : BitVec 8 := field w 24 8

/-- R39's numbering; `none` for a reserved number. -/
def regOfNumber (r : RegNo) : Option Reg :=
  match r.toNat with
  | 0x00 => some .status
  | 0x01 => some .wr
  | 0x02 => some .rd
  | 0x03 => some .n
  | 0x04 => some .l
  | 0x05 => some .pin
  | 0x06 => some .dropcnt
  | 0x08 => some .f0
  | 0x09 => some .sumI
  | 0x0A => some .sumQ
  | 0x0B => some .angle
  | 0x0C => some .ampl
  | _ => none

/-- `strat = word0[8]`: 0 selects TABLE, 1 selects DIRECT (R92). -/
def strategyOfBit (b : BitVec 1) : Strategy := if b = 0#1 then .table else .direct

/-- The port a command belongs to (R94). -/
def portOf : Instr → Agent
  | .push _ => .producer
  | .pop => .consumer
  | .consume _ => .consumer
  | .tick _ => .producer
  | .init _ _ _ => .consumer
  | .start => .consumer
  | .stop => .consumer
  | .loop => .consumer
  | .rdreg _ => .consumer

/-- Cuts one command off the words waiting at a port. The opcode alone tells the length: 0x10 takes one payload word,
whatever the rest of its header says, every other opcode takes none (R90). `none`: the command has not wholly arrived. -/
def fetchCommand : List Word → Option (List Word × List Word)
  | [] => none
  | w :: rest =>
    if opcode w = 0x10#8 then
      match rest with
      | [] => none
      | p :: rest' => some ([w, p], rest')
    else some ([w], rest)

/-- Format Z: bits [23:0] are reserved (R91). -/
def decodeZ (w : Word) (i : Instr) : Except DecodeError Instr :=
  if field w 0 24 = 0#24 then .ok i else .error .reservedBits

/-- Format S: `sample = word[SAMPLE_BITS-1:0]`, the bits above it up to bit 23 are reserved (R91, R92, log 12). -/
def decodeS (c : Config) (w : Word) (mk : Sample → Instr) : Except DecodeError Instr :=
  if (field w 0 24).toNat < 2 ^ c.sampleBits then .ok (mk (field w 0 24)) else .error .reservedBits

/-- Format R: bits [23:8] are reserved, `reg = word[7:0]` (R91, R92), which must be in the register map (R98 (d)). -/
def decodeR (w : Word) : Except DecodeError Instr :=
  if field w 8 16 = 0#16 then
    if (regOfNumber (field w 0 8)).isSome then .ok (.rdreg (field w 0 8)) else .error .reservedRegister
  else .error .reservedBits

/-- Format I: bits [23:9] of the header are reserved, and so are bits of the pin field above `PIN_BITS` (R91, log 12); the
payload word is `f0bits`, any value. -/
def decodeI (c : Config) (w payload : Word) : Except DecodeError Instr :=
  if field w 9 15 = 0#15 ∧ (field w 0 8).toNat < 2 ^ c.pinBits then
    .ok (.init (field w 0 8) (strategyOfBit (field w 8 1)) payload)
  else .error .reservedBits

/-- The opcode map of R93 over a whole command, before the port is looked at. -/
def decodeForm (c : Config) : List Word → Except DecodeError Instr
  | [w] =>
    match (opcode w).toNat with
    | 0x01 => decodeS c w .push
    | 0x02 => decodeZ w .pop
    | 0x03 => decodeS c w .consume
    | 0x04 => decodeS c w .tick
    | 0x11 => decodeZ w .start
    | 0x12 => decodeZ w .stop
    | 0x13 => decodeZ w .loop
    | 0x20 => decodeR w
    | 0x10 => .error .wrongLength
    | _ => .error .unknownOpcode
  | [w, payload] => if opcode w = 0x10#8 then decodeI c w payload else .error .wrongLength
  | _ => .error .wrongLength

/-- The decoder of one port of an instance: total on every list of words, refusing by name (R98). It looks at the
parameters, the port and the words only, never at the block's state (R99). -/
def decode (c : Config) (port : Agent) (ws : List Word) : Except DecodeError Instr :=
  match decodeForm c ws with
  | .error e => .error e
  | .ok i => if portOf i = port then .ok i else .error .wrongPort

/-- Bit 8 of an INIT header (R92). -/
def stratBit : Strategy → BitVec 1
  | .table => 0#1
  | .direct => 1#1

/-- The words of a command, from the formats of R91 and the opcodes of R93. -/
def encode : Instr → List Word
  | .push x => [0x01#8 ++ x]
  | .pop => [0x02#8 ++ 0#24]
  | .consume x => [0x03#8 ++ x]
  | .tick x => [0x04#8 ++ x]
  | .init pin strat f0bits => [0x10#8 ++ 0#15 ++ stratBit strat ++ pin, f0bits]
  | .start => [0x11#8 ++ 0#24]
  | .stop => [0x12#8 ++ 0#24]
  | .loop => [0x13#8 ++ 0#24]
  | .rdreg r => [0x20#8 ++ 0#16 ++ r]

/-- One row of `spec/opcode_table.json`: the first word's fixed bits and the port. -/
structure TableRow where
  mnemonic : String
  mask : Word
  pattern : Word
  port : Agent
  deriving DecidableEq, Repr

/-- The fixed bits of format S: all but the sample, which ends at bit 23 (R91, R92). -/
def maskS (c : Config) : Word := BitVec.allOnes 32 <<< min c.sampleBits 24

/-- The fixed bits of an INIT header: all but the strategy and the pin (R91, log 12). -/
def maskI (c : Config) : Word := 0xFFFFFE00#32 ||| (BitVec.setWidth 32 (BitVec.allOnes 8 <<< c.pinBits))

/-- `spec/opcode_table.json`, row by row; for the widths of the reference instance its very masks. -/
def opcodeTable (c : Config) : List TableRow :=
  [ ⟨"PUSH", maskS c, 0x01000000#32, .producer⟩,
    ⟨"POP", 0xFFFFFFFF#32, 0x02000000#32, .consumer⟩,
    ⟨"CONSUME", maskS c, 0x03000000#32, .consumer⟩,
    ⟨"TICK", maskS c, 0x04000000#32, .producer⟩,
    ⟨"INIT", maskI c, 0x10000000#32, .consumer⟩,
    ⟨"START", 0xFFFFFFFF#32, 0x11000000#32, .consumer⟩,
    ⟨"STOP", 0xFFFFFFFF#32, 0x12000000#32, .consumer⟩,
    ⟨"LOOP", 0xFFFFFFFF#32, 0x13000000#32, .consumer⟩,
    ⟨"RDREG", 0xFFFFFF00#32, 0x20000000#32, .consumer⟩ ]

/-- A first word has a row's fixed bits. -/
def TableRow.covers (row : TableRow) (w : Word) : Bool := w &&& row.mask == row.pattern

/-- A word as bytes on a transport that splits words: least significant byte first (R61). -/
def wordBytes (w : Word) : List Byte := [field w 0 8, field w 8 8, field w 16 8, field w 24 8]

/-- The words of a byte stream, least significant byte first (R61); a tail shorter than a word has not arrived yet. -/
def wordsOfBytes : List Byte → List Word
  | b0 :: b1 :: b2 :: b3 :: rest => (b3 ++ b2 ++ b1 ++ b0) :: wordsOfBytes rest
  | _ => []

/-- The port a word with this opcode is sent to when it is taken from the opcode table (R94). -/
def homePort (w : Word) : Agent :=
  if opcode w = 0x01#8 ∨ opcode w = 0x04#8 then .producer else .consumer

/-- The words of an instruction numbered as `spec/opcode_table.json` numbers its bits: the low `nbits` bits of `w`, every
bit above them 0, first word least significant. -/
def tableWords (nbits w : Nat) : List Word :=
  let v := w % 2 ^ nbits
  let first : Word := BitVec.ofNat 32 v
  if opcode first = 0x10#8 then [first, BitVec.ofNat 32 (v / 2 ^ 32)] else [first]

/-- What the decoder of the reference instance reads from an instruction the opcode table numbers `w`, at the port the
instruction belongs to. -/
def decodeTableWord (nbits w : Nat) : Option Instr :=
  match tableWords nbits w with
  | [] => none
  | first :: rest =>
    match decode Config.reference (homePort first) (first :: rest) with
    | .ok i => some i
    | .error _ => none

end Sys2Proof
end

