-- ==== Sys2Proof/Machine/NumExpr.lean ====
section
/-!
DEFINITION. The numeric domain (R5, R7). State holds a `Num` as the exact expression the rules built; a number system
`NUM` evaluates it, and the reference system is the real numbers.
-/

namespace Sys2Proof.Machine

/-- An exact `Num` value, as plain data: the expression over the operations of R5 that the rules of the spec formed.
A value of R5's `Num = ℝ` is `Num.toReal` of it; a finite-precision `NUM` gives it another value through `Num.eval`. -/
inductive NumExpr
  /-- `of_nat` of R5: the number equal to a natural number (R13 (j)). -/
  | ofNat (n : Nat)
  /-- The circle constant (R7). -/
  | pi
  /-- A number the spec leaves unspecified (U2): nothing is known of it but its name. -/
  | free (draw tag : Nat)
  | add (a b : NumExpr)
  | mul (a b : NumExpr)
  | div (a b : NumExpr)
  /-- Sine of an angle in radians (R7). -/
  | sin (a : NumExpr)
  /-- Cosine of an angle in radians (R7). -/
  | cos (a : NumExpr)
  /-- The first argument is the ordinate (R7). -/
  | atan2 (y x : NumExpr)
  | hypot (a b : NumExpr)
  deriving DecidableEq, Repr

/-- The parameter `NUM` of R4 and R5: a carrier and total functions on it, of which a model may assume only that each
result depends on the operands alone and that the tolerances of R187 hold, which `NumSys.MeetsTolerances` states. -/
structure NumSys (α : Type) where
  /-- `of_nat`. -/
  ofNat : Nat → α
  /-- DESIGN CHOICE (log 27): the carrier's value of the circle constant in `2π` and `180 / π`. R5's record has no such
  field, and the spec does not say how a finite-precision `NUM` obtains it. -/
  pi : α
  add : α → α → α
  mul : α → α → α
  div : α → α → α
  sin : α → α
  cos : α → α
  atan2 : α → α → α
  hypot : α → α → α

/-- The value of an expression in a number system, given what the unspecified numbers are. -/
def NumExpr.eval {α : Type} (sys : NumSys α) (unspecified : Nat → Nat → α) : NumExpr → α
  | .ofNat n => sys.ofNat n
  | .pi => sys.pi
  | .free d t => unspecified d t
  | .add a b => sys.add (a.eval sys unspecified) (b.eval sys unspecified)
  | .mul a b => sys.mul (a.eval sys unspecified) (b.eval sys unspecified)
  | .div a b => sys.div (a.eval sys unspecified) (b.eval sys unspecified)
  | .sin a => sys.sin (a.eval sys unspecified)
  | .cos a => sys.cos (a.eval sys unspecified)
  | .atan2 y x => sys.atan2 (y.eval sys unspecified) (x.eval sys unspecified)
  | .hypot a b => sys.hypot (a.eval sys unspecified) (b.eval sys unspecified)

/-- `hypot(a, b) = sqrt(a² + b²)` (R7). -/
noncomputable def hypotReal (a b : ℝ) : ℝ := Real.sqrt (a ^ 2 + b ^ 2)

/-- `atan2(y, x)` of R7: the angle in (-π, π] of the point with abscissa `x` and ordinate `y`. At `(0, 0)` it is 0, the
block's own choice for that case (R184). -/
noncomputable def atan2Real (y x : ℝ) : ℝ := Complex.arg ⟨x, y⟩

/-- The reference number system: the exact real numbers (R5). -/
noncomputable def NumSys.real : NumSys ℝ :=
  { ofNat := fun n => (n : ℝ)
    pi := Real.pi
    add := fun a b => a + b
    mul := fun a b => a * b
    div := fun a b => a / b
    sin := Real.sin
    cos := Real.cos
    atan2 := atan2Real
    hypot := hypotReal }

/-- The real number a `Num` of the state is (R5). -/
noncomputable def NumExpr.toReal (x : NumExpr) : ℝ := x.eval NumSys.real Config.freeReal

/-- The real 0, as INIT, reset and a completed window write it (R40, R181, R200). -/
def NumExpr.zero : NumExpr := .ofNat 0

end Sys2Proof.Machine
end

