-- ==== Sys2Proof/Machine/State.lean ====
section
/-!
DEFINITION. The state of the block (R20 to R40) as plain data, with the environment's side of its ports (R9, R10, R41)
and the two counters the model's free values are drawn by; the outcomes other than a next state; reset.
-/

namespace Sys2Proof.Machine

/-- The block never stops by itself: its four outcomes are answered in a response (R230, R237), so no fault exists and
this type has no constructor. Safe: nothing raises it. -/
inductive Fault
  deriving DecidableEq, Repr

/-- Why the model gives a command no meaning. -/
inductive Refusal
  /-- Raised by an arm of `exec` whose command has no meaning yet; no arm of this model does. Safe. -/
  | notModelled (mnemonic : String)
  deriving DecidableEq, Repr

/-- The lifecycle phase (R34). Value 3 of its two bits never occurs. -/
inductive Phase
  | idle
  | configured
  | running
  deriving DecidableEq, Repr

/-- Producer sequencer `PSEQ` (R36): the micro-step the producer takes next. -/
inductive PSeq
  | idle
  /-- Never held between steps (R36). -/
  | load
  | write
  | publish
  deriving DecidableEq, Repr

/-- Consumer sequencer `CSEQ` (R36): the micro-step the consumer takes next. -/
inductive CSeq
  | idle
  | load
  | read
  | publish
  /-- `L_ENTER`: never held between steps (R36). -/
  | enter
  /-- `L_CONSUME`. -/
  | consume
  /-- `L_DONE`. -/
  | done
  deriving DecidableEq, Repr

/-- The `STATUS` code of a response (R95, R230). Codes 4 to 15 never occur. -/
inductive Status
  | ok
  | configError
  | usageError
  | illegalCommand
  deriving DecidableEq, Repr

/-- A payload word of a response (R96): a word, or a `Num` the port sends as `enc_num` of it (R97). -/
inductive Payload
  | word (w : Word)
  | num (x : NumExpr)
  deriving DecidableEq, Repr

/-- A response (R95, R96), typed as R10 and R97 allow; `Port.lean` gives its words. -/
structure Response where
  status : Status
  flag : Bool
  value : Sample
  payload : List Payload
  deriving DecidableEq, Repr

/-- The outgoing signals to the collaborators (R10, R240, R241). -/
inductive Signal
  | adcConfig (pin : PinId) (bits : Nat)
  | timerArm (fs : Nat)
  | timerDisarm
  deriving DecidableEq, Repr

/-- What happens next as far as the environment decides it: one agent may take a micro-step, a command word arrives at a
port, or the reset input is asserted (R9, R41, R260). -/
inductive Turn
  | agent (a : Agent)
  | send (a : Agent) (w : Word)
  | reset
  deriving DecidableEq, Repr

/-- A memory of whole elements by index (R60), listed with indices strictly rising. An unlisted slot holds no value:
nothing has been written there since reset (R40, log 2). -/
abbrev Memory (α : Type) := List (Nat × α)

/-- The whole machine. -/
structure State where
  /-- The parameters of this instance (R4). No rule writes them. -/
  cfg : Config
  /-- `BUF` (R21). -/
  buf : Memory Sample
  /-- `WR` (R22). -/
  wr : Nat
  /-- `RD` (R23). -/
  rd : Nat
  /-- `F0` (R25). -/
  f0 : NumExpr
  /-- `STRAT` (R26). -/
  strat : Strategy
  /-- `L` (R27). -/
  len : Nat
  /-- `TABLE` (R28). -/
  table : Memory NumExpr
  /-- `SUMI` (R29). -/
  sumI : NumExpr
  /-- `SUMQ` (R29). -/
  sumQ : NumExpr
  /-- `N` (R30). -/
  n : Nat
  /-- `ANGLE` (R32). -/
  angle : NumExpr
  /-- `AMPL` (R32). -/
  ampl : NumExpr
  /-- `RVALID` (R32). -/
  rvalid : Bool
  /-- `PIN` (R33). -/
  pin : PinId
  /-- `PHASE` (R34). -/
  phase : Phase
  /-- `DROPCNT` (R35). -/
  dropcnt : Nat
  /-- `PSEQ` (R36). -/
  pseq : PSeq
  /-- Latch `p_s` (R36). -/
  pS : Sample
  /-- Latch `p_w` (R36). -/
  pW : Nat
  /-- Latch `p_r` (R36). -/
  pR : Nat
  /-- `CSEQ` (R36). -/
  cseq : CSeq
  /-- Latch `c_w` (R36). -/
  cW : Nat
  /-- Latch `c_r` (R36). -/
  cR : Nat
  /-- Latch `c_v` (R36). -/
  cV : Sample
  /-- Latch `c_got` (R36). -/
  cGot : Bool
  /-- Latch `c_loop` (R36). -/
  cLoop : Bool
  /-- The command words waiting at the producer port, first to arrive first (R9, R10, R41). -/
  pIn : List Word
  /-- The command words waiting at the consumer port. -/
  cIn : List Word
  /-- The responses given on the producer port, oldest first (R95). -/
  pOut : List Response
  /-- The responses given on the consumer port, oldest first. -/
  cOut : List Response
  /-- The signals sent to the collaborators, oldest first (R240, R241). -/
  signals : List Signal
  /-- The environment's choices for the coming steps, one a step (R41, R71, R260). -/
  sched : List Turn
  /-- How many commands the reset input has abandoned without a response (R260, R275). -/
  lost : Nat
  /-- The model's own: how many times the arbiter has been asked (log 7). -/
  turn : Nat
  /-- The model's own: what free values are drawn by (logs 4 to 6). -/
  draw : Nat
  deriving DecidableEq, Repr

/-- The state right after the reset input of an instance with parameters `c` is released, no command waiting (R40, R260).
Registers the spec leaves unspecified hold the values log 1 names; `BUF` and `TABLE` list nothing. -/
def State.resetOf (c : Config) : State :=
  { cfg := c, buf := [], wr := 0, rd := 0, f0 := .free 0 0, strat := .table, len := 0, table := []
    sumI := NumExpr.zero, sumQ := NumExpr.zero, n := 0, angle := .free 0 1, ampl := .free 0 2, rvalid := false
    pin := 0#8, phase := .idle, dropcnt := 0
    pseq := .idle, pS := 0#24, pW := 0, pR := 0
    cseq := .idle, cW := 0, cR := 0, cV := 0#24, cGot := false, cLoop := false
    pIn := [], cIn := [], pOut := [], cOut := [], signals := [], sched := [], lost := 0, turn := 0, draw := 1 }

/-- The reference instance right after reset. -/
def State.reset : State := State.resetOf Config.reference

end Sys2Proof.Machine
end

