-- ==== Sys2Proof/Machine/Ops.lean ====
section
/-!
DEFINITION. The named operations the meanings are written over: the two memories, the ordered index accesses, moving a
sequencer, answering a command, raising an error, sending a signal, and the reset of the block.
-/

namespace Sys2Proof.Machine

/-- `BUF[i]`, `TABLE[i]` (R8): `none` for a slot nothing has written since reset. -/
def Memory.read {α : Type} : Memory α → Nat → Option α
  | [], _ => none
  | (a, v) :: rest, i => if a = i then some v else Memory.read rest i

/-- `BUF[i] <- v` (R8), keeping the indices strictly rising. -/
def Memory.write {α : Type} : Memory α → Nat → α → Memory α
  | [], i, v => [(i, v)]
  | (a, x) :: rest, i, v =>
    if i < a then (i, v) :: (a, x) :: rest
    else if a = i then (i, v) :: rest
    else (a, x) :: Memory.write rest i v

/-- `for k in 0 .. l-1: TABLE[k] <- f k` (R200): slots from `l` on keep what they held. -/
def Memory.fill {α : Type} (m : Memory α) (l : Nat) (f : Nat → α) : Memory α :=
  (List.range l).map (fun k => (k, f k)) ++ m.filter (fun c => decide (l ≤ c.1))

/-- The canonical form of a memory: indices strictly rising, so none twice. An entry is never what an unlisted slot
reads as, since that is no value. -/
abbrev Memory.wf {α : Type} (m : Memory α) : Prop := m.Pairwise (fun c d => c.1 < d.1)

/-- The consumer's `load_acquire(WR)` (R63, R69): at micro-step grain, the current index (R71). -/
def loadAcquireWr (s : State) : Nat := s.wr

/-- The producer's `load_acquire(RD)` (R63, R70). -/
def loadAcquireRd (s : State) : Nat := s.rd

/-- The producer's `store_release(WR, v)` (R63, R68). -/
def storeReleaseWr (v : Nat) (s : State) : State := { s with wr := v }

/-- The consumer's `store_release(RD, v)` (R63, R70). -/
def storeReleaseRd (v : Nat) (s : State) : State := { s with rd := v }

/-- `(i + 1) mod C` (R13 (a)): an explicit wrap, so that `C` need not be a power of two. -/
def nextIndex (c : Config) (i : Nat) : Nat := (i + 1) % c.cap

/-- `occupancy = (WR - RD) mod C` (R13 (c), R24), for indices below `C`. -/
def occupancy (c : Config) (wr rd : Nat) : Nat := (wr + c.cap - rd) % c.cap

/-- `goto` in the producer's sequencer (R8). -/
def gotoP (q : PSeq) (s : State) : State := { s with pseq := q, draw := s.draw + 1 }

/-- `goto` in the consumer's sequencer (R8). -/
def gotoC (q : CSeq) (s : State) : State := { s with cseq := q, draw := s.draw + 1 }

/-- `respond` on the producer port: the command ends and the producer is idle again (R8, R95). -/
def respondP (r : Response) (s : State) : State :=
  { s with pseq := .idle, pOut := s.pOut ++ [r], draw := s.draw + 1 }

/-- `respond` on the consumer port (R8, R95). -/
def respondC (r : Response) (s : State) : State :=
  { s with cseq := .idle, cOut := s.cOut ++ [r], draw := s.draw + 1 }

/-- RDREG's response: as `respondC`, but no free value moves on, so that a repeated read with no other step in between
returns the same value (R64). -/
def answerRead (r : Response) (s : State) : State :=
  { s with cseq := .idle, cOut := s.cOut ++ [r] }

/-- `respond(OK, FLAG, VALUE=0)` with no payload. -/
def okFlag (flag : Bool) : Response := { status := .ok, flag := flag, value := 0#24, payload := [] }

/-- `respond` on the port of an agent. -/
def respond (a : Agent) (r : Response) (s : State) : State :=
  match a with
  | .producer => respondP r s
  | .consumer => respondC r s

/-- `raise <Error>` (R8): what takes the place of trap entry (R237). The command answers with the error's status,
`FLAG` 0, `VALUE` 0 and no payload, on the port it came from; nothing is saved and no other state is written; the agent
is idle again. There is no return (R238). -/
def raise (a : Agent) (e : Status) (s : State) : State :=
  respond a { status := e, flag := false, value := 0#24, payload := [] } s

/-- `emit <signal>` (R8, R240, R241). -/
def emit (g : Signal) (s : State) : State := { s with signals := s.signals ++ [g] }

/-- The reset input while asserted (R260): the block is in the state of R40, a command in progress is abandoned without a
response. What waits at the ports and what was answered before belongs to the environment and stays. -/
def hardReset (s : State) : State :=
  { State.resetOf s.cfg with
    f0 := .free s.draw 0, angle := .free s.draw 1, ampl := .free s.draw 2
    pIn := s.pIn, cIn := s.cIn, pOut := s.pOut, cOut := s.cOut, signals := s.signals
    lost := s.lost + (if s.pseq = .idle then 0 else 1) + (if s.cseq = .idle then 0 else 1)
    sched := s.sched, turn := s.turn, draw := s.draw + 1 }

end Sys2Proof.Machine
end

