-- ==== Sys2Proof/Machine/Operands.lean ====
section
/-!
DEFINITION. What the operand fields of a command mean as values: a Sample as a number, and the binary32 base frequency of
INIT with the table length it asks for (R13 (f), R92, R97).
-/

namespace Sys2Proof.Machine

/-- A Sample enters the arithmetic as the number equal to its unsigned value (R13 (j)). -/
def NumExpr.ofSample (x : Sample) : NumExpr := .ofNat x.toNat

/-- An exact rational number `(-1)^neg · num / den`, `den > 0`: what `dec_num` of a finite binary32 word is (R97). -/
structure Ratio where
  neg : Bool
  num : Nat
  den : Nat
  deriving DecidableEq, Repr

/-- The real number a `Ratio` is. -/
noncomputable def Ratio.toReal (q : Ratio) : ℝ := (if q.neg then -1 else 1) * (q.num : ℝ) / (q.den : ℝ)

/-- `dec_num` of R97: `none` is the marker `invalid` of an infinity or a NaN. With `e = 0` the number is
`(-1)^s · m · 2^-149`, otherwise `(-1)^s · (1 + m/2^23) · 2^(e-127) = (-1)^s · (2^23 + m) · 2^(e-150)`. -/
def decNum (b : Word) : Option Ratio :=
  let s : Bool := b.msb
  let e : Nat := (b.extractLsb' 23 8).toNat
  let m : Nat := (b.extractLsb' 0 23).toNat
  if e = 255 then none
  else if e = 0 then some { neg := s, num := m, den := 2 ^ 149 }
  else some { neg := s, num := (2 ^ 23 + m) * 2 ^ (e - 150), den := 2 ^ (150 - e) }

/-- The negation of R200's `f0 <= 0`; both zeros decode to the real 0. -/
def Ratio.positive (q : Ratio) : Bool := !q.neg && decide (0 < q.num)

/-- A positive `Ratio` as a `Num` (R25). DESIGN CHOICE (log 28): R5's record has no operation that takes an exact real to the
carrier, so `f0` is formed as one `of_nat` divided by another; over the reals that is `f0` itself. -/
def Ratio.toNum (q : Ratio) : NumExpr := .div (.ofNat q.num) (.ofNat q.den)

/-- `floor(FS / f0)` for a positive `f0` (R13 (f), R200): exact, however large. -/
def tableLength (c : Config) (q : Ratio) : Nat := c.fs * q.den / q.num

/-- The strategies this instance has (R4, U12). -/
def builtIn (c : Config) : Strategy → Bool
  | .table => c.hasTable
  | .direct => c.hasDirect

/-- The error of an INIT whose operands pass but whose strategy the instance was built without: one of the two errors INIT
can answer, nobody knows which (R4, U12, R232, log 11). -/
def unbuiltStatus (c : Config) (strat : Strategy) : Status :=
  if Config.unbuiltIllegal c strat then .illegalCommand else .configError

/-- INIT's checks of a decoded base frequency (R200 step 1, R231): `none` is CONFIG_ERROR, otherwise the frequency and the
new `L`. -/
def checkFrequency (c : Config) (strat : Strategy) : Option Ratio → Option (Ratio × Nat)
  | none => none
  | some q =>
    if q.positive then
      match strat with
      | .direct => some (q, 0)
      | .table =>
        if Config.lmin ≤ tableLength c q ∧ tableLength c q ≤ c.lmax then some (q, tableLength c q) else none
    else none

/-- INIT's operand checks (R200 step 1). -/
def initParams (c : Config) (strat : Strategy) (f0bits : Word) : Option (Ratio × Nat) :=
  checkFrequency c strat (decNum f0bits)

end Sys2Proof.Machine
end

