-- ==== Sys2Proof/Machine/TrigSource.lean ====
section
/-!
DEFINITION. The trig source (R140 to R148): building the table, SINE and COSINE in both strategies.
-/

namespace Sys2Proof.Machine

/-- `2π · x` as a `Num`. -/
def twoPiTimes (x : NumExpr) : NumExpr := .mul (.mul (.ofNat 2) .pi) x

/-- `sin(2π·k / l)`, the entry `k` of a table of length `l` (R141). -/
def tableEntry (l k : Nat) : NumExpr := .sin (.div (twoPiTimes (.ofNat k)) (.ofNat l))

/-- TRIGCFG (R141, R200 step 3): for the table strategy `L` and the slots `0 .. L-1` are written, for the direct strategy
`L <- 0` and no table is built. -/
def trigCfg (strat : Strategy) (l : Nat) (s : State) : State :=
  match strat with
  | .table => { s with len := l, table := s.table.fill l (tableEntry l) }
  | .direct => { s with len := 0 }

/-- A table slot; one that nothing has written since reset holds an unspecified number (U2, log 4). -/
def readTable (s : State) (i : Nat) : NumExpr :=
  match s.table.read i with
  | some v => v
  | none => .free s.draw (3 + i)

/-- The reference angle `2π·F0·n / FS` of the direct strategy (R144). -/
def directAngle (s : State) (n : Nat) : NumExpr :=
  .div (.mul (twoPiTimes s.f0) (.ofNat n)) (.ofNat s.cfg.fs)

/-- `SINE(n)` (R142, R144). -/
def sine (s : State) (n : Nat) : NumExpr :=
  match s.strat with
  | .table => readTable s (n % s.len)
  | .direct => .sin (directAngle s n)

/-- `COSINE(n)` (R143, R144): in the table strategy a quarter-period offset, rounded down. -/
def cosine (s : State) (n : Nat) : NumExpr :=
  match s.strat with
  | .table => readTable s ((n + s.len / 4) % s.len)
  | .direct => .cos (directAngle s n)

end Sys2Proof.Machine
end

