-- ==== Sys2Proof/Machine/Demodulator.lean ====
section
/-!
DEFINITION. The demodulator command CONSUME (R180 to R184).
-/

namespace Sys2Proof.Machine

/-- `angle_deg(i, q) = atan2(i, q) · 180 / π` (R182): the in-phase sum is the ordinate. -/
def angleDeg (i q : NumExpr) : NumExpr := .div (.mul (.atan2 i q) (.ofNat 180)) .pi

/-- `hypot(i, q) / W` (R183). -/
def amplitude (c : Config) (i q : NumExpr) : NumExpr := .div (.hypot i q) (.ofNat c.window)

/-- The accumulation of one sample (R180): both products use the old `N`. -/
def accumulate (x : Sample) (s : State) : State :=
  { s with
    sumI := .add s.sumI (.mul (.ofSample x) (cosine s s.n))
    sumQ := .add s.sumQ (.mul (.ofSample x) (sine s s.n))
    n := s.n + 1 }

/-- Window completion (R181). -/
def completeWindow (s : State) : State :=
  { s with
    angle := angleDeg s.sumI s.sumQ
    ampl := amplitude s.cfg s.sumI s.sumQ
    sumI := NumExpr.zero
    sumQ := NumExpr.zero
    n := 0
    rvalid := true }

/-- `N == W` after this sample (R180): the result is ready. -/
def windowCloses (s : State) : Bool := decide (s.n + 1 = s.cfg.window)

/-- What CONSUME does to the demodulator (R180), all of it one micro-step. -/
def consumeSample (x : Sample) (s : State) : State :=
  if windowCloses s then completeWindow (accumulate x s) else accumulate x s

/-- CONSUME (R180) as a stand-alone command. -/
def execConsume (x : Sample) (s : State) : Host.Outcome State Fault Refusal :=
  if s.cseq = .idle then
    if s.phase = .idle then .next (raise .consumer .usageError s)
    else .next (respondC (okFlag (windowCloses s)) (consumeSample x s))
  else .next s

end Sys2Proof.Machine
end

