-- ==== Sys2Proof/Machine/Flags.lean ====
section
/-!
DEFINITION. `STATUS` and its fields (R38): each is computed from the state at the instant it is read.
-/

namespace Sys2Proof.Machine

/-- The two bits of `PHASE` (R34). -/
def Phase.code : Phase → BitVec 2
  | .idle => 0#2
  | .configured => 1#2
  | .running => 2#2

/-- The bit of `STRAT` (R26). -/
def stratCode : Strategy → Bool
  | .table => false
  | .direct => true

/-- `STATUS[2]`: reads 0 while `PHASE = Idle` (R38). -/
def flagStrat (s : State) : Bool := decide (s.phase ≠ .idle) && stratCode s.strat

/-- `STATUS[3]`: the quarter-period cosine is biased (R38, R143, R146). -/
def flagQbias (s : State) : Bool :=
  decide (s.phase ≠ .idle) && decide (s.strat = .table) && decide (s.len % 4 ≠ 0)

/-- `STATUS[4]`: `WR = RD` (R24, R38). -/
def flagEmpty (s : State) : Bool := decide (s.wr = s.rd)

/-- `STATUS[5]`: `(WR + 1) mod C = RD` (R24, R38). -/
def flagFull (s : State) : Bool := decide (nextIndex s.cfg s.wr = s.rd)

/-- A flag as a bit. -/
def bit (b : Bool) : BitVec 1 := BitVec.ofBool b

/-- `STATUS` as RDREG reads it: bits [31:7] read as 0 (R38). -/
def statusWord (s : State) : Word :=
  0#25 ++ bit s.rvalid ++ bit (flagFull s) ++ bit (flagEmpty s) ++ bit (flagQbias s) ++ bit (flagStrat s) ++ s.phase.code

end Sys2Proof.Machine
end

