-- ==== Sys2Proof/Machine/RingBuffer.lean ====
section
/-!
DEFINITION. The ring buffer commands PUSH and POP, micro-step by micro-step (R120, R121), and the index reset (R122).
-/

namespace Sys2Proof.Machine

/-- `P_LOAD` (R120): latch the sample, the read index with acquire ordering, and the producer's own index. -/
def pLoad (x : Sample) (s : State) : State :=
  gotoP .write { s with pS := x, pR := loadAcquireRd s, pW := s.wr }

/-- The full test of `P_WRITE`, on the latched indices (R13 (b), R120 corner (a)). -/
def fullSeen (s : State) : Bool := decide (nextIndex s.cfg s.pW = s.pR)

/-- `DROPCNT <- (DROPCNT + 1) mod 2^DROP_BITS` (R13 (e), R35). -/
def countDrop (s : State) : State := { s with dropcnt := (s.dropcnt + 1) % 2 ^ s.cfg.dropBits }

/-- `P_WRITE` (R120): drop and answer, or write the payload. -/
def pWrite (s : State) : State :=
  if fullSeen s then respondP (okFlag false) (countDrop s)
  else gotoP .publish { s with buf := s.buf.write s.pW s.pS }

/-- `P_PUBLISH` (R120): publish the advanced write index and answer. -/
def pPublish (s : State) : State :=
  respondP (okFlag true) (storeReleaseWr (nextIndex s.cfg s.pW) s)

/-- PUSH (R120), its first micro-step: accepting a command and taking its first micro-step are one transition (R36).
While the producer is busy the command waits. -/
def execPush (x : Sample) (s : State) : Host.Outcome State Fault Refusal :=
  if s.pseq = .idle then .next (pLoad x s) else .next s

/-- `C_LOAD` (R121): latch the write index with acquire ordering, and the consumer's own index. -/
def cLoad (s : State) : State := gotoC .read { s with cW := loadAcquireWr s, cR := s.rd }

/-- The low `SAMPLE_BITS` bits (R21). -/
def cutSample (c : Config) (x : Sample) : Sample := BitVec.ofNat 24 (x.toNat % 2 ^ c.sampleBits)

/-- The payload of a slot. A slot nothing has written since reset yields a free value (U2, log 6). -/
def readSlot (s : State) (i : Nat) : Sample :=
  match s.buf.read i with
  | some v => v
  | none => cutSample s.cfg (Config.freeSample s.draw i)

/-- `C_READ` (R121): empty, or read the payload. -/
def cRead (s : State) : State :=
  if s.cW = s.cR then
    if s.cLoop then gotoC .done s else respondC (okFlag false) s
  else gotoC .publish { s with cV := readSlot s s.cR }

/-- The response of a POP that returns a sample (R95, R121). -/
def popped (v : Sample) : Response := { status := .ok, flag := true, value := v, payload := [] }

/-- `C_PUBLISH` (R121): free the slot, then answer, or go on with the LOOP. -/
def cPublish (s : State) : State :=
  if s.cLoop then gotoC .consume (storeReleaseRd (nextIndex s.cfg s.cR) s)
  else respondC (popped s.cV) (storeReleaseRd (nextIndex s.cfg s.cR) s)

/-- POP (R121), its first micro-step, with `c_loop = 0`. -/
def execPop (s : State) : Host.Outcome State Fault Refusal :=
  if s.cseq = .idle then .next (cLoad { s with cLoop := false }) else .next s

/-- RBRESET (R122): both indices to 0, `BUF` not cleared. -/
def rbReset (s : State) : State := { s with wr := 0, rd := 0 }

end Sys2Proof.Machine
end

