-- ==== Sys2Proof/Machine/Sampler.lean ====
section
/-!
DEFINITION. The sampler commands START, STOP and TICK (R160 to R162).
-/

namespace Sys2Proof.Machine

/-- START (R160). -/
def execStart (s : State) : Host.Outcome State Fault Refusal :=
  if s.cseq = .idle then
    match s.phase with
    | .idle => .next (raise .consumer .usageError s)
    | .running => .next (respondC (okFlag false) s)
    | .configured =>
      .next (respondC (okFlag false) { emit (.timerArm s.cfg.fs) s with phase := .running })
  else .next s

/-- The timer is disarmed and the handler detached if it runs (R161, R200 step 2). -/
def disarm (s : State) : State := if s.phase = .running then emit .timerDisarm s else s

/-- STOP (R161): its micro-step is enabled only while `PSEQ = P_IDLE`; until then it waits. -/
def execStop (s : State) : Host.Outcome State Fault Refusal :=
  if s.cseq = .idle ∧ s.pseq = .idle then
    match s.phase with
    | .running => .next (respondC (okFlag false) { disarm s with phase := .configured })
    | .configured => .next (respondC (okFlag false) s)
    | .idle => .next (respondC (okFlag false) s)
  else .next s

/-- TICK (R162): `T_GATE` ignores the tick unless the block is Running, and is PUSH's `P_LOAD` otherwise. -/
def execTick (x : Sample) (s : State) : Host.Outcome State Fault Refusal :=
  if s.pseq = .idle then
    if s.phase = .running then .next (pLoad x s) else .next (respondP (okFlag false) s)
  else .next s

end Sys2Proof.Machine
end

