-- ==== Sys2Proof/Machine/Controller.lean ====
section
/-!
DEFINITION. The controller commands INIT, LOOP and RDREG (R200 to R202).
-/

namespace Sys2Proof.Machine

/-- INIT's steps 2 and 3 (R200), once its operands have passed the checks: `q` is the base frequency, `l` the new `L`. -/
def configure (pin : PinId) (strat : Strategy) (q : Ratio) (l : Nat) (s : State) : State :=
  let s1 := emit (.adcConfig pin s.cfg.sampleBits) { disarm s with pin := pin, f0 := q.toNum, strat := strat }
  let s2 := rbReset (trigCfg strat l s1)
  { s2 with sumI := NumExpr.zero, sumQ := NumExpr.zero, n := 0, rvalid := false, dropcnt := 0, phase := .configured }

/-- INIT (R200): its micro-step is enabled only while `PSEQ = P_IDLE`; a failing INIT changes nothing (R231), and so does
one that selects a strategy the instance was built without (U12, log 11), which is looked at after R200's checks. -/
def execInit (pin : PinId) (strat : Strategy) (f0bits : Word) (s : State) : Host.Outcome State Fault Refusal :=
  if s.cseq = .idle ∧ s.pseq = .idle then
    match initParams s.cfg strat f0bits with
    | none => .next (raise .consumer .configError s)
    | some (q, l) =>
      if builtIn s.cfg strat then .next (respondC (okFlag false) (configure pin strat q l s))
      else .next (raise .consumer (unbuiltStatus s.cfg strat) s)
  else .next s

/-- `L_ENTER` (R201). -/
def lEnter (s : State) : State :=
  if s.phase = .idle then raise .consumer .usageError s
  else gotoC .load { s with cGot := false, cLoop := true }

/-- LOOP (R201), its first micro-step. -/
def execLoop (s : State) : Host.Outcome State Fault Refusal :=
  if s.cseq = .idle then .next (lEnter s) else .next s

/-- `L_CONSUME` (R201): the CONSUME micro-step of R180 on `c_v`, its phase test included, then back to `C_LOAD`. -/
def lConsume (s : State) : State :=
  if s.phase = .idle then raise .consumer .usageError { s with cLoop := false }
  else gotoC .load { consumeSample s.cV s with cGot := s.cGot || windowCloses s }

/-- LOOP's response (R96, R201): the latest result if a window completed during this LOOP, else two zero words. -/
def loopResponse (s : State) : Response :=
  { status := .ok, flag := s.cGot, value := 0#24
    payload := if s.cGot then [.num s.angle, .num s.ampl] else [.word 0#32, .word 0#32] }

/-- `L_DONE` (R201). -/
def lDone (s : State) : State := respondC (loopResponse s) { s with cLoop := false }

/-- An integer register, zero-extended to 32 bits (R39); of one that needs more nothing is known (log 3). -/
def intPayload (v : Nat) : Payload := .word (if v < 2 ^ 32 then BitVec.ofNat 32 v else Config.freeWide v)

/-- The value of a register while it holds a specified one, else an unspecified word (R202 corner (b), log 5). -/
def specified (known : Bool) (v : Payload) (r : RegNo) (s : State) : Payload :=
  if known then v else .word (Config.freeWord s.draw r)

/-- The payload word RDREG returns for a register (R38, R39, R96, R202). -/
def readReg (s : State) : Reg → Payload
  | .status => .word (statusWord s)
  | .wr => intPayload (loadAcquireWr s)
  | .rd => intPayload s.rd
  | .n => intPayload s.n
  | .l => intPayload s.len
  | .pin => specified (decide (s.phase ≠ .idle)) (intPayload s.pin.toNat) 0x05#8 s
  | .dropcnt => intPayload s.dropcnt
  | .f0 => specified (decide (s.phase ≠ .idle)) (.num s.f0) 0x08#8 s
  | .sumI => .num s.sumI
  | .sumQ => .num s.sumQ
  | .angle => specified s.rvalid (.num s.angle) 0x0B#8 s
  | .ampl => specified s.rvalid (.num s.ampl) 0x0C#8 s

/-- The response of an RDREG (R96, R202). -/
def regResponse (p : Payload) : Response := { status := .ok, flag := false, value := 0#24, payload := [p] }

/-- RDREG (R202): no side effect; a reserved number is an illegal command. -/
def execRdreg (reg : RegNo) (s : State) : Host.Outcome State Fault Refusal :=
  if s.cseq = .idle then
    match regOfNumber reg with
    | none => .next (raise .consumer .illegalCommand s)
    | some r => .next (answerRead (regResponse (readReg s r)) s)
  else .next s

end Sys2Proof.Machine
end

