-- ==== Sys2Proof/Machine/Dispatch.lean ====
section
/-!
DEFINITION. One arm per command of the opcode table: the micro-step in which an idle agent accepts it (R36).
-/

namespace Sys2Proof.Machine

def exec (i : Instr) (s : State) : Host.Outcome State Fault Refusal :=
  match i with
  | .push x => Sys2Proof.Machine.execPush x s
  | .pop => Sys2Proof.Machine.execPop s
  | .consume x => Sys2Proof.Machine.execConsume x s
  | .tick x => Sys2Proof.Machine.execTick x s
  | .init pin strat f0bits => Sys2Proof.Machine.execInit pin strat f0bits s
  | .start => Sys2Proof.Machine.execStart s
  | .stop => Sys2Proof.Machine.execStop s
  | .loop => Sys2Proof.Machine.execLoop s
  | .rdreg reg => Sys2Proof.Machine.execRdreg reg s

end Sys2Proof.Machine
end

