-- ==== Sys2Proof/Machine/Port.lean ====
section
/-!
DEFINITION. The bits of responses at the ports (R95, R96) and the binary32 encoding of `Num` values (R97).
-/

namespace Sys2Proof.Machine

/-- The `STATUS` codes of R230. -/
def Status.code : Status → BitVec 4
  | .ok => 0#4
  | .configError => 1#4
  | .usageError => 2#4
  | .illegalCommand => 3#4

/-- The 12 bits of `VALUE` (R95, R127). What they are for a Sample that needs more is stated nowhere (log 12). -/
def valueField (x : Sample) : BitVec 12 := if x.toNat < 2 ^ 12 then x.setWidth 12 else Config.freeValue x

/-- The first response word (R95). -/
def Response.head (r : Response) : Word := r.status.code ++ BitVec.ofBool r.flag ++ 0#15 ++ valueField r.value

/-- The integer nearest to `y`, ties to the even one (R97). -/
def roundHalfEven {K : Type} [Field K] [LinearOrder K] [FloorRing K] (y : K) : Int :=
  let f := ⌊y⌋
  if y - f < 1 / 2 then f
  else if 1 / 2 < y - f then f + 1
  else if f % 2 = 0 then f else f + 1

/-- The exponent of the binary32 grid a positive `x` is rounded on: `floor(log2 x)`, but not below that of the smallest
normal number (R97). -/
def gridExponent {K : Type} [Field K] [LinearOrder K] [IsStrictOrderedRing K] [FloorRing K] (x : K) : Int :=
  max (Int.log 2 x) (-126)

/-- `2^e` for an integer `e`. -/
def twoPow {K : Type} [Field K] (e : Int) : K := if 0 ≤ e then 2 ^ e.toNat else 1 / 2 ^ (-e).toNat

/-- The bits below the sign of the binary32 number nearest to a positive `x`, as a number: the distance from 0 in steps of
the grid, which counts through subnormals and normals in order (R97). 0x7F800000 and above is no finite number. -/
def magnitudeBits {K : Type} [Field K] [LinearOrder K] [IsStrictOrderedRing K] [FloorRing K] (x : K) : Nat :=
  let e := gridExponent x
  ((e + 126) * 2 ^ 23 + roundHalfEven (x / twoPow (e - 23))).toNat

/-- `enc_num` of R97 over any ordered field with a floor: nearest, ties to even fraction, the number 0 as 0x00000000.
`overflow` answers where R97 states no result. -/
def encodeNum {K : Type} [Field K] [LinearOrder K] [IsStrictOrderedRing K] [FloorRing K] (overflow : K → Word) (x : K) :
    Word :=
  if x = 0 then 0#32
  else
    let m := magnitudeBits |x|
    if m = 0 then 0#32
    else if m < 0x7F800000 then (if x < 0 then BitVec.ofNat 32 (2 ^ 31 + m) else BitVec.ofNat 32 m)
    else overflow x

/-- `enc_num` of R97 over the reference domain. -/
noncomputable def encNum (x : ℝ) : Word := encodeNum Config.freeEncoding x

/-- A payload word at the port, for a given number encoding (R96). -/
def Payload.bits (enc : NumExpr → Word) : Payload → Word
  | .word w => w
  | .num x => enc x

/-- The words of a response at the port, for a given number encoding (R95, R96). -/
def Response.wordsWith (enc : NumExpr → Word) (r : Response) : List Word := r.head :: r.payload.map (Payload.bits enc)

/-- The words of a response of the reference machine (R95, R96, R97). -/
noncomputable def Response.words (r : Response) : List Word := r.wordsWith (fun x => encNum x.toReal)

end Sys2Proof.Machine
end

