-- ==== Sys2Proof/Machine/Agents.lean ====
section
/-!
DEFINITION. The two agents (R9, R71): taking the next command off a port, the micro-steps inside a command, which agent
has a micro-step enabled, and what a step does when the environment names no agent.
-/

namespace Sys2Proof.Machine

/-- The words waiting at an agent's command port (R9). -/
def portIn (a : Agent) (s : State) : List Word :=
  match a with
  | .producer => s.pIn
  | .consumer => s.cIn

/-- The words waiting at an agent's command port become `ws`. -/
def setPortIn (a : Agent) (ws : List Word) (s : State) : State :=
  match a with
  | .producer => { s with pIn := ws }
  | .consumer => { s with cIn := ws }

/-- The commands whose micro-step is enabled only while `PSEQ = P_IDLE` (R71, R161, R200). -/
def holdsForProducer : Instr → Bool
  | .init _ _ _ => true
  | .stop => true
  | .push _ => false
  | .pop => false
  | .consume _ => false
  | .tick _ => false
  | .start => false
  | .loop => false
  | .rdreg _ => false

/-- An agent takes a command from its port: an illegal one is answered before any micro-step (R98, R234), any other takes
its first micro-step in the same transition (R36). -/
def accept (a : Agent) (cmd : List Word) (s : State) : Host.Outcome State Fault Refusal :=
  match decode s.cfg a cmd with
  | .error _ => .next (raise a .illegalCommand s)
  | .ok i => exec i s

/-- The next command of an idle agent, if a whole one waits (R9, R90). -/
def takeCommand (a : Agent) (s : State) : Host.Outcome State Fault Refusal :=
  match fetchCommand (portIn a s) with
  | none => .next s
  | some (cmd, rest) => accept a cmd (setPortIn a rest s)

/-- Whether an idle agent could take a command now: a whole one waits, and it is not one that holds for a busy producer. -/
def canAccept (a : Agent) (s : State) : Bool :=
  match fetchCommand (portIn a s) with
  | none => false
  | some (cmd, _) =>
    match decode s.cfg a cmd with
    | .error _ => true
    | .ok i => !holdsForProducer i || decide (s.pseq = .idle)

/-- Whether an agent has a micro-step enabled (R71, R236). -/
def enabled (a : Agent) (s : State) : Bool :=
  match a with
  | .producer => decide (s.pseq ≠ .idle) || canAccept .producer s
  | .consumer => decide (s.cseq ≠ .idle) || canAccept .consumer s

/-- The producer's next micro-step (R36, R120, R162). -/
def producerStep (s : State) : Host.Outcome State Fault Refusal :=
  match s.pseq with
  | .idle => takeCommand .producer s
  | .load => .next (pLoad s.pS s)
  | .write => .next (pWrite s)
  | .publish => .next (pPublish s)

/-- The consumer's next micro-step (R36, R121, R201). -/
def consumerStep (s : State) : Host.Outcome State Fault Refusal :=
  match s.cseq with
  | .idle => takeCommand .consumer s
  | .load => .next (cLoad s)
  | .read => .next (cRead s)
  | .publish => .next (cPublish s)
  | .enter => .next (lEnter s)
  | .consume => .next (lConsume s)
  | .done => .next (lDone s)

/-- One micro-step of one agent, indivisible on the whole state (R71). An agent with none enabled lets its turn pass. -/
def agentStep (a : Agent) (s : State) : Host.Outcome State Fault Refusal :=
  if enabled a s then
    match a with
    | .producer => producerStep s
    | .consumer => consumerStep s
  else .next s

/-- A step for which the environment names no agent: the enabled agent moves; if both are enabled either may go first
(R71, R236), and a free value says which (log 7); if neither is, nothing happens (R244). -/
def freeStep (s : State) : Host.Outcome State Fault Refusal :=
  match enabled .producer s, enabled .consumer s with
  | true, true => agentStep (Config.arbiter s.turn) { s with turn := s.turn + 1 }
  | true, false => agentStep .producer s
  | false, true => agentStep .consumer s
  | false, false => .next s

/-- One step, by what the environment chose for it (R9, R41, R260). A word sent to a port waits there (R235). -/
def stepBy (s : State) : Host.Outcome State Fault Refusal :=
  match s.sched with
  | [] => freeStep s
  | .agent a :: rest => agentStep a { s with sched := rest }
  | .send a w :: rest => .next (setPortIn a (portIn a s ++ [w]) { s with sched := rest })
  | .reset :: rest => .next (hardReset { s with sched := rest })

/-- Whether a command with this first word is INIT or STOP, which hold for the producer (R161, R200). -/
def heldOpcode (w : Word) : Bool := opcode w == 0x10#8 || opcode w == 0x12#8

/-- The command `first :: rest` placed where agent `a` takes its next command, `a` idle and next to move. A command that
holds for the producer finds it idle. -/
def placeCommand (a : Agent) (first : Word) (rest : List Word) (s : State) : State :=
  match a with
  | .producer => { s with pIn := first :: rest ++ s.pIn, pseq := .idle, sched := .agent .producer :: s.sched }
  | .consumer =>
    { s with
      cIn := first :: rest ++ s.cIn, cseq := .idle, sched := .agent .consumer :: s.sched
      pseq := if heldOpcode first then .idle else s.pseq }

/-- An instruction in the opcode table's numbering, placed at the port it belongs to. -/
def placeTableWord (nbits w : Nat) (s : State) : State :=
  match tableWords nbits w with
  | [] => s
  | first :: rest => placeCommand (homePort first) first rest s

end Sys2Proof.Machine
end

