-- ==== Sys2Proof/Machine/Step.lean ====
section
/-!
DEFINITION. One step of the machine: one micro-step of one agent, the arrival of a command word, or the reset input (R9, R71, R260).
-/

namespace Sys2Proof.Machine

/-- One step of the machine. -/
def step (s : State) : Host.Outcome State Fault Refusal := stepBy s

/-- `s` with the instruction that the opcode table numbers `w` as the next command of the agent that executes it, and
that agent idle and next to move, so that the very next step runs it (log 9). -/
def State.withFetchWord (s : State) (nbits w : Nat) : State := placeTableWord nbits w s

end Sys2Proof.Machine
end

