-- ==== Sys2Proof/Machine/Accuracy.lean ====
section
/-!
DEFINITION. The accuracy R5 and R187 require of a number system `NUM`: the inputs V1 and V2 and the bands of V3.
-/

namespace Sys2Proof.Machine

/-- 50.0 as INIT decodes 0x42480000. -/
def fiftyHz : Ratio := { neg := false, num := 50 * 2 ^ 18, den := 2 ^ 18 }

/-- The reference instance after `INIT p, 50.0, strat` (V1). -/
def sessionAt50 (strat : Strategy) : State :=
  configure 0#8 strat fiftyHz (match strat with | .table => 100 | .direct => 0) State.reset

/-- `x[n] = round(2048 + A·sin(2π·50·n/5000 + φ))`, `φ` in degrees (V1, V2, D31). -/
noncomputable def syntheticSample (amp deg : ℝ) (n : Nat) : Sample :=
  BitVec.ofNat 24
    (roundHalfEven (2048 + amp * Real.sin (2 * Real.pi * 50 * n / 5000 + deg * Real.pi / 180))).toNat

/-- The state after CONSUMEs of the first `W` samples (V1, V2). -/
noncomputable def afterWindow (strat : Strategy) (amp deg : ℝ) : State :=
  ((List.range 5000).map (syntheticSample amp deg)).foldl (fun s x => consumeSample x s) (sessionAt50 strat)

/-- The inputs of V1 and V2: peak amplitude, and phase in degrees. -/
noncomputable def toleranceInputs : List (ℝ × ℝ) := [(1000, 0), (800, 30), (1000, 90), (1000, 180), (500, -120), (1000, -90)]

/-- The tolerances a `NUM` must meet (R5, R187, S3, S4, V3). `val` is the real number a value of the carrier stands for and
`band` the small absolute bound V3 speaks of for an angle that is 0; angles are compared modulo 360 (V2). Both, and that
differences are relative to the direct strategy's result, are DESIGN CHOICE (log 29). -/
structure NumSys.MeetsTolerances {α : Type} (sys : NumSys α) (unspecified : Nat → Nat → α) (val : α → ℝ) (band : ℝ) :
    Prop where
  amplitude : ∀ strat, |val ((afterWindow strat 1000 0).ampl.eval sys unspecified) - 500| ≤ 5
  angle : ∀ strat, |val ((afterWindow strat 1000 0).angle.eval sys unspecified)| ≤ 2
  amplitudes : ∀ i ∈ toleranceInputs,
    |val ((afterWindow .table i.1 i.2).ampl.eval sys unspecified) -
        val ((afterWindow .direct i.1 i.2).ampl.eval sys unspecified)| ≤
      1 / 1000 * |val ((afterWindow .direct i.1 i.2).ampl.eval sys unspecified)|
  angles : ∀ i ∈ toleranceInputs, ∃ turns : ℤ,
    |val ((afterWindow .table i.1 i.2).angle.eval sys unspecified) -
        val ((afterWindow .direct i.1 i.2).angle.eval sys unspecified) - 360 * turns| ≤
      if i.2 = 0 then band else 1 / 1000 * |val ((afterWindow .direct i.1 i.2).angle.eval sys unspecified)|

end Sys2Proof.Machine
end

