-- ==== Sys2Proof/Safety.lean ====
section
/-!
DEFINITION. The terms claims are made in: the live samples (R24), the invariants of the block, runs of one agent and of
whole commands, what a finished run is (R275), and the rate premise of LOOP (R266).
-/

namespace Sys2Proof.Machine

/-- The occupancy of the ring (R24). -/
def liveCount (s : State) : Nat := occupancy s.cfg s.wr s.rd

/-- The live samples `BUF[RD], BUF[(RD+1) mod C], ..., BUF[(WR-1) mod C]`, oldest first (R24). -/
def live (s : State) : List (Option Sample) :=
  (List.range (liveCount s)).map (fun k => s.buf.read ((s.rd + k) % s.cfg.cap))

/-- Counters and indices keep to their legal values (R22, R23, R27, R30, R33, R35), the parameters to theirs (R4). -/
structure CountersOk (s : State) : Prop where
  cfg : s.cfg.wf
  wr : s.wr < s.cfg.cap
  rd : s.rd < s.cfg.cap
  n : s.n < s.cfg.window
  len : s.len ≤ s.cfg.lmax
  dropcnt : s.dropcnt < 2 ^ s.cfg.dropBits
  pin : pinFits s.cfg s.pin = true

/-- Both memories keep their canonical form and their index ranges (R60, R62), slots hold Samples of the instance's width
(R21), and every live slot has been written (R77, U2). -/
structure MemoriesOk (s : State) : Prop where
  buf : s.buf.wf
  bufRange : ∀ i v, s.buf.read i = some v → i < s.cfg.cap ∧ sampleFits s.cfg v = true
  table : s.table.wf
  tableRange : ∀ i v, s.table.read i = some v → i < s.cfg.lmax
  live : ∀ v ∈ live s, v.isSome

/-- Outside phase Idle there is a trig source (R25 to R28, R140, R141): `F0` is finite and positive, and in the table
strategy `L` and the slots below it are what TRIGCFG builds from `F0`. -/
def TrigOk (s : State) : Prop :=
  s.phase ≠ .idle →
    ∃ q : Ratio, q.positive = true ∧ 0 < q.den ∧ s.f0 = q.toNum ∧
      match s.strat with
      | .table =>
        s.len = tableLength s.cfg q ∧ Config.lmin ≤ s.len ∧ ∀ k < s.len, s.table.read k = some (tableEntry s.len k)
      | .direct => s.len = 0

/-- What the latches of a command in progress say about the ring (R36, R77): a latched copy of one's own index is
current, a latched copy of the other agent's index errs on the safe side. Nothing is said of the latches of an idle agent,
which reset leaves unspecified (R40). -/
structure SequencersOk (s : State) : Prop where
  /-- `P_LOAD` is never held between steps (R36). -/
  notLoad : s.pseq ≠ .load
  /-- `L_ENTER` is never held between steps (R36). -/
  notEnter : s.cseq ≠ .enter
  write : s.pseq = .write →
    sampleFits s.cfg s.pS = true ∧ s.pW = s.wr ∧ s.pR < s.cfg.cap ∧ liveCount s ≤ occupancy s.cfg s.wr s.pR
  publish : s.pseq = .publish → s.pW = s.wr ∧ s.buf.read s.pW = some s.pS ∧ liveCount s + 1 < s.cfg.cap
  read : s.cseq = .read → s.cR = s.rd ∧ s.cW < s.cfg.cap ∧ occupancy s.cfg s.cW s.rd ≤ liveCount s
  free : s.cseq = .publish → s.cR = s.rd ∧ 0 < liveCount s ∧ s.buf.read s.cR = some s.cV
  consume : s.cseq = .consume → sampleFits s.cfg s.cV = true
  inLoop : s.cseq = .load ∨ s.cseq = .consume ∨ s.cseq = .done → s.cLoop = true
  loopPhase : s.cseq ≠ .idle → s.cLoop = true → s.phase ≠ .idle
  loopResult : s.cseq ≠ .idle → s.cLoop = true → s.cGot = true → s.rvalid = true

/-- The invariant of the block that does not speak of the values of numbers. -/
structure Inv (s : State) : Prop where
  counters : CountersOk s
  memories : MemoriesOk s
  trig : TrigOk s
  sequencers : SequencersOk s

/-- The bound of R29 on the sums, and the ranges of R32 on a valid result, over the reals. -/
structure NumbersOk (s : State) : Prop where
  sumI : |s.sumI.toReal| ≤ s.cfg.smax * s.n
  sumQ : |s.sumQ.toReal| ≤ s.cfg.smax * s.n
  angle : s.rvalid = true → -180 < s.angle.toReal ∧ s.angle.toReal ≤ 180
  ampl : s.rvalid = true → 0 ≤ s.ampl.toReal

/-- `k` micro-steps of one agent while the other does not move. -/
def agentRun (a : Agent) : Nat → State → Host.Outcome State Fault Refusal
  | 0, s => .next s
  | k + 1, s =>
    match agentStep a s with
    | .next t => agentRun a k t
    | .fault f => .fault f
    | .refused r => .refused r

/-- The commands `is` executed one after the other by one agent, each for `k` further micro-steps after its first, while
the other agent does not move. -/
def commandRun (a : Agent) (k : Nat) : List Instr → State → Host.Outcome State Fault Refusal
  | [], s => .next s
  | i :: is, s =>
    match exec i s with
    | .next t =>
      match agentRun a k t with
      | .next u => commandRun a k is u
      | .fault f => .fault f
      | .refused r => .refused r
    | .fault f => .fault f
    | .refused r => .refused r

/-- The state after one step. No step ends in a fault or a refusal (`Obligations.StepNeverStops`), so the last two arms
are never taken. -/
def afterStep (s : State) : State :=
  match step s with
  | .next t => t
  | .fault _ => s
  | .refused _ => s

/-- The run of the machine from `s` on an endless schedule (R266): the state before step `k`, the environment having chosen
`e k` for that step, if it chose anything. -/
def runOn (e : Nat → Option Turn) (s : State) : Nat → State
  | 0 => { s with sched := (e 0).toList }
  | k + 1 => { afterStep (runOn e s k) with sched := (e (k + 1)).toList }

/-- How many of the states numbered `i` to `j - 1` of a run satisfy `p`. -/
def countSteps (p : State → Bool) (r : Nat → State) (i j : Nat) : Nat :=
  (List.range j).countP (fun k => decide (i ≤ k) && p (r k))

/-- How many whole commands wait at a port (R90). -/
def commandCount : List Word → Nat
  | [] => 0
  | [w] => if opcode w = 0x10#8 then 0 else 1
  | w :: p :: rest => if opcode w = 0x10#8 then commandCount rest + 1 else commandCount (p :: rest) + 1

/-- The whole commands of a port that have arrived and not been abandoned: waiting, in progress, or answered. -/
def commandsAt (a : Agent) (s : State) : Nat :=
  match a with
  | .producer => commandCount s.pIn + (if s.pseq = .idle then 0 else 1) + s.pOut.length
  | .consumer => commandCount s.cIn + (if s.cseq = .idle then 0 else 1) + s.cOut.length

/-- A finished run (R275): every command the environment issued has had its response, so none waits, none is in progress
and none was abandoned at a reset, and both sequencers are idle. A command counts as issued once its words have arrived
at the port: a word that still stands in `sched` as a `Turn.send` has not been issued, the model's choice (log 31). -/
def Finished (s : State) : Prop := s.pIn = [] ∧ s.cIn = [] ∧ s.pseq = .idle ∧ s.cseq = .idle ∧ s.lost = 0

/-- The consumer's next command is an INIT that succeeds (R200): the one command that resets the indices, empties the ring
and clears `DROPCNT` (R66, R122). -/
def takesInit (s : State) : Prop :=
  s.cseq = .idle ∧ s.pseq = .idle ∧
  ∃ cmd rest pin strat f0bits, fetchCommand s.cIn = some (cmd, rest) ∧
    decode s.cfg .consumer cmd = .ok (.init pin strat f0bits) ∧
    builtIn s.cfg strat = true ∧ (initParams s.cfg strat f0bits).isSome = true

/-- The reference angle makes exactly `f` turns in a window (R185): in the direct strategy `F0` is `f` Hz, in the table
strategy `L` divides `W`, is divisible by 4, and `f = W / L`. -/
def wholeCycles (s : State) (f : Nat) : Prop :=
  match s.strat with
  | .direct => s.f0.toReal = f
  | .table => s.len * f = s.cfg.window ∧ s.len % 4 = 0

/-- The agent that moves when the environment names none (`freeStep`). -/
def freeAgent (s : State) : Option Agent :=
  match enabled .producer s, enabled .consumer s with
  | true, true => some (Config.arbiter s.turn)
  | true, false => some .producer
  | false, true => some .consumer
  | false, false => none

/-- The agent whose turn the next step is: the one the schedule names, or with no schedule the one that moves. -/
def turnOf (s : State) : Option Agent :=
  match s.sched with
  | [] => freeAgent s
  | .agent a :: _ => some a
  | .send _ _ :: _ => none
  | .reset :: _ => none

/-- The next step is a micro-step of `a`: it is `a`'s turn, and `a` has one enabled. A turn that passes is none. -/
def takesMicroStep (a : Agent) (s : State) : Bool := decide (turnOf s = some a) && enabled a s

/-- The next step is the micro-step of the producer that takes a TICK or a PUSH off the port. -/
def takesSample (s : State) : Bool :=
  takesMicroStep .producer s && decide (s.pseq = .idle) &&
    match fetchCommand s.pIn with
    | none => false
    | some (cmd, _) =>
      match decode s.cfg .producer cmd with
      | .ok _ => true
      | .error _ => false

/-- The rate premise of R266 on the first `k` steps of a run: between two steps in which the producer takes a sample, the
consumer takes at least `need` micro-steps, unless it has none enabled at some time between them. R266 names the four
micro-steps of one iteration of LOOP. It speaks of TICKs; a PUSH counts here too (log 30). -/
def paced (need : Nat) (r : Nat → State) (k : Nat) : Prop :=
  ∀ i j, i < j → j < k → takesSample (r i) = true → takesSample (r j) = true →
    (∃ m, i < m ∧ m ≤ j ∧ enabled .consumer (r m) = false) ∨ need ≤ countSteps (takesMicroStep .consumer) r (i + 1) j

/-- One round of a producer as fast as the consumer: a TICK arrives, the producer pushes it, and the consumer takes the four
micro-steps of one iteration of LOOP (R266). -/
def fullRateRound : List Turn :=
  [ .send .producer 0x04000000#32, .agent .producer, .agent .producer, .agent .producer,
    .agent .consumer, .agent .consumer, .agent .consumer, .agent .consumer ]

/-- The endless schedule of such rounds, in which the producer publishes a sample before every `C_LOAD` for ever (R266). -/
def fullRate (k : Nat) : Option Turn := fullRateRound[k % 8]?

/-- How many more of its own micro-steps the producer needs to finish its command (R74, R163). -/
def producerRank : PSeq → Nat
  | .idle => 0
  | .publish => 1
  | .write => 2
  | .load => 3

end Sys2Proof.Machine
end

