-- ==== Sys2Proof/Certificates/Slice0/Obligations.lean ====
section
/-!
DEFINITION. The statements for the provers, in the order of OBLIGATIONS.json.

`draw` and `turn` are the model's own counters, by which free values are drawn (logs 4 to 7). What a statement says of them
is the model's bookkeeping, no rule of the spec; the statements of basis "stated" leave `draw` open.
-/

open Sys2Proof Sys2Proof.Machine

/-! ## Encoding -/

/-- R90 to R94: cutting a well-formed command off the words at a port and decoding it gives the command back, whatever
follows it. -/
def Obligations.DecodeEncode : Prop :=
  ∀ (c : Config) (i : Instr), c.wf → i.wellFormed c = true →
    decode c (portOf i) (encode i) = .ok i ∧ ∀ rest, fetchCommand (encode i ++ rest) = some (encode i, rest)

/-- R90 to R94: what a decoder reads from a command are exactly that command's words, no bit dropped, and it is well formed
and belongs to the port. That bits of the pin field above `PIN_BITS` are reserved is the model's deduction (log 12). -/
def Obligations.EncodeDecode : Prop :=
  ∀ (c : Config) (a : Agent) (cmd : List Word) (i : Instr), c.wf → decode c a cmd = .ok i →
    encode i = cmd ∧ portOf i = a ∧ i.wellFormed c = true

/-- R98 and the opcode table: a command is illegal at a port unless a row of the table covers its first word, the row
belongs to that port, and, for RDREG, the register number is one of R39. That the fixed bits of INIT's row take in the pin
bits above `PIN_BITS` is the model's deduction (log 12). -/
def Obligations.IllegalExactly : Prop :=
  ∀ (c : Config) (a : Agent) (w : Word) (ws cmd rest : List Word), c.wf → fetchCommand (w :: ws) = some (cmd, rest) →
    ((∃ e, decode c a cmd = .error e) ↔
      ¬ ∃ row ∈ opcodeTable c, row.covers w = true ∧ row.port = a ∧
        (row.mnemonic = "RDREG" → legalReg (field w 0 8) = true))

/-- R90: the opcode alone tells the length: 0x10 takes one payload word with it, whatever else its header says; every other
command is one word. That a lone INIT header waits for its payload word is the model's deduction (log 19). -/
def Obligations.CommandLength : Prop :=
  ∀ (w : Word) (ws : List Word),
    (opcode w = 0x10#8 →
      fetchCommand [w] = none ∧ ∀ payload, fetchCommand (w :: payload :: ws) = some ([w, payload], ws)) ∧
    (opcode w ≠ 0x10#8 → fetchCommand (w :: ws) = some ([w], ws))

/-- R102: the worked encodings of every command and of the responses; R95 and R96: the layout of every response, and its
payload words, a `Num` as `enc_num` of it. Of `VALUE` for a Sample of more than 12 bits nothing is said (log 12). -/
def Obligations.WorkedEncodings : Prop :=
  decode Config.reference .producer [0x01000FFF#32] = .ok (.push 4095#24) ∧
  decode Config.reference .consumer [0x02000000#32] = .ok .pop ∧
  decode Config.reference .consumer [0x03000800#32] = .ok (.consume 2048#24) ∧
  decode Config.reference .producer [0x04000000#32] = .ok (.tick 0#24) ∧
  decode Config.reference .consumer [0x10000107#32, 0x40000000#32] = .ok (.init 7#8 .direct 0x40000000#32) ∧
  decNum 0x40000000#32 = some { neg := false, num := 2 ^ 23, den := 2 ^ 22 } ∧
  decode Config.reference .consumer [0x11000000#32] = .ok .start ∧
  decode Config.reference .consumer [0x12000000#32] = .ok .stop ∧
  decode Config.reference .consumer [0x13000000#32] = .ok .loop ∧
  decode Config.reference .consumer [0x20000000#32] = .ok (.rdreg 0#8) ∧ regOfNumber 0#8 = some .status ∧
  (okFlag false).head = 0x00000000#32 ∧
  (okFlag true).head = 0x08000000#32 ∧
  (popped 0x123#24).head = 0x08000123#32 ∧
  (∀ e, (Response.mk e false 0#24 []).head =
    match e with
    | .ok => 0x00000000#32
    | .configError => 0x10000000#32
    | .usageError => 0x20000000#32
    | .illegalCommand => 0x30000000#32) ∧
  ∀ r : Response,
    r.head.extractLsb' 28 4 =
      (match r.status with | .ok => 0#4 | .configError => 1#4 | .usageError => 2#4 | .illegalCommand => 3#4) ∧
    r.head.getLsbD 27 = r.flag ∧ r.head.extractLsb' 12 15 = 0#15 ∧
    (r.value.toNat < 2 ^ 12 → (r.head.extractLsb' 0 12).toNat = r.value.toNat) ∧
    r.words = r.head :: r.payload.map (fun p => match p with | .word w => w | .num x => encNum x.toReal)

/-- R94: PUSH and TICK are accepted on the producer port only, the other seven on the consumer port only. -/
def Obligations.PortRights : Prop :=
  ∀ (c : Config) (i : Instr), c.wf → i.wellFormed c = true →
    (portOf i = .producer ↔ (∃ x, i = .push x) ∨ (∃ x, i = .tick x)) ∧
    ∀ a, (decode c a (encode i) = .ok i ↔ portOf i = a) ∧ (portOf i ≠ a → decode c a (encode i) = .error .wrongPort)

/-- R98, R234, R237: an illegal command changes no state of the block and is answered on the port it came from. That taking
it off the port and answering it is one transition is the model's deduction (log 26). -/
def Obligations.IllegalAnswered : Prop :=
  ∀ (s : State) (cmd rest : List Word) (e : DecodeError),
    (s.pseq = .idle → fetchCommand s.pIn = some (cmd, rest) → decode s.cfg .producer cmd = .error e →
      agentStep .producer s = .next { s with
        pIn := rest, pOut := s.pOut ++ [{ status := .illegalCommand, flag := false, value := 0#24, payload := [] }]
        draw := s.draw + 1 }) ∧
    (s.cseq = .idle → fetchCommand s.cIn = some (cmd, rest) → decode s.cfg .consumer cmd = .error e →
      agentStep .consumer s = .next { s with
        cIn := rest, cOut := s.cOut ++ [{ status := .illegalCommand, flag := false, value := 0#24, payload := [] }]
        draw := s.draw + 1 })

/-- R97, `dec_num`: exponent 255 is the marker `invalid`, every other word is an exact real number. -/
def Obligations.DecNumValue : Prop :=
  ∀ b : Word,
    (decNum b = none ↔ (b.extractLsb' 23 8).toNat = 255) ∧
    ∀ q, decNum b = some q →
      q.toReal =
        (if b.msb then -1 else 1) *
          (if (b.extractLsb' 23 8).toNat = 0 then ((b.extractLsb' 0 23).toNat : ℝ) * (2 : ℝ) ^ (-149 : ℤ)
           else (1 + ((b.extractLsb' 0 23).toNat : ℝ) / 2 ^ 23) *
             (2 : ℝ) ^ (((b.extractLsb' 23 8).toNat : ℤ) - 127))

/-- R97: encoding what a finite word decodes to gives the word back, and both zeros give the positive zero. -/
def Obligations.EncodeDecoded : Prop :=
  ∀ (b : Word) (q : Ratio), decNum b = some q → encNum q.toReal = if q.num = 0 then 0#32 else b

/-- R97, `enc_num`: for a number no larger than the largest finite binary32 number, the encoding is a finite word, no finite
word is nearer, and of two nearest ones the one with even fraction is taken. -/
def Obligations.EncodeNearest : Prop :=
  ∀ x : ℝ, |x| ≤ (2 ^ 24 - 1) * 2 ^ 104 →
    ∃ q, decNum (encNum x) = some q ∧
      ∀ b' q', decNum b' = some q' →
        |q.toReal - x| ≤ |q'.toReal - x| ∧
        (q'.toReal ≠ q.toReal → |q.toReal - x| = |q'.toReal - x| → (encNum x).toNat % 2 = 0)

/-- R61: words sent as bytes, least significant byte first, arrive as the same words. -/
def Obligations.ByteTransport : Prop :=
  ∀ ws : List Word,
    wordsOfBytes (ws.flatMap wordBytes) = ws ∧
    ∀ w : Word, wordBytes w = [w.extractLsb' 0 8, w.extractLsb' 8 8, w.extractLsb' 16 8, w.extractLsb' 24 8]

/-! ## Ring buffer -/

/-- R120, R162, R36: PUSH and TICK, micro-step by micro-step: an idle producer accepts PUSH, and TICK while Running, by
latching the sample and both indices; it ignores a TICK outside Running, which counts no drop; P_WRITE and P_PUBLISH judge
by the latched indices. -/
def Obligations.PushMicroSteps : Prop :=
  ∀ (s : State) (x : Sample),
    encode (.push x) = [0x01#8 ++ x] ∧ encode (.tick x) = [0x04#8 ++ x] ∧
    portOf (.push x) = .producer ∧ portOf (.tick x) = .producer ∧
    (s.pseq = .idle →
      (∃ d, exec (.push x) s = .next { s with
        pS := x, pR := s.rd, pW := s.wr, pseq := .write, draw := d }) ∧
      (s.phase = .running →
        ∃ d, exec (.tick x) s = .next { s with
          pS := x, pR := s.rd, pW := s.wr, pseq := .write, draw := d }) ∧
      (s.phase ≠ .running →
        ∃ d, exec (.tick x) s = .next { s with pOut := s.pOut ++ [okFlag false], draw := d })) ∧
    (s.pseq = .write → (s.pW + 1) % s.cfg.cap = s.pR →
      ∃ d, agentStep .producer s = .next { s with
        dropcnt := (s.dropcnt + 1) % 2 ^ s.cfg.dropBits
        pseq := .idle, pOut := s.pOut ++ [okFlag false], draw := d }) ∧
    (s.pseq = .write → (s.pW + 1) % s.cfg.cap ≠ s.pR →
      ∃ t, agentStep .producer s = .next t ∧
        t = { s with buf := t.buf, pseq := .publish, draw := t.draw } ∧
        t.buf.read s.pW = some s.pS ∧ ∀ i, i ≠ s.pW → t.buf.read i = s.buf.read i) ∧
    (s.pseq = .publish →
      ∃ d, agentStep .producer s = .next { s with
        wr := (s.pW + 1) % s.cfg.cap
        pseq := .idle, pOut := s.pOut ++ [okFlag true], draw := d })

/-- R120, R123, R162: a PUSH, or a TICK while Running, undisturbed. If it finds room, the sample is in slot `WR`, `WR` has
advanced, the response is accepted, and every other slot and register is as before; if it finds the ring full, the sample
is dropped and counted, and no slot and no index changes. -/
def Obligations.PushUndisturbed : Prop :=
  ∀ (s : State) (x : Sample) (i : Instr), (i = .push x ∨ (i = .tick x ∧ s.phase = .running)) → s.pseq = .idle →
    ((s.wr + 1) % s.cfg.cap ≠ s.rd →
      ∃ t u, exec i s = .next t ∧ agentRun .producer 2 t = .next u ∧
        u = { s with
          buf := u.buf, wr := (s.wr + 1) % s.cfg.cap, pS := x, pR := s.rd, pW := s.wr
          pOut := s.pOut ++ [okFlag true], draw := s.draw + 3 } ∧
        u.buf.read s.wr = some x ∧ ∀ j, j ≠ s.wr → u.buf.read j = s.buf.read j) ∧
    ((s.wr + 1) % s.cfg.cap = s.rd →
      ∃ t, exec i s = .next t ∧
        agentRun .producer 1 t = .next { s with
          dropcnt := (s.dropcnt + 1) % 2 ^ s.cfg.dropBits, pS := x, pR := s.rd, pW := s.wr
          pOut := s.pOut ++ [okFlag false], draw := s.draw + 2 })

/-- R36, R121: an idle consumer accepts POP by latching both indices; the micro-steps C_LOAD, C_READ and C_PUBLISH, in a POP
and in a LOOP. A slot nothing has written yields a sample
of which nothing is known (log 6). -/
def Obligations.PopMicroSteps : Prop :=
  ∀ s : State,
    encode .pop = [0x02000000#32] ∧ portOf .pop = .consumer ∧
    (s.cseq = .idle →
      ∃ d, exec .pop s = .next { s with cW := s.wr, cR := s.rd, cLoop := false, cseq := .read, draw := d }) ∧
    (s.cseq = .load →
      ∃ d, agentStep .consumer s = .next { s with cW := s.wr, cR := s.rd, cseq := .read, draw := d }) ∧
    (s.cseq = .read → s.cW = s.cR → s.cLoop = false →
      ∃ d, agentStep .consumer s = .next { s with
        cseq := .idle, cOut := s.cOut ++ [okFlag false], draw := d }) ∧
    (s.cseq = .read → s.cW = s.cR → s.cLoop = true →
      ∃ d, agentStep .consumer s = .next { s with cseq := .done, draw := d }) ∧
    (s.cseq = .read → s.cW ≠ s.cR →
      ∃ v d, agentStep .consumer s = .next { s with cV := v, cseq := .publish, draw := d } ∧
        ∀ x, s.buf.read s.cR = some x → v = x) ∧
    (s.cseq = .publish → s.cLoop = false →
      ∃ d, agentStep .consumer s = .next { s with
        rd := (s.cR + 1) % s.cfg.cap
        cseq := .idle, cOut := s.cOut ++ [popped s.cV], draw := d }) ∧
    (s.cseq = .publish → s.cLoop = true →
      ∃ d, agentStep .consumer s = .next { s with
        rd := (s.cR + 1) % s.cfg.cap, cseq := .consume, draw := d })

/-- R121: a POP undisturbed returns the sample at `RD` and advances `RD`, or reports none and changes nothing; nothing but
`RD`, the consumer's latches and the response changes. -/
def Obligations.PopReturnsOldest : Prop :=
  ∀ s : State, s.cseq = .idle →
    (s.wr ≠ s.rd →
      ∃ t v, exec .pop s = .next t ∧
        agentRun .consumer 2 t = .next { s with
          rd := (s.rd + 1) % s.cfg.cap, cW := s.wr, cR := s.rd, cV := v, cLoop := false
          cOut := s.cOut ++ [popped v], draw := s.draw + 3 } ∧
        ∀ x, s.buf.read s.rd = some x → v = x) ∧
    (s.wr = s.rd →
      ∃ t, exec .pop s = .next t ∧
        agentRun .consumer 1 t = .next { s with
          cW := s.wr, cR := s.rd, cLoop := false
          cOut := s.cOut ++ [okFlag false], draw := s.draw + 2 })

/-- R24: the occupancy is below `C`; empty and full are its ends; the live samples are that many, every one of them written;
and a turn of an agent changes an index by one modulo `C`, or to 0 if it is a successful INIT. -/
def Obligations.RingInvariant : Prop :=
  ∀ s : State, Inv s →
    liveCount s < s.cfg.cap ∧
    (flagEmpty s = true ↔ liveCount s = 0) ∧
    (flagFull s = true ↔ liveCount s = s.cfg.cap - 1) ∧
    (∃ xs : List Sample, xs.length = liveCount s ∧ live s = xs.map some) ∧
    ∀ a t, agentStep a s = .next t →
      (a = .consumer ∧ takesInit s → t.wr = 0 ∧ t.rd = 0) ∧
      (¬ (a = .consumer ∧ takesInit s) →
        (t.wr = s.wr ∨ t.wr = (s.wr + 1) % s.cfg.cap) ∧ (t.rd = s.rd ∨ t.rd = (s.rd + 1) % s.cfg.cap))

/-- R77 (a), (b), (c): the ring is a queue. A successful PUSH enters its sample at P_PUBLISH, a successful POP takes the
oldest one at C_PUBLISH and holds exactly it, a successful INIT empties the queue, and no other micro-step changes it. -/
def Obligations.RingIsQueue : Prop :=
  ∀ s t : State, Inv s →
    (agentStep .producer s = .next t →
      live t = live s ++ (if s.pseq = .publish then [some s.pS] else [])) ∧
    (agentStep .consumer s = .next t →
      if s.cseq = .publish then live s = some s.cV :: live t
      else (takesInit s → live t = []) ∧ (¬ takesInit s → live t = live s))

/-- R125, R126: PUSHes into an empty ring with no POP in between accept the first `C-1` samples and refuse and count the
rest; the accepted ones are live in push order. -/
def Obligations.CountingLaw : Prop :=
  ∀ (s : State) (xs : List Sample), Inv s → s.pseq = .idle → s.pIn = [] → live s = [] →
    (∀ x ∈ xs, sampleFits s.cfg x = true) →
    ∃ t, commandRun .producer 2 (xs.map Instr.push) s = .next t ∧
      live t = (xs.take (s.cfg.cap - 1)).map some ∧
      t.pOut = s.pOut ++ List.replicate (min xs.length (s.cfg.cap - 1)) (okFlag true)
        ++ List.replicate (xs.length - (s.cfg.cap - 1)) (okFlag false) ∧
      t.dropcnt = (s.dropcnt + (xs.length - (s.cfg.cap - 1))) % 2 ^ s.cfg.dropBits

/-- R126: POPs return the live samples in push order, then none. -/
def Obligations.FifoLaw : Prop :=
  ∀ (s : State) (xs : List Sample) (m : Nat), Inv s → s.cseq = .idle → s.cIn = [] → live s = xs.map some →
    ∃ t, commandRun .consumer 2 (List.replicate m Instr.pop) s = .next t ∧
      t.cOut = s.cOut ++ (xs.take m).map popped ++ List.replicate (m - xs.length) (okFlag false) ∧
      live t = (xs.drop m).map some

/-- R20, R66, R239: a turn of the producer writes nothing but `BUF` slots, `WR`, `DROPCNT`, its own sequencer and latches,
and its own port. -/
def Obligations.ProducerRights : Prop :=
  ∀ s t : State, agentStep .producer s = .next t →
    t = { s with
      buf := t.buf, wr := t.wr, dropcnt := t.dropcnt, pseq := t.pseq, pS := t.pS, pW := t.pW, pR := t.pR
      pIn := t.pIn, pOut := t.pOut, draw := t.draw }

/-- R20, R66, R122, R239: a turn of the consumer writes no `BUF` slot and nothing of the producer's, and `WR` and `DROPCNT`
only in a successful INIT, which sets them and `RD` to 0 while the producer is idle. -/
def Obligations.ConsumerRights : Prop :=
  ∀ s t : State, agentStep .consumer s = .next t →
    t.cfg = s.cfg ∧ t.buf = s.buf ∧ t.pseq = s.pseq ∧ t.pS = s.pS ∧ t.pW = s.pW ∧ t.pR = s.pR ∧
    t.pIn = s.pIn ∧ t.pOut = s.pOut ∧ t.sched = s.sched ∧ t.turn = s.turn ∧
    (¬ takesInit s → t.wr = s.wr ∧ t.dropcnt = s.dropcnt) ∧
    (takesInit s → t.wr = 0 ∧ t.rd = 0 ∧ t.dropcnt = 0 ∧ t.phase = .configured)

/-- R74, R163: PUSH and TICK finish in at most three micro-steps of the producer whatever the consumer does: accepting one
leaves at most two to go, every later turn of the producer brings the end nearer, and no turn of the consumer touches
the producer's sequencer. -/
def Obligations.ProducerWaitFree : Prop :=
  ∀ s t : State,
    (∀ x, s.pseq = .idle → (exec (.push x) s = .next t ∨ exec (.tick x) s = .next t) → producerRank t.pseq ≤ 2) ∧
    (s.pseq ≠ .idle → ∃ u, agentStep .producer s = .next u ∧ producerRank u.pseq < producerRank s.pseq) ∧
    (agentStep .consumer s = .next t → producerRank t.pseq = producerRank s.pseq)

/-! ## Sampler and lifecycle -/

/-- R160: START in each phase. -/
def Obligations.StartEffect : Prop :=
  encode .start = [0x11000000#32] ∧ portOf .start = .consumer ∧
  ∀ s : State, s.cseq = .idle →
    ∃ d, exec .start s = .next
      (match s.phase with
       | .idle =>
         { s with
           cOut := s.cOut ++ [{ status := .usageError, flag := false, value := 0#24, payload := [] }]
           draw := d }
       | .configured =>
         { s with
           phase := .running, signals := s.signals ++ [.timerArm s.cfg.fs]
           cOut := s.cOut ++ [okFlag false], draw := d }
       | .running => { s with cOut := s.cOut ++ [okFlag false], draw := d })

/-- R161: STOP in each phase, the producer idle; a second STOP changes nothing but the port ("Idempotent stop"). -/
def Obligations.StopEffect : Prop :=
  ∀ s : State, s.cseq = .idle → s.pseq = .idle →
    exec .stop s = .next
      (match s.phase with
       | .running =>
         { s with
           phase := .configured, signals := s.signals ++ [.timerDisarm]
           cOut := s.cOut ++ [okFlag false], draw := s.draw + 1 }
       | .configured => { s with cOut := s.cOut ++ [okFlag false], draw := s.draw + 1 }
       | .idle => { s with cOut := s.cOut ++ [okFlag false], draw := s.draw + 1 }) ∧
    ∀ t, exec .stop s = .next t →
      exec .stop t = .next { t with cOut := s.cOut ++ [okFlag false, okFlag false], draw := s.draw + 2 }

/-- R71, R161, R200, R267: while a PUSH or TICK is in progress, an INIT or STOP next in line is not taken: the turn passes,
and the command stays at the port. That `exec` of such a command answers the unchanged state is the model's form of the wait
(log 15). -/
def Obligations.HeldForProducer : Prop :=
  ∀ (s : State) (cmd rest : List Word) (i : Instr), s.pseq ≠ .idle → s.cseq = .idle →
    fetchCommand s.cIn = some (cmd, rest) → decode s.cfg .consumer cmd = .ok i →
    ((∃ pin strat f0bits, i = .init pin strat f0bits) ∨ i = .stop) →
    agentStep .consumer s = .next s ∧ exec i s = .next s

/-- R161 corner (a), R267: once the block is not Running and the producer is idle, TICKs write nothing: a turn of a producer
that has nothing but TICK commands waiting changes no slot, no index and no drop count, and that stays so. -/
def Obligations.StoppedTicksWriteNothing : Prop :=
  ∀ s t : State, s.phase ≠ .running → s.pseq = .idle → (∀ w ∈ s.pIn, opcode w = 0x04#8) →
    agentStep .producer s = .next t →
    t.buf = s.buf ∧ t.wr = s.wr ∧ t.rd = s.rd ∧ t.dropcnt = s.dropcnt ∧
    t.phase ≠ .running ∧ t.pseq = .idle ∧ ∀ w ∈ t.pIn, opcode w = 0x04#8

/-- R164: the lifecycle state machine. From idle agents, each command leaves the phase, and answers the status, that the
table's cell says: an INIT whose checks pass restarts the session and disarms a running timer, one whose checks fail keeps
it; a no-op changes nothing; a TICK pushes in Running and is ignored elsewhere. Of an INIT that selects a strategy the
instance was built without, `InitFails` speaks. -/
def Obligations.LifecycleTable : Prop :=
  ∀ (s t : State) (i : Instr), s.cseq = .idle → s.pseq = .idle → exec i s = .next t →
    match i with
    | .init _ strat f0bits =>
      ((initParams s.cfg strat f0bits).isSome = true → builtIn s.cfg strat = true →
        t.phase = .configured ∧ (t.cOut.map (·.status)).getLast? = some .ok ∧
        t.wr = 0 ∧ t.rd = 0 ∧ t.n = 0 ∧ t.rvalid = false ∧
        (s.phase = .running → Signal.timerDisarm ∈ t.signals.drop s.signals.length)) ∧
      (initParams s.cfg strat f0bits = none →
        t = { s with cOut := t.cOut, draw := t.draw } ∧ (t.cOut.map (·.status)).getLast? = some .configError)
    | .start =>
      match s.phase with
      | .idle => t = { s with cOut := t.cOut, draw := t.draw } ∧ (t.cOut.map (·.status)).getLast? = some .usageError
      | .configured => t.phase = .running ∧ (t.cOut.map (·.status)).getLast? = some .ok
      | .running => t = { s with cOut := t.cOut, draw := t.draw } ∧ (t.cOut.map (·.status)).getLast? = some .ok
    | .stop =>
      (t.cOut.map (·.status)).getLast? = some .ok ∧
      (s.phase = .running → t.phase = .configured) ∧
      (s.phase ≠ .running → t = { s with cOut := t.cOut, draw := t.draw })
    | .loop =>
      t.phase = s.phase ∧ (s.phase = .idle → (t.cOut.map (·.status)).getLast? = some .usageError) ∧
        (s.phase ≠ .idle → t.cOut = s.cOut ∧ t.cseq = .load)
    | .consume _ =>
      t.phase = s.phase ∧ (t.cOut.map (·.status)).getLast? = some (if s.phase = .idle then .usageError else .ok)
    | .push _ => t.phase = s.phase ∧ t.pOut = s.pOut ∧ t.pseq = .write
    | .tick x =>
      t.phase = s.phase ∧ (s.phase = .running → exec (.push x) s = .next t) ∧
        (s.phase ≠ .running →
          t = { s with pOut := t.pOut, draw := t.draw } ∧ (t.pOut.map (·.status)).getLast? = some .ok)
    | .pop => t.phase = s.phase ∧ t.cOut = s.cOut ∧ t.cseq = .read
    | .rdreg r => t.phase = s.phase ∧ (legalReg r = true → (t.cOut.map (·.status)).getLast? = some .ok)

/-- R34, R164, R240: over every turn of an agent, the phase and the signals move together: the timer is armed exactly on the
way to Running and disarmed exactly on the way out, `adc_config` goes with an INIT, and no turn leads back to Idle. -/
def Obligations.PhaseAndSignals : Prop :=
  ∀ (s t : State) (a : Agent), agentStep a s = .next t →
    (t.phase = s.phase ∧ t.signals = s.signals) ∨
    (s.phase ≠ .running ∧ t.phase = .configured ∧ ∃ pin, t.signals = s.signals ++ [.adcConfig pin s.cfg.sampleBits]) ∨
    (s.phase = .configured ∧ t.phase = .running ∧ t.signals = s.signals ++ [.timerArm s.cfg.fs]) ∨
    (s.phase = .running ∧ t.phase = .configured ∧
      (t.signals = s.signals ++ [.timerDisarm] ∨
        ∃ pin, t.signals = s.signals ++ [.timerDisarm, .adcConfig pin s.cfg.sampleBits]))

/-! ## Trig source and demodulator -/

/-- R142, R143, R141: in the table strategy SINE is the table at `n mod L`, COSINE the table at `(n + L div 4) mod L`, and
an entry `k` is `sin(2πk/L)`. -/
def Obligations.TableTrig : Prop :=
  ∀ (s : State) (n : Nat), Inv s → s.phase ≠ .idle → s.strat = .table →
    s.table.read (n % s.len) = some (sine s n) ∧
    s.table.read ((n + s.len / 4) % s.len) = some (cosine s n) ∧
    (sine s n).toReal = Real.sin (2 * Real.pi * ((n % s.len : ℕ) : ℝ) / s.len) ∧
    (cosine s n).toReal = Real.sin (2 * Real.pi * (((n + s.len / 4) % s.len : ℕ) : ℝ) / s.len)

/-- R144: the direct strategy. -/
def Obligations.DirectTrig : Prop :=
  ∀ (s : State) (n : Nat), s.strat = .direct →
    (sine s n).toReal = Real.sin (2 * Real.pi * s.f0.toReal * n / s.cfg.fs) ∧
    (cosine s n).toReal = Real.cos (2 * Real.pi * s.f0.toReal * n / s.cfg.fs)

/-- R145: two blocks configured alike but for the strategy have the same sine and the same cosine at every index exactly
when `FS / F0` is an integer divisible by 4. -/
def Obligations.StrategiesAgree : Prop :=
  ∀ s t : State, Inv s → s.phase ≠ .idle → s.strat = .table →
    t.strat = .direct → t.cfg = s.cfg → t.f0.toReal = s.f0.toReal →
    ((∀ n, (sine s n).toReal = (sine t n).toReal ∧ (cosine s n).toReal = (cosine t n).toReal) ↔
      ∃ m : ℕ, (s.cfg.fs : ℝ) / s.f0.toReal = (4 * m : ℕ))

/-- R146: the quarter-period cosine lags by `π·(L mod 4) / (2L)`, and QBIAS says whether it does. -/
def Obligations.QuarterPeriodBias : Prop :=
  ∀ (s : State) (n : Nat), Inv s → s.phase ≠ .idle → s.strat = .table →
    (cosine s n).toReal =
      Real.cos (2 * Real.pi * n / s.len - Real.pi * ((s.len % 4 : ℕ) : ℝ) / (2 * s.len)) ∧
    (flagQbias s = true ↔ Real.pi * ((s.len % 4 : ℕ) : ℝ) / (2 * s.len) ≠ 0)

/-- R147: the table strategy demodulates at `FS / L`, which is at least `F0`, and equals it only when `F0` divides `FS`. -/
def Obligations.TableFrequency : Prop :=
  ∀ (s : State) (n : Nat), Inv s → s.phase ≠ .idle → s.strat = .table →
    (sine s n).toReal = Real.sin (2 * Real.pi * ((s.cfg.fs : ℝ) / s.len) * n / s.cfg.fs) ∧
    s.f0.toReal ≤ (s.cfg.fs : ℝ) / s.len ∧
    (s.f0.toReal = (s.cfg.fs : ℝ) / s.len ↔ ∃ m : ℕ, (s.cfg.fs : ℝ) = m * s.f0.toReal)

/-- R180, R181: CONSUME in a configured block inside a window, and at the end of one; in phase Idle it is a usage error with
no state change. -/
def Obligations.ConsumeEffect : Prop :=
  ∀ (s : State) (x : Sample), s.cseq = .idle →
    encode (.consume x) = [0x03#8 ++ x] ∧ portOf (.consume x) = .consumer ∧
    (s.phase = .idle →
      ∃ d, exec (.consume x) s = .next { s with
        cOut := s.cOut ++ [{ status := .usageError, flag := false, value := 0#24, payload := [] }]
        draw := d }) ∧
    (s.phase ≠ .idle → s.n + 1 ≠ s.cfg.window →
      ∃ t, exec (.consume x) s = .next t ∧
        t = { s with
          sumI := t.sumI, sumQ := t.sumQ, n := s.n + 1, cOut := s.cOut ++ [okFlag false], draw := t.draw } ∧
        t.sumI.toReal = s.sumI.toReal + x.toNat * (cosine s s.n).toReal ∧
        t.sumQ.toReal = s.sumQ.toReal + x.toNat * (sine s s.n).toReal) ∧
    (s.phase ≠ .idle → s.n + 1 = s.cfg.window →
      ∃ t, exec (.consume x) s = .next t ∧
        t = { s with
          sumI := t.sumI, sumQ := t.sumQ, n := 0, angle := t.angle, ampl := t.ampl, rvalid := true
          cOut := s.cOut ++ [okFlag true], draw := t.draw } ∧
        t.sumI.toReal = 0 ∧ t.sumQ.toReal = 0 ∧
        t.angle.toReal =
          atan2Real (s.sumI.toReal + x.toNat * (cosine s s.n).toReal)
            (s.sumQ.toReal + x.toNat * (sine s s.n).toReal) * 180 / Real.pi ∧
        t.ampl.toReal =
          hypotReal (s.sumI.toReal + x.toNat * (cosine s s.n).toReal)
            (s.sumQ.toReal + x.toNat * (sine s s.n).toReal) / s.cfg.window)

/-- R181: of consecutive CONSUMEs exactly those that bring the count of the session to a multiple of `W` report ready. -/
def Obligations.ReadyEveryWindow : Prop :=
  ∀ (s : State) (xs : List Sample), Inv s → s.cseq = .idle → s.phase ≠ .idle →
    ∃ t, commandRun .consumer 0 (xs.map Instr.consume) s = .next t ∧
      t.n = (s.n + xs.length) % s.cfg.window ∧
      t.cOut = s.cOut ++ (List.range xs.length).map (fun k => okFlag (decide ((s.n + k + 1) % s.cfg.window = 0)))

/-- R7: what `atan2` is, for points other than the origin, and that nothing else is. -/
def Obligations.Atan2Defined : Prop :=
  ∀ y x : ℝ, (y ≠ 0 ∨ x ≠ 0) →
    (-Real.pi < atan2Real y x ∧ atan2Real y x ≤ Real.pi ∧
      y = hypotReal y x * Real.sin (atan2Real y x) ∧ x = hypotReal y x * Real.cos (atan2Real y x)) ∧
    ∀ t, -Real.pi < t → t ≤ Real.pi → y = hypotReal y x * Real.sin t → x = hypotReal y x * Real.cos t →
      t = atan2Real y x

/-- R182: the `ANGLE` a completed window leaves: its formula, its range, and the four axes. -/
def Obligations.AngleConvention : Prop :=
  ∀ s : State,
    (completeWindow s).angle.toReal = atan2Real s.sumI.toReal s.sumQ.toReal * 180 / Real.pi ∧
    -180 < (completeWindow s).angle.toReal ∧ (completeWindow s).angle.toReal ≤ 180 ∧
    (s.sumI.toReal = 0 → 0 < s.sumQ.toReal → (completeWindow s).angle.toReal = 0) ∧
    (0 < s.sumI.toReal → s.sumQ.toReal = 0 → (completeWindow s).angle.toReal = 90) ∧
    (s.sumI.toReal = 0 → s.sumQ.toReal < 0 → (completeWindow s).angle.toReal = 180) ∧
    (s.sumI.toReal < 0 → s.sumQ.toReal = 0 → (completeWindow s).angle.toReal = -90)

/-- R184: both sums zero at completion. -/
def Obligations.ZeroSums : Prop :=
  ∀ (s : State) (x : Sample), s.cseq = .idle → s.phase ≠ .idle → s.n + 1 = s.cfg.window →
    s.sumI.toReal + x.toNat * (cosine s s.n).toReal = 0 → s.sumQ.toReal + x.toNat * (sine s s.n).toReal = 0 →
    ∃ t, exec (.consume x) s = .next t ∧ t.angle.toReal = 0 ∧ t.ampl.toReal = 0 ∧ t.rvalid = true

/-- R180 to R183, R186 (e): a whole window of the direct strategy is one bin of a discrete Fourier transform. -/
def Obligations.WindowIsFourierBin : Prop :=
  ∀ (s : State) (xs : List Sample), Inv s → s.cseq = .idle → s.phase ≠ .idle → s.strat = .direct →
    s.n = 0 → s.sumI.toReal = 0 → s.sumQ.toReal = 0 → xs.length = s.cfg.window →
    ∃ t, commandRun .consumer 0 (xs.map Instr.consume) s = .next t ∧ t.rvalid = true ∧ t.n = 0 ∧
      t.sumI.toReal = 0 ∧ t.sumQ.toReal = 0 ∧
      t.angle.toReal =
        atan2Real
          (∑ k : Fin xs.length, ((xs.get k).toNat : ℝ) * Real.cos (2 * Real.pi * s.f0.toReal * (k : ℕ) / s.cfg.fs))
          (∑ k : Fin xs.length, ((xs.get k).toNat : ℝ) * Real.sin (2 * Real.pi * s.f0.toReal * (k : ℕ) / s.cfg.fs))
          * 180 / Real.pi ∧
      t.ampl.toReal =
        hypotReal
          (∑ k : Fin xs.length, ((xs.get k).toNat : ℝ) * Real.cos (2 * Real.pi * s.f0.toReal * (k : ℕ) / s.cfg.fs))
          (∑ k : Fin xs.length, ((xs.get k).toNat : ℝ) * Real.sin (2 * Real.pi * s.f0.toReal * (k : ℕ) / s.cfg.fs))
          / s.cfg.window

/-- R184, R185: a constant input over a whole number of reference cycles, in either strategy, contributes nothing: the window
reports angle and amplitude 0. -/
def Obligations.ConstantInputRejected : Prop :=
  ∀ (s : State) (d : Sample) (f : ℕ), Inv s → s.cseq = .idle → s.phase ≠ .idle → wholeCycles s f →
    s.n = 0 → s.sumI.toReal = 0 → s.sumQ.toReal = 0 → ¬ s.cfg.window ∣ f →
    ∃ t, commandRun .consumer 0 (List.replicate s.cfg.window (Instr.consume d)) s = .next t ∧
      t.rvalid = true ∧ t.angle.toReal = 0 ∧ t.ampl.toReal = 0

/-- R185: what the result means. When the reference makes `f` whole turns in a window, `2f` no multiple of `W` (in the direct
strategy `F0 = f` Hz, in the table strategy `f = W / L`, `L` dividing `W` and divisible by 4), a window of samples equal to
`d + a·sin(θ_n + φ)` reports the amplitude `a/2` and the angle `φ`, in degrees. -/
def Obligations.SinusoidMeasured : Prop :=
  ∀ (s : State) (xs : List Sample) (f : ℕ) (d a φ : ℝ), Inv s → s.cseq = .idle → s.phase ≠ .idle → wholeCycles s f →
    s.n = 0 → s.sumI.toReal = 0 → s.sumQ.toReal = 0 → ¬ s.cfg.window ∣ 2 * f →
    0 < a → -Real.pi < φ → φ ≤ Real.pi → xs.length = s.cfg.window →
    (∀ k : Fin xs.length, ((xs.get k).toNat : ℝ) = d + a * Real.sin (2 * Real.pi * f * (k : ℕ) / s.cfg.window + φ)) →
    ∃ t, commandRun .consumer 0 (xs.map Instr.consume) s = .next t ∧
      t.rvalid = true ∧ t.angle.toReal = φ * 180 / Real.pi ∧ t.ampl.toReal = a / 2

/-- R5, R187: the reference number system, the exact reals, meets the tolerances V1 to V3 ask of a `NUM`, with no slack at
all for angles that are 0. How the tolerances are put as a predicate is the model's choice (log 29). -/
def Obligations.TolerancesMet : Prop :=
  ∀ band : ℝ, 0 ≤ band → NumSys.real.MeetsTolerances Config.freeReal id band

/-! ## Controller -/

/-- R200 step 1, R231, R13 (f): INIT's operands fail exactly when the frequency is invalid or not positive, or, in the table
strategy, `floor(FS / f0)` is outside `LMIN .. LMAX`; otherwise the new `L` is that floor, or 0 in the direct strategy. -/
def Obligations.InitChecks : Prop :=
  ∀ (c : Config) (f0bits : Word),
    (initParams c .direct f0bits = none ↔ ∀ q, decNum f0bits = some q → q.toReal ≤ 0) ∧
    (initParams c .table f0bits = none ↔
      ∀ q, decNum f0bits = some q →
        q.toReal ≤ 0 ∨ ⌊(c.fs : ℝ) / q.toReal⌋ < 4 ∨ (c.lmax : ℤ) < ⌊(c.fs : ℝ) / q.toReal⌋) ∧
    ∀ strat q l, initParams c strat f0bits = some (q, l) →
      decNum f0bits = some q ∧ 0 < q.toReal ∧ q.toNum.toReal = q.toReal ∧
      (l : ℤ) = (match strat with | .table => ⌊(c.fs : ℝ) / q.toReal⌋ | .direct => 0)

/-- R200, R122, R141: a successful INIT. -/
def Obligations.InitEffect : Prop :=
  ∀ (s : State) (pin : PinId) (strat : Strategy) (f0bits : Word) (q : Ratio) (l : Nat),
    s.cseq = .idle → s.pseq = .idle → builtIn s.cfg strat = true → initParams s.cfg strat f0bits = some (q, l) →
    ∃ t, exec (.init pin strat f0bits) s = .next t ∧
      t = { s with
        pin := pin, f0 := q.toNum, strat := strat, len := l, table := t.table, wr := 0, rd := 0
        sumI := NumExpr.zero, sumQ := NumExpr.zero, n := 0, rvalid := false, dropcnt := 0, phase := .configured
        signals := s.signals ++ (if s.phase = .running then [.timerDisarm] else []) ++ [.adcConfig pin s.cfg.sampleBits]
        cOut := s.cOut ++ [okFlag false], draw := s.draw + 1 } ∧
      (strat = .direct → t.table = s.table) ∧
      (strat = .table →
        ∀ k, (k < l → ∃ e, t.table.read k = some e ∧ e.toReal = Real.sin (2 * Real.pi * k / l)) ∧
          (l ≤ k → t.table.read k = s.table.read k))

/-- R200, R231: a failing INIT changes nothing at all, whatever strategies the instance has. An INIT whose checks pass but
whose strategy the instance was built without answers one of the two errors INIT can answer, nobody knows which, and changes
nothing: the model's choice (log 11). -/
def Obligations.InitFails : Prop :=
  ∀ (s : State) (pin : PinId) (strat : Strategy) (f0bits : Word), s.cseq = .idle → s.pseq = .idle →
    (initParams s.cfg strat f0bits = none →
      exec (.init pin strat f0bits) s = .next { s with
        cOut := s.cOut ++ [{ status := .configError, flag := false, value := 0#24, payload := [] }]
        draw := s.draw + 1 }) ∧
    ((initParams s.cfg strat f0bits).isSome = true → builtIn s.cfg strat = false →
      ∃ e, (e = .configError ∨ e = .illegalCommand) ∧
        exec (.init pin strat f0bits) s = .next { s with
          cOut := s.cOut ++ [{ status := e, flag := false, value := 0#24, payload := [] }]
          draw := s.draw + 1 })

/-- R231: which commands answer CONFIG_ERROR, and when; such a command changes nothing. Only an INIT does, and it does when
its operand checks fail; with the strategy it selects built in, it does in no other case. That an INIT whose checks pass
may answer CONFIG_ERROR on an instance built without the strategy it selects is the model's choice (log 11). -/
def Obligations.ConfigErrorExactly : Prop :=
  ∀ (s t : State) (i : Instr), s.cseq = .idle → s.pseq = .idle → exec i s = .next t →
    let fails := ∃ pin strat f0bits, i = .init pin strat f0bits ∧
      ∀ q, decNum f0bits = some q →
        q.toReal ≤ 0 ∨ strat = .table ∧
          (⌊(s.cfg.fs : ℝ) / q.toReal⌋ < 4 ∨ (s.cfg.lmax : ℤ) < ⌊(s.cfg.fs : ℝ) / q.toReal⌋)
    let answered :=
      t.cOut = s.cOut ++ [{ status := .configError, flag := false, value := 0#24, payload := [] }] ∨
        t.pOut = s.pOut ++ [{ status := .configError, flag := false, value := 0#24, payload := [] }]
    (answered → ∃ pin strat f0bits, i = .init pin strat f0bits ∧ (builtIn s.cfg strat = true → fails)) ∧
    (fails → t = { s with
      cOut := s.cOut ++ [{ status := .configError, flag := false, value := 0#24, payload := [] }], draw := t.draw })

/-- R201: LOOP's entry, its micro-steps L_CONSUME and L_DONE, and its error in phase Idle. -/
def Obligations.LoopMicroSteps : Prop :=
  ∀ s : State,
    (s.cseq = .idle → s.phase = .idle →
      exec .loop s = .next { s with
        cOut := s.cOut ++ [{ status := .usageError, flag := false, value := 0#24, payload := [] }]
        draw := s.draw + 1 }) ∧
    (s.cseq = .idle → s.phase ≠ .idle →
      exec .loop s = .next { s with cGot := false, cLoop := true, cseq := .load, draw := s.draw + 1 }) ∧
    (s.cseq = .consume → s.phase ≠ .idle →
      ∃ t u, agentStep .consumer s = .next t ∧ exec (.consume s.cV) { s with cseq := .idle } = .next u ∧
        t = { u with
          cseq := .load, cGot := s.cGot || decide (s.n + 1 = s.cfg.window), cOut := s.cOut, draw := s.draw + 1 }) ∧
    (s.cseq = .done →
      agentStep .consumer s = .next { s with
        cLoop := false, cseq := .idle, draw := s.draw + 1
        cOut := s.cOut ++
          [{ status := .ok, flag := s.cGot, value := 0#24
             payload := if s.cGot then [.num s.angle, .num s.ampl] else [.word 0#32, .word 0#32] }] })

/-- R201, R207: with the producer not moving, LOOP on a ring holding `xs` has the effect on the demodulator of CONSUMEs of
`xs` in order, leaves the ring empty, and reports the latest result exactly when one of those CONSUMEs reports ready. -/
def Obligations.LoopIsConsumes : Prop :=
  ∀ (s : State) (xs : List Sample), Inv s → s.cseq = .idle → s.phase ≠ .idle → live s = xs.map some →
    ∃ (t u v : State) (flags : List Bool), exec .loop s = .next t ∧ agentRun .consumer (4 * xs.length + 3) t = .next u ∧
      commandRun .consumer 0 (xs.map Instr.consume) s = .next v ∧
      v.cOut = s.cOut ++ flags.map okFlag ∧
      u = { s with
        rd := s.wr, sumI := v.sumI, sumQ := v.sumQ, n := v.n, angle := v.angle, ampl := v.ampl, rvalid := v.rvalid
        cW := u.cW, cR := u.cR, cV := u.cV, cGot := flags.any id, cLoop := false, draw := u.draw
        cOut := s.cOut ++
          [{ status := .ok, flag := flags.any id, value := 0#24
             payload := if flags.any id then [.num v.angle, .num v.ampl] else [.word 0#32, .word 0#32] }] }

/-- R266, R201: LOOP on endless schedules, and the rate premise under which it ends. (1) Every endless schedule has a run:
each state comes from the one before by `step`. (2) If, between two samples the producer takes, the consumer takes five
micro-steps, one more than an iteration of LOOP has, then a LOOP in progress ends, or the reset input ends it, by the time the
consumer has had `20·(C + 3)` turns, whatever else the schedule holds. (3) With four, the least R266 asks for, it need not:
on the schedule of one TICK and one iteration in turn LOOP never ends and is never answered. What counts as a sample and as
a micro-step in the premise is the model's choice (log 30), and so is the schedule as the form of the interleaving
(log 7). -/
def Obligations.LoopTermination : Prop :=
  (∀ (e : Nat → Option Turn) (s : State) (k : Nat),
    ∃ t, step (runOn e s k) = .next t ∧ runOn e s (k + 1) = { t with sched := (e (k + 1)).toList }) ∧
  (∀ (e : Nat → Option Turn) (s : State) (k : Nat), Inv s → s.cseq ≠ .idle → s.cLoop = true → paced 5 (runOn e s) k →
    20 * (s.cfg.cap + 3) ≤ countSteps (fun t => decide (turnOf t = some .consumer)) (runOn e s) 0 k →
    ∃ j, j ≤ k ∧ (runOn e s j).cseq = .idle) ∧
  ∀ s : State, Inv s → s.phase = .running → s.pseq = .idle → s.pIn = [] → s.cseq = .load →
    0 < liveCount s → liveCount s + 1 < s.cfg.cap →
    ∀ k, paced 4 (runOn fullRate s) k ∧ (runOn fullRate s k).cseq ≠ .idle ∧ (runOn fullRate s k).cLoop = true ∧
      (runOn fullRate s k).cOut = s.cOut ∧ liveCount (runOn fullRate s (8 * k)) = liveCount s

/-- R39, R64, R202: what RDREG returns for every register, that it changes nothing but the port, and that repeating it with
no step in between returns the same, unspecified values included. `F0` and `PIN` in phase Idle, `ANGLE` and `AMPL` while
`RVALID = 0`, and an integer register that needs more than 32 bits (log 3), return a word of which nothing else is said. A
reserved number is an illegal command (R98 (d)). -/
def Obligations.RdregReads : Prop :=
  ∀ (s : State) (r : RegNo), s.cseq = .idle →
    (legalReg r = false →
      exec (.rdreg r) s = .next { s with
        cOut := s.cOut ++ [{ status := .illegalCommand, flag := false, value := 0#24, payload := [] }]
        draw := s.draw + 1 }) ∧
    (legalReg r = true →
      ∃ t p, exec (.rdreg r) s = .next t ∧
      t = { s with cOut := s.cOut ++ [{ status := .ok, flag := false, value := 0#24, payload := [p] }] } ∧
      exec (.rdreg r) t = .next { t with
        cOut := t.cOut ++ [{ status := .ok, flag := false, value := 0#24, payload := [p] }] } ∧
      (r = 0x00#8 → p = .word (statusWord s)) ∧
      (r = 0x01#8 → s.wr < 2 ^ 32 → p = .word (BitVec.ofNat 32 s.wr)) ∧
      (r = 0x02#8 → s.rd < 2 ^ 32 → p = .word (BitVec.ofNat 32 s.rd)) ∧
      (r = 0x03#8 → s.n < 2 ^ 32 → p = .word (BitVec.ofNat 32 s.n)) ∧
      (r = 0x04#8 → s.len < 2 ^ 32 → p = .word (BitVec.ofNat 32 s.len)) ∧
      (r = 0x05#8 → s.phase ≠ .idle → p = .word (s.pin.setWidth 32)) ∧
      (r = 0x06#8 → s.dropcnt < 2 ^ 32 → p = .word (BitVec.ofNat 32 s.dropcnt)) ∧
      (r = 0x08#8 → s.phase ≠ .idle → p = .num s.f0) ∧
      (r = 0x09#8 → p = .num s.sumI) ∧
      (r = 0x0A#8 → p = .num s.sumQ) ∧
      (r = 0x0B#8 → s.rvalid = true → p = .num s.angle) ∧
      (r = 0x0C#8 → s.rvalid = true → p = .num s.ampl))

/-- R38: STATUS is assembled at the instant RDREG reads it, field by field from the state. -/
def Obligations.StatusFields : Prop :=
  ∀ s : State,
    (s.cseq = .idle →
      exec (.rdreg 0x00#8) s = .next { s with
        cOut := s.cOut ++
          [{ status := .ok, flag := false, value := 0#24, payload := [.word (statusWord s)] }] }) ∧
    (statusWord s).extractLsb' 0 2 =
      (match s.phase with | .idle => 0#2 | .configured => 1#2 | .running => 2#2) ∧
    ((statusWord s).getLsbD 2 = true ↔ s.phase ≠ .idle ∧ s.strat = .direct) ∧
    ((statusWord s).getLsbD 3 = true ↔ s.phase ≠ .idle ∧ s.strat = .table ∧ s.len % 4 ≠ 0) ∧
    ((statusWord s).getLsbD 4 = true ↔ s.wr = s.rd) ∧
    ((statusWord s).getLsbD 5 = true ↔ (s.wr + 1) % s.cfg.cap = s.rd) ∧
    ((statusWord s).getLsbD 6 = s.rvalid) ∧
    (statusWord s).extractLsb' 7 25 = 0#25

/-- R232: which commands answer USAGE_ERROR, and when. -/
def Obligations.UsageErrorExactly : Prop :=
  ∀ (s t : State) (i : Instr), s.cseq = .idle → s.pseq = .idle → exec i s = .next t →
    ((t.cOut = s.cOut ++ [{ status := .usageError, flag := false, value := 0#24, payload := [] }] ∨
        t.pOut = s.pOut ++ [{ status := .usageError, flag := false, value := 0#24, payload := [] }]) ↔
      s.phase = .idle ∧ (i = .start ∨ i = .loop ∨ ∃ x, i = .consume x)) ∧
    (s.phase = .idle → (i = .start ∨ i = .loop ∨ ∃ x, i = .consume x) →
      t = { s with cOut := t.cOut, draw := t.draw })

/-! ## The machine -/

/-- R40, R260: the values reset leaves, of everything whose value the spec states. -/
def Obligations.ResetState : Prop :=
  State.reset.cfg =
    { fs := 5000, cap := 2048, sampleBits := 12, pinBits := 8, lmax := 5000, dropBits := 32
      hasTable := true, hasDirect := true } ∧
  ∀ c : Config,
    let s := State.resetOf c
    s.cfg = c ∧ s.phase = .idle ∧ s.wr = 0 ∧ s.rd = 0 ∧ s.n = 0 ∧ s.sumI.toReal = 0 ∧ s.sumQ.toReal = 0 ∧
    s.rvalid = false ∧ s.len = 0 ∧ s.dropcnt = 0 ∧ s.pseq = .idle ∧ s.cseq = .idle ∧ live s = []

/-- R260: a step for which the reset input is asserted accepts no command, abandons one in progress without a response, and
leaves the reset values. That the words waiting at the ports and the signals already sent stay, and that the abandoned
commands are counted, is the model's choice (log 17). -/
def Obligations.ResetTurn : Prop :=
  ∀ (s : State) (rest : List Turn), s.sched = .reset :: rest →
    ∃ t, step s = .next t ∧
      t.cfg = s.cfg ∧ t.phase = .idle ∧ t.wr = 0 ∧ t.rd = 0 ∧ t.n = 0 ∧ t.sumI.toReal = 0 ∧ t.sumQ.toReal = 0 ∧
      t.rvalid = false ∧ t.len = 0 ∧ t.dropcnt = 0 ∧ t.pseq = .idle ∧ t.cseq = .idle ∧
      t.pIn = s.pIn ∧ t.cIn = s.cIn ∧ t.pOut = s.pOut ∧ t.cOut = s.cOut ∧ t.signals = s.signals ∧ t.sched = rest ∧
      t.lost = s.lost + (if s.pseq = .idle then 0 else 1) + (if s.cseq = .idle then 0 else 1)

/-- R36, R71: a step in which the environment lets an idle agent move, with a command waiting that decodes to `i` and is not
held for the producer, takes the command's words off the port and is `exec i`. Without a schedule the same holds when
the other agent has nothing enabled. The schedule, its head naming the agent of the step, and what a step with no schedule
does are the model's form of the interleaving (log 7). -/
def Obligations.StepRunsDecoded : Prop :=
  ∀ (s : State) (cmd rest : List Word) (i : Instr),
    (s.pseq = .idle → fetchCommand s.pIn = some (cmd, rest) → decode s.cfg .producer cmd = .ok i →
      (∀ later, s.sched = .agent .producer :: later → step s = exec i { s with sched := later, pIn := rest }) ∧
      (s.sched = [] → enabled .consumer s = false → step s = exec i { s with pIn := rest })) ∧
    (s.cseq = .idle → fetchCommand s.cIn = some (cmd, rest) → decode s.cfg .consumer cmd = .ok i →
      (holdsForProducer i = true → s.pseq = .idle) →
      (∀ later, s.sched = .agent .consumer :: later → step s = exec i { s with sched := later, cIn := rest }) ∧
      (s.sched = [] → enabled .producer s = false → step s = exec i { s with cIn := rest }))

/-- R71, R236, R260: which micro-step a step is: the agent the environment names, if it has one enabled; with no schedule
one that is enabled, either of them if both are; with nothing enabled, nothing happens (R244). A step may instead be the
arrival of a word, which then waits last at its port (R41, R235). The schedule is the model's form of all this (log 7). -/
def Obligations.StepChoosesAgent : Prop :=
  ∀ s : State,
    (∀ a later, s.sched = .agent a :: later → step s = agentStep a { s with sched := later }) ∧
    (∀ w later, s.sched = .send .producer w :: later → step s = .next { s with sched := later, pIn := s.pIn ++ [w] }) ∧
    (∀ w later, s.sched = .send .consumer w :: later → step s = .next { s with sched := later, cIn := s.cIn ++ [w] }) ∧
    (s.sched = [] →
      (∀ a b, a ≠ b → enabled a s = true → enabled b s = false → step s = agentStep a s) ∧
      (enabled .producer s = true → enabled .consumer s = true →
        ∃ a, step s = agentStep a { s with turn := s.turn + 1 }) ∧
      (enabled .producer s = false → enabled .consumer s = false → step s = .next s))

/-- R206, R237: the block never stops: every step of every state of every instance answers a next state. R95, R275: and no
command is dropped: a turn of an agent keeps, at each port, the number of commands that wait, are in progress or have been
answered, and so does every step but the arrival of a word, if those the reset input abandoned are counted too. That the
commands waiting at a port outlast the reset input, and the field `lost` that counts the abandoned, are the model's
choice (log 17). -/
def Obligations.StepNeverStops : Prop :=
  ∀ s : State,
    (∃ t, step s = .next t) ∧
    (∀ a p t, agentStep a s = .next t → commandsAt p t = commandsAt p s) ∧
    ∀ t, step s = .next t → (∀ a w later, s.sched ≠ .send a w :: later) →
      commandsAt .producer t + commandsAt .consumer t + t.lost =
        commandsAt .producer s + commandsAt .consumer s + s.lost

/-- The reference instance, and every instance with legal parameters, starts in the invariant (R40). No part of `Inv` or
`NumbersOk` rests on a value that R40 leaves unspecified, but that `PIN` is one of `PIN_BITS` bits (log 1). -/
def Obligations.ResetInv : Prop :=
  Inv State.reset ∧ NumbersOk State.reset ∧ ∀ c : Config, c.wf → Inv (State.resetOf c) ∧ NumbersOk (State.resetOf c)

/-- R20 to R36, R60, R62, R77: every step keeps the invariant: indices, counters and parameters legal, memories canonical and
in range, every live sample written, the trig source that of `F0`, and the latches of commands in progress safe views of
the ring; `P_LOAD` and `L_ENTER` are never held. What the reset input leaves at the ports (log 17) and in the latches
(log 1) does not matter to it. -/
def Obligations.StepKeepsInv : Prop :=
  ∀ s t : State, Inv s → step s = .next t → Inv t

/-- R29, R32: every step keeps the bound on the sums and the ranges of a valid result, the reset input among them (R40). -/
def Obligations.StepKeepsNumbers : Prop :=
  ∀ s t : State, Inv s → NumbersOk s → step s = .next t → NumbersOk t
end

