-- ==== Sys2Proof/Laws/Encoding.lean ====
section
/-!
SUPPORT. The fields of R6 and the formats of R91 as arithmetic on numbers, and the register map's two spellings.
-/

namespace Sys2Proof

/-- A field is a quotient and a remainder (R6). -/
theorem field_toNat (w : Word) (lo len : Nat) : (field w lo len).toNat = w.toNat / 2 ^ lo % 2 ^ len := by
  simp [field, BitVec.extractLsb'_toNat, Nat.shiftRight_eq_div_pow]

theorem opcode_toNat (w : Word) : (opcode w).toNat = w.toNat / 2 ^ 24 % 2 ^ 8 := field_toNat w 24 8

/-- Appended words add up. -/
theorem append_toNat {n m : Nat} (a : BitVec n) (b : BitVec m) : (a ++ b).toNat = a.toNat * 2 ^ m + b.toNat := by
  rw [BitVec.toNat_append, ← Nat.shiftLeft_add_eq_or_of_lt b.isLt, Nat.shiftLeft_eq]

/-- Format S (R91). -/
theorem formS_toNat (o : BitVec 8) (x : Sample) : BitVec.toNat (w := 32) (o ++ x) = o.toNat * 2 ^ 24 + x.toNat :=
  append_toNat o x

/-- Format Z (R91). -/
theorem formZ_toNat (o : BitVec 8) : BitVec.toNat (w := 32) (o ++ 0#24) = o.toNat * 2 ^ 24 := by
  rw [append_toNat, BitVec.toNat_ofNat]
  omega

/-- Format R (R91). -/
theorem formR_toNat (o : BitVec 8) (r : RegNo) : BitVec.toNat (w := 32) (o ++ 0#16 ++ r) = o.toNat * 2 ^ 24 + r.toNat := by
  rw [append_toNat, append_toNat, BitVec.toNat_ofNat]
  omega

/-- The header of format I (R91). -/
theorem formI_toNat (o : BitVec 8) (b : BitVec 1) (p : PinId) :
    BitVec.toNat (w := 32) (o ++ 0#15 ++ b ++ p) = o.toNat * 2 ^ 24 + b.toNat * 2 ^ 8 + p.toNat := by
  rw [append_toNat, append_toNat, append_toNat, BitVec.toNat_ofNat]
  omega

/-! The opcode of each format (R90). -/

theorem opcode_formS (o : BitVec 8) (x : Sample) : opcode (o ++ x) = o :=
  BitVec.eq_of_toNat_eq (by rw [opcode_toNat, formS_toNat]; omega)

theorem opcode_formZ (o : BitVec 8) : opcode (o ++ 0#24) = o :=
  BitVec.eq_of_toNat_eq (by rw [opcode_toNat, formZ_toNat]; omega)

theorem opcode_formR (o : BitVec 8) (r : RegNo) : opcode (o ++ 0#16 ++ r) = o :=
  BitVec.eq_of_toNat_eq (by rw [opcode_toNat, formR_toNat]; omega)

theorem opcode_formI (o : BitVec 8) (b : BitVec 1) (p : PinId) : opcode (o ++ 0#15 ++ b ++ p) = o :=
  BitVec.eq_of_toNat_eq (by rw [opcode_toNat, formI_toNat]; omega)

/-- Bit 8 of an INIT header and the strategy it selects (R92). -/
theorem stratBit_strategyOfBit (b : BitVec 1) : stratBit (strategyOfBit b) = b := by
  revert b
  decide

theorem strategyOfBit_stratBit (s : Strategy) : strategyOfBit (stratBit s) = s := by cases s <;> rfl

/-- The register map lists exactly the legal numbers (R39). -/
theorem legalReg_eq (r : RegNo) : legalReg r = (regOfNumber r).isSome := by
  revert r
  decide

/-- What the port adds to the decoding of a command (R94, R98). -/
theorem decode_ok_iff {c : Config} {a : Agent} {cmd : List Word} {i : Instr} :
    decode c a cmd = .ok i ↔ decodeForm c cmd = .ok i ∧ portOf i = a := by
  unfold decode
  split
  · next h => simp [h]
  · next j h =>
    split
    · next p => simp only [h, Except.ok.injEq]; exact ⟨fun e => ⟨e, e ▸ p⟩, fun e => e.1⟩
    · next p => simp only [h, Except.ok.injEq, reduceCtorEq, false_iff]; exact fun e => p (e.1 ▸ e.2)

/-! A decoded command is well formed: its operands fit the instance (R92). -/

theorem decodeS_ok {c : Config} {w : Word} {mk : Sample → Instr} {i : Instr} (h : decodeS c w mk = .ok i) :
    (field w 0 24).toNat < 2 ^ c.sampleBits ∧ i = mk (field w 0 24) := by
  unfold decodeS at h
  split at h
  · next lt => exact ⟨lt, (Except.ok.inj h).symm⟩
  · cases h

theorem decodeZ_ok {w : Word} {i j : Instr} (h : decodeZ w i = .ok j) : field w 0 24 = 0#24 ∧ j = i := by
  unfold decodeZ at h
  split at h
  · next z => exact ⟨z, (Except.ok.inj h).symm⟩
  · cases h

theorem decodeR_ok {w : Word} {i : Instr} (h : decodeR w = .ok i) :
    field w 8 16 = 0#16 ∧ legalReg (field w 0 8) = true ∧ i = .rdreg (field w 0 8) := by
  unfold decodeR at h
  split at h
  · next z =>
    split at h
    · next r => exact ⟨z, (legalReg_eq _).trans r, (Except.ok.inj h).symm⟩
    · cases h
  · cases h

theorem decodeI_ok {c : Config} {w payload : Word} {i : Instr} (h : decodeI c w payload = .ok i) :
    field w 9 15 = 0#15 ∧ (field w 0 8).toNat < 2 ^ c.pinBits ∧
      i = .init (field w 0 8) (strategyOfBit (field w 8 1)) payload := by
  unfold decodeI at h
  split at h
  · next z => exact ⟨z.1, z.2, (Except.ok.inj h).symm⟩
  · cases h

theorem decodeForm_wellFormed {c : Config} {cmd : List Word} {i : Instr} (h : decodeForm c cmd = .ok i) :
    i.wellFormed c = true := by
  have sample : ∀ {w : Word}, (field w 0 24).toNat < 2 ^ c.sampleBits → sampleFits c (field w 0 24) = true :=
    fun lt => decide_eq_true lt
  unfold decodeForm at h
  split at h
  · split at h
    · obtain ⟨lt, rfl⟩ := decodeS_ok h; exact sample lt
    · obtain ⟨_, rfl⟩ := decodeZ_ok h; rfl
    · obtain ⟨lt, rfl⟩ := decodeS_ok h; exact sample lt
    · obtain ⟨lt, rfl⟩ := decodeS_ok h; exact sample lt
    · obtain ⟨_, rfl⟩ := decodeZ_ok h; rfl
    · obtain ⟨_, rfl⟩ := decodeZ_ok h; rfl
    · obtain ⟨_, rfl⟩ := decodeZ_ok h; rfl
    · obtain ⟨_, legal, rfl⟩ := decodeR_ok h; exact legal
    · cases h
    · cases h
  · split at h
    · obtain ⟨_, lt, rfl⟩ := decodeI_ok h; exact decide_eq_true lt
    · cases h
  · cases h

theorem decode_wellFormed {c : Config} {a : Agent} {cmd : List Word} {i : Instr} (h : decode c a cmd = .ok i) :
    i.wellFormed c = true := decodeForm_wellFormed (decode_ok_iff.mp h).1

/-- A mask of all bits from bit `k` on clears the bits below it. -/
theorem mask_toNat (w : Word) (k : Nat) (hk : k ≤ 32) :
    (w &&& (BitVec.allOnes 32 <<< k)).toNat = w.toNat / 2 ^ k * 2 ^ k := by
  have : (w &&& (BitVec.allOnes 32 <<< k)) = (w >>> k) <<< k := by
    ext i hi
    by_cases h : i < k
    · simp [h]
    · have e : k + (i - k) = i := by omega
      have e2 : i - k < 32 := by omega
      simp [h, e, BitVec.getElem_allOnes, BitVec.getElem_and, BitVec.getElem_shiftLeft, -BitVec.reduceAllOnes]
      exact (BitVec.getLsbD_eq_getElem hi).symm
  rw [this, BitVec.toNat_shiftLeft, BitVec.toNat_ushiftRight, Nat.shiftRight_eq_div_pow, Nat.shiftLeft_eq]
  exact Nat.mod_eq_of_lt (lt_of_le_of_lt (Nat.div_mul_le_self _ _) w.isLt)

/-- A row covers a word when the word's bits from the row's lowest fixed bit on are the pattern. -/
theorem TableRow.covers_iff {row : TableRow} {k : Nat} (hk : k ≤ 32) (h : row.mask = BitVec.allOnes 32 <<< k) (w : Word) :
    row.covers w = true ↔ w.toNat / 2 ^ k * 2 ^ k = row.pattern.toNat := by
  rw [TableRow.covers, beq_iff_eq, h, ← mask_toNat _ _ hk, BitVec.toNat_inj]

end Sys2Proof
end

