-- ==== Sys2Proof/Laws/State.lean ====
section
/-!
SUPPORT. One lemma per field for each operation that updates State, true by definition, so that no later proof unfolds a
record update.
-/

namespace Sys2Proof.Machine

/-! The fields after `goto` of the producer. -/

@[simp] theorem gotoP_cfg (q : PSeq) (s : State) : (gotoP q s).cfg = s.cfg := rfl
@[simp] theorem gotoP_buf (q : PSeq) (s : State) : (gotoP q s).buf = s.buf := rfl
@[simp] theorem gotoP_wr (q : PSeq) (s : State) : (gotoP q s).wr = s.wr := rfl
@[simp] theorem gotoP_rd (q : PSeq) (s : State) : (gotoP q s).rd = s.rd := rfl
@[simp] theorem gotoP_f0 (q : PSeq) (s : State) : (gotoP q s).f0 = s.f0 := rfl
@[simp] theorem gotoP_strat (q : PSeq) (s : State) : (gotoP q s).strat = s.strat := rfl
@[simp] theorem gotoP_len (q : PSeq) (s : State) : (gotoP q s).len = s.len := rfl
@[simp] theorem gotoP_table (q : PSeq) (s : State) : (gotoP q s).table = s.table := rfl
@[simp] theorem gotoP_sumI (q : PSeq) (s : State) : (gotoP q s).sumI = s.sumI := rfl
@[simp] theorem gotoP_sumQ (q : PSeq) (s : State) : (gotoP q s).sumQ = s.sumQ := rfl
@[simp] theorem gotoP_n (q : PSeq) (s : State) : (gotoP q s).n = s.n := rfl
@[simp] theorem gotoP_angle (q : PSeq) (s : State) : (gotoP q s).angle = s.angle := rfl
@[simp] theorem gotoP_ampl (q : PSeq) (s : State) : (gotoP q s).ampl = s.ampl := rfl
@[simp] theorem gotoP_rvalid (q : PSeq) (s : State) : (gotoP q s).rvalid = s.rvalid := rfl
@[simp] theorem gotoP_pin (q : PSeq) (s : State) : (gotoP q s).pin = s.pin := rfl
@[simp] theorem gotoP_phase (q : PSeq) (s : State) : (gotoP q s).phase = s.phase := rfl
@[simp] theorem gotoP_dropcnt (q : PSeq) (s : State) : (gotoP q s).dropcnt = s.dropcnt := rfl
@[simp] theorem gotoP_pseq (q : PSeq) (s : State) : (gotoP q s).pseq = q := rfl
@[simp] theorem gotoP_pS (q : PSeq) (s : State) : (gotoP q s).pS = s.pS := rfl
@[simp] theorem gotoP_pW (q : PSeq) (s : State) : (gotoP q s).pW = s.pW := rfl
@[simp] theorem gotoP_pR (q : PSeq) (s : State) : (gotoP q s).pR = s.pR := rfl
@[simp] theorem gotoP_cseq (q : PSeq) (s : State) : (gotoP q s).cseq = s.cseq := rfl
@[simp] theorem gotoP_cW (q : PSeq) (s : State) : (gotoP q s).cW = s.cW := rfl
@[simp] theorem gotoP_cR (q : PSeq) (s : State) : (gotoP q s).cR = s.cR := rfl
@[simp] theorem gotoP_cV (q : PSeq) (s : State) : (gotoP q s).cV = s.cV := rfl
@[simp] theorem gotoP_cGot (q : PSeq) (s : State) : (gotoP q s).cGot = s.cGot := rfl
@[simp] theorem gotoP_cLoop (q : PSeq) (s : State) : (gotoP q s).cLoop = s.cLoop := rfl
@[simp] theorem gotoP_pIn (q : PSeq) (s : State) : (gotoP q s).pIn = s.pIn := rfl
@[simp] theorem gotoP_cIn (q : PSeq) (s : State) : (gotoP q s).cIn = s.cIn := rfl
@[simp] theorem gotoP_pOut (q : PSeq) (s : State) : (gotoP q s).pOut = s.pOut := rfl
@[simp] theorem gotoP_cOut (q : PSeq) (s : State) : (gotoP q s).cOut = s.cOut := rfl
@[simp] theorem gotoP_signals (q : PSeq) (s : State) : (gotoP q s).signals = s.signals := rfl
@[simp] theorem gotoP_sched (q : PSeq) (s : State) : (gotoP q s).sched = s.sched := rfl
@[simp] theorem gotoP_lost (q : PSeq) (s : State) : (gotoP q s).lost = s.lost := rfl
@[simp] theorem gotoP_turn (q : PSeq) (s : State) : (gotoP q s).turn = s.turn := rfl
@[simp] theorem gotoP_draw (q : PSeq) (s : State) : (gotoP q s).draw = s.draw + 1 := rfl

/-! The fields after `goto` of the consumer. -/

@[simp] theorem gotoC_cfg (q : CSeq) (s : State) : (gotoC q s).cfg = s.cfg := rfl
@[simp] theorem gotoC_buf (q : CSeq) (s : State) : (gotoC q s).buf = s.buf := rfl
@[simp] theorem gotoC_wr (q : CSeq) (s : State) : (gotoC q s).wr = s.wr := rfl
@[simp] theorem gotoC_rd (q : CSeq) (s : State) : (gotoC q s).rd = s.rd := rfl
@[simp] theorem gotoC_f0 (q : CSeq) (s : State) : (gotoC q s).f0 = s.f0 := rfl
@[simp] theorem gotoC_strat (q : CSeq) (s : State) : (gotoC q s).strat = s.strat := rfl
@[simp] theorem gotoC_len (q : CSeq) (s : State) : (gotoC q s).len = s.len := rfl
@[simp] theorem gotoC_table (q : CSeq) (s : State) : (gotoC q s).table = s.table := rfl
@[simp] theorem gotoC_sumI (q : CSeq) (s : State) : (gotoC q s).sumI = s.sumI := rfl
@[simp] theorem gotoC_sumQ (q : CSeq) (s : State) : (gotoC q s).sumQ = s.sumQ := rfl
@[simp] theorem gotoC_n (q : CSeq) (s : State) : (gotoC q s).n = s.n := rfl
@[simp] theorem gotoC_angle (q : CSeq) (s : State) : (gotoC q s).angle = s.angle := rfl
@[simp] theorem gotoC_ampl (q : CSeq) (s : State) : (gotoC q s).ampl = s.ampl := rfl
@[simp] theorem gotoC_rvalid (q : CSeq) (s : State) : (gotoC q s).rvalid = s.rvalid := rfl
@[simp] theorem gotoC_pin (q : CSeq) (s : State) : (gotoC q s).pin = s.pin := rfl
@[simp] theorem gotoC_phase (q : CSeq) (s : State) : (gotoC q s).phase = s.phase := rfl
@[simp] theorem gotoC_dropcnt (q : CSeq) (s : State) : (gotoC q s).dropcnt = s.dropcnt := rfl
@[simp] theorem gotoC_pseq (q : CSeq) (s : State) : (gotoC q s).pseq = s.pseq := rfl
@[simp] theorem gotoC_pS (q : CSeq) (s : State) : (gotoC q s).pS = s.pS := rfl
@[simp] theorem gotoC_pW (q : CSeq) (s : State) : (gotoC q s).pW = s.pW := rfl
@[simp] theorem gotoC_pR (q : CSeq) (s : State) : (gotoC q s).pR = s.pR := rfl
@[simp] theorem gotoC_cseq (q : CSeq) (s : State) : (gotoC q s).cseq = q := rfl
@[simp] theorem gotoC_cW (q : CSeq) (s : State) : (gotoC q s).cW = s.cW := rfl
@[simp] theorem gotoC_cR (q : CSeq) (s : State) : (gotoC q s).cR = s.cR := rfl
@[simp] theorem gotoC_cV (q : CSeq) (s : State) : (gotoC q s).cV = s.cV := rfl
@[simp] theorem gotoC_cGot (q : CSeq) (s : State) : (gotoC q s).cGot = s.cGot := rfl
@[simp] theorem gotoC_cLoop (q : CSeq) (s : State) : (gotoC q s).cLoop = s.cLoop := rfl
@[simp] theorem gotoC_pIn (q : CSeq) (s : State) : (gotoC q s).pIn = s.pIn := rfl
@[simp] theorem gotoC_cIn (q : CSeq) (s : State) : (gotoC q s).cIn = s.cIn := rfl
@[simp] theorem gotoC_pOut (q : CSeq) (s : State) : (gotoC q s).pOut = s.pOut := rfl
@[simp] theorem gotoC_cOut (q : CSeq) (s : State) : (gotoC q s).cOut = s.cOut := rfl
@[simp] theorem gotoC_signals (q : CSeq) (s : State) : (gotoC q s).signals = s.signals := rfl
@[simp] theorem gotoC_sched (q : CSeq) (s : State) : (gotoC q s).sched = s.sched := rfl
@[simp] theorem gotoC_lost (q : CSeq) (s : State) : (gotoC q s).lost = s.lost := rfl
@[simp] theorem gotoC_turn (q : CSeq) (s : State) : (gotoC q s).turn = s.turn := rfl
@[simp] theorem gotoC_draw (q : CSeq) (s : State) : (gotoC q s).draw = s.draw + 1 := rfl

/-! The fields after `respond` on the producer port. -/

@[simp] theorem respondP_cfg (r : Response) (s : State) : (respondP r s).cfg = s.cfg := rfl
@[simp] theorem respondP_buf (r : Response) (s : State) : (respondP r s).buf = s.buf := rfl
@[simp] theorem respondP_wr (r : Response) (s : State) : (respondP r s).wr = s.wr := rfl
@[simp] theorem respondP_rd (r : Response) (s : State) : (respondP r s).rd = s.rd := rfl
@[simp] theorem respondP_f0 (r : Response) (s : State) : (respondP r s).f0 = s.f0 := rfl
@[simp] theorem respondP_strat (r : Response) (s : State) : (respondP r s).strat = s.strat := rfl
@[simp] theorem respondP_len (r : Response) (s : State) : (respondP r s).len = s.len := rfl
@[simp] theorem respondP_table (r : Response) (s : State) : (respondP r s).table = s.table := rfl
@[simp] theorem respondP_sumI (r : Response) (s : State) : (respondP r s).sumI = s.sumI := rfl
@[simp] theorem respondP_sumQ (r : Response) (s : State) : (respondP r s).sumQ = s.sumQ := rfl
@[simp] theorem respondP_n (r : Response) (s : State) : (respondP r s).n = s.n := rfl
@[simp] theorem respondP_angle (r : Response) (s : State) : (respondP r s).angle = s.angle := rfl
@[simp] theorem respondP_ampl (r : Response) (s : State) : (respondP r s).ampl = s.ampl := rfl
@[simp] theorem respondP_rvalid (r : Response) (s : State) : (respondP r s).rvalid = s.rvalid := rfl
@[simp] theorem respondP_pin (r : Response) (s : State) : (respondP r s).pin = s.pin := rfl
@[simp] theorem respondP_phase (r : Response) (s : State) : (respondP r s).phase = s.phase := rfl
@[simp] theorem respondP_dropcnt (r : Response) (s : State) : (respondP r s).dropcnt = s.dropcnt := rfl
@[simp] theorem respondP_pseq (r : Response) (s : State) : (respondP r s).pseq = .idle := rfl
@[simp] theorem respondP_pS (r : Response) (s : State) : (respondP r s).pS = s.pS := rfl
@[simp] theorem respondP_pW (r : Response) (s : State) : (respondP r s).pW = s.pW := rfl
@[simp] theorem respondP_pR (r : Response) (s : State) : (respondP r s).pR = s.pR := rfl
@[simp] theorem respondP_cseq (r : Response) (s : State) : (respondP r s).cseq = s.cseq := rfl
@[simp] theorem respondP_cW (r : Response) (s : State) : (respondP r s).cW = s.cW := rfl
@[simp] theorem respondP_cR (r : Response) (s : State) : (respondP r s).cR = s.cR := rfl
@[simp] theorem respondP_cV (r : Response) (s : State) : (respondP r s).cV = s.cV := rfl
@[simp] theorem respondP_cGot (r : Response) (s : State) : (respondP r s).cGot = s.cGot := rfl
@[simp] theorem respondP_cLoop (r : Response) (s : State) : (respondP r s).cLoop = s.cLoop := rfl
@[simp] theorem respondP_pIn (r : Response) (s : State) : (respondP r s).pIn = s.pIn := rfl
@[simp] theorem respondP_cIn (r : Response) (s : State) : (respondP r s).cIn = s.cIn := rfl
@[simp] theorem respondP_pOut (r : Response) (s : State) : (respondP r s).pOut = s.pOut ++ [r] := rfl
@[simp] theorem respondP_cOut (r : Response) (s : State) : (respondP r s).cOut = s.cOut := rfl
@[simp] theorem respondP_signals (r : Response) (s : State) : (respondP r s).signals = s.signals := rfl
@[simp] theorem respondP_sched (r : Response) (s : State) : (respondP r s).sched = s.sched := rfl
@[simp] theorem respondP_lost (r : Response) (s : State) : (respondP r s).lost = s.lost := rfl
@[simp] theorem respondP_turn (r : Response) (s : State) : (respondP r s).turn = s.turn := rfl
@[simp] theorem respondP_draw (r : Response) (s : State) : (respondP r s).draw = s.draw + 1 := rfl

/-! The fields after `respond` on the consumer port. -/

@[simp] theorem respondC_cfg (r : Response) (s : State) : (respondC r s).cfg = s.cfg := rfl
@[simp] theorem respondC_buf (r : Response) (s : State) : (respondC r s).buf = s.buf := rfl
@[simp] theorem respondC_wr (r : Response) (s : State) : (respondC r s).wr = s.wr := rfl
@[simp] theorem respondC_rd (r : Response) (s : State) : (respondC r s).rd = s.rd := rfl
@[simp] theorem respondC_f0 (r : Response) (s : State) : (respondC r s).f0 = s.f0 := rfl
@[simp] theorem respondC_strat (r : Response) (s : State) : (respondC r s).strat = s.strat := rfl
@[simp] theorem respondC_len (r : Response) (s : State) : (respondC r s).len = s.len := rfl
@[simp] theorem respondC_table (r : Response) (s : State) : (respondC r s).table = s.table := rfl
@[simp] theorem respondC_sumI (r : Response) (s : State) : (respondC r s).sumI = s.sumI := rfl
@[simp] theorem respondC_sumQ (r : Response) (s : State) : (respondC r s).sumQ = s.sumQ := rfl
@[simp] theorem respondC_n (r : Response) (s : State) : (respondC r s).n = s.n := rfl
@[simp] theorem respondC_angle (r : Response) (s : State) : (respondC r s).angle = s.angle := rfl
@[simp] theorem respondC_ampl (r : Response) (s : State) : (respondC r s).ampl = s.ampl := rfl
@[simp] theorem respondC_rvalid (r : Response) (s : State) : (respondC r s).rvalid = s.rvalid := rfl
@[simp] theorem respondC_pin (r : Response) (s : State) : (respondC r s).pin = s.pin := rfl
@[simp] theorem respondC_phase (r : Response) (s : State) : (respondC r s).phase = s.phase := rfl
@[simp] theorem respondC_dropcnt (r : Response) (s : State) : (respondC r s).dropcnt = s.dropcnt := rfl
@[simp] theorem respondC_pseq (r : Response) (s : State) : (respondC r s).pseq = s.pseq := rfl
@[simp] theorem respondC_pS (r : Response) (s : State) : (respondC r s).pS = s.pS := rfl
@[simp] theorem respondC_pW (r : Response) (s : State) : (respondC r s).pW = s.pW := rfl
@[simp] theorem respondC_pR (r : Response) (s : State) : (respondC r s).pR = s.pR := rfl
@[simp] theorem respondC_cseq (r : Response) (s : State) : (respondC r s).cseq = .idle := rfl
@[simp] theorem respondC_cW (r : Response) (s : State) : (respondC r s).cW = s.cW := rfl
@[simp] theorem respondC_cR (r : Response) (s : State) : (respondC r s).cR = s.cR := rfl
@[simp] theorem respondC_cV (r : Response) (s : State) : (respondC r s).cV = s.cV := rfl
@[simp] theorem respondC_cGot (r : Response) (s : State) : (respondC r s).cGot = s.cGot := rfl
@[simp] theorem respondC_cLoop (r : Response) (s : State) : (respondC r s).cLoop = s.cLoop := rfl
@[simp] theorem respondC_pIn (r : Response) (s : State) : (respondC r s).pIn = s.pIn := rfl
@[simp] theorem respondC_cIn (r : Response) (s : State) : (respondC r s).cIn = s.cIn := rfl
@[simp] theorem respondC_pOut (r : Response) (s : State) : (respondC r s).pOut = s.pOut := rfl
@[simp] theorem respondC_cOut (r : Response) (s : State) : (respondC r s).cOut = s.cOut ++ [r] := rfl
@[simp] theorem respondC_signals (r : Response) (s : State) : (respondC r s).signals = s.signals := rfl
@[simp] theorem respondC_sched (r : Response) (s : State) : (respondC r s).sched = s.sched := rfl
@[simp] theorem respondC_lost (r : Response) (s : State) : (respondC r s).lost = s.lost := rfl
@[simp] theorem respondC_turn (r : Response) (s : State) : (respondC r s).turn = s.turn := rfl
@[simp] theorem respondC_draw (r : Response) (s : State) : (respondC r s).draw = s.draw + 1 := rfl

/-! The fields after RDREG's `respond`. -/

@[simp] theorem answerRead_cfg (r : Response) (s : State) : (answerRead r s).cfg = s.cfg := rfl
@[simp] theorem answerRead_buf (r : Response) (s : State) : (answerRead r s).buf = s.buf := rfl
@[simp] theorem answerRead_wr (r : Response) (s : State) : (answerRead r s).wr = s.wr := rfl
@[simp] theorem answerRead_rd (r : Response) (s : State) : (answerRead r s).rd = s.rd := rfl
@[simp] theorem answerRead_f0 (r : Response) (s : State) : (answerRead r s).f0 = s.f0 := rfl
@[simp] theorem answerRead_strat (r : Response) (s : State) : (answerRead r s).strat = s.strat := rfl
@[simp] theorem answerRead_len (r : Response) (s : State) : (answerRead r s).len = s.len := rfl
@[simp] theorem answerRead_table (r : Response) (s : State) : (answerRead r s).table = s.table := rfl
@[simp] theorem answerRead_sumI (r : Response) (s : State) : (answerRead r s).sumI = s.sumI := rfl
@[simp] theorem answerRead_sumQ (r : Response) (s : State) : (answerRead r s).sumQ = s.sumQ := rfl
@[simp] theorem answerRead_n (r : Response) (s : State) : (answerRead r s).n = s.n := rfl
@[simp] theorem answerRead_angle (r : Response) (s : State) : (answerRead r s).angle = s.angle := rfl
@[simp] theorem answerRead_ampl (r : Response) (s : State) : (answerRead r s).ampl = s.ampl := rfl
@[simp] theorem answerRead_rvalid (r : Response) (s : State) : (answerRead r s).rvalid = s.rvalid := rfl
@[simp] theorem answerRead_pin (r : Response) (s : State) : (answerRead r s).pin = s.pin := rfl
@[simp] theorem answerRead_phase (r : Response) (s : State) : (answerRead r s).phase = s.phase := rfl
@[simp] theorem answerRead_dropcnt (r : Response) (s : State) : (answerRead r s).dropcnt = s.dropcnt := rfl
@[simp] theorem answerRead_pseq (r : Response) (s : State) : (answerRead r s).pseq = s.pseq := rfl
@[simp] theorem answerRead_pS (r : Response) (s : State) : (answerRead r s).pS = s.pS := rfl
@[simp] theorem answerRead_pW (r : Response) (s : State) : (answerRead r s).pW = s.pW := rfl
@[simp] theorem answerRead_pR (r : Response) (s : State) : (answerRead r s).pR = s.pR := rfl
@[simp] theorem answerRead_cseq (r : Response) (s : State) : (answerRead r s).cseq = .idle := rfl
@[simp] theorem answerRead_cW (r : Response) (s : State) : (answerRead r s).cW = s.cW := rfl
@[simp] theorem answerRead_cR (r : Response) (s : State) : (answerRead r s).cR = s.cR := rfl
@[simp] theorem answerRead_cV (r : Response) (s : State) : (answerRead r s).cV = s.cV := rfl
@[simp] theorem answerRead_cGot (r : Response) (s : State) : (answerRead r s).cGot = s.cGot := rfl
@[simp] theorem answerRead_cLoop (r : Response) (s : State) : (answerRead r s).cLoop = s.cLoop := rfl
@[simp] theorem answerRead_pIn (r : Response) (s : State) : (answerRead r s).pIn = s.pIn := rfl
@[simp] theorem answerRead_cIn (r : Response) (s : State) : (answerRead r s).cIn = s.cIn := rfl
@[simp] theorem answerRead_pOut (r : Response) (s : State) : (answerRead r s).pOut = s.pOut := rfl
@[simp] theorem answerRead_cOut (r : Response) (s : State) : (answerRead r s).cOut = s.cOut ++ [r] := rfl
@[simp] theorem answerRead_signals (r : Response) (s : State) : (answerRead r s).signals = s.signals := rfl
@[simp] theorem answerRead_sched (r : Response) (s : State) : (answerRead r s).sched = s.sched := rfl
@[simp] theorem answerRead_lost (r : Response) (s : State) : (answerRead r s).lost = s.lost := rfl
@[simp] theorem answerRead_turn (r : Response) (s : State) : (answerRead r s).turn = s.turn := rfl
@[simp] theorem answerRead_draw (r : Response) (s : State) : (answerRead r s).draw = s.draw := rfl

/-! The fields after `emit`. -/

@[simp] theorem emit_cfg (g : Signal) (s : State) : (emit g s).cfg = s.cfg := rfl
@[simp] theorem emit_buf (g : Signal) (s : State) : (emit g s).buf = s.buf := rfl
@[simp] theorem emit_wr (g : Signal) (s : State) : (emit g s).wr = s.wr := rfl
@[simp] theorem emit_rd (g : Signal) (s : State) : (emit g s).rd = s.rd := rfl
@[simp] theorem emit_f0 (g : Signal) (s : State) : (emit g s).f0 = s.f0 := rfl
@[simp] theorem emit_strat (g : Signal) (s : State) : (emit g s).strat = s.strat := rfl
@[simp] theorem emit_len (g : Signal) (s : State) : (emit g s).len = s.len := rfl
@[simp] theorem emit_table (g : Signal) (s : State) : (emit g s).table = s.table := rfl
@[simp] theorem emit_sumI (g : Signal) (s : State) : (emit g s).sumI = s.sumI := rfl
@[simp] theorem emit_sumQ (g : Signal) (s : State) : (emit g s).sumQ = s.sumQ := rfl
@[simp] theorem emit_n (g : Signal) (s : State) : (emit g s).n = s.n := rfl
@[simp] theorem emit_angle (g : Signal) (s : State) : (emit g s).angle = s.angle := rfl
@[simp] theorem emit_ampl (g : Signal) (s : State) : (emit g s).ampl = s.ampl := rfl
@[simp] theorem emit_rvalid (g : Signal) (s : State) : (emit g s).rvalid = s.rvalid := rfl
@[simp] theorem emit_pin (g : Signal) (s : State) : (emit g s).pin = s.pin := rfl
@[simp] theorem emit_phase (g : Signal) (s : State) : (emit g s).phase = s.phase := rfl
@[simp] theorem emit_dropcnt (g : Signal) (s : State) : (emit g s).dropcnt = s.dropcnt := rfl
@[simp] theorem emit_pseq (g : Signal) (s : State) : (emit g s).pseq = s.pseq := rfl
@[simp] theorem emit_pS (g : Signal) (s : State) : (emit g s).pS = s.pS := rfl
@[simp] theorem emit_pW (g : Signal) (s : State) : (emit g s).pW = s.pW := rfl
@[simp] theorem emit_pR (g : Signal) (s : State) : (emit g s).pR = s.pR := rfl
@[simp] theorem emit_cseq (g : Signal) (s : State) : (emit g s).cseq = s.cseq := rfl
@[simp] theorem emit_cW (g : Signal) (s : State) : (emit g s).cW = s.cW := rfl
@[simp] theorem emit_cR (g : Signal) (s : State) : (emit g s).cR = s.cR := rfl
@[simp] theorem emit_cV (g : Signal) (s : State) : (emit g s).cV = s.cV := rfl
@[simp] theorem emit_cGot (g : Signal) (s : State) : (emit g s).cGot = s.cGot := rfl
@[simp] theorem emit_cLoop (g : Signal) (s : State) : (emit g s).cLoop = s.cLoop := rfl
@[simp] theorem emit_pIn (g : Signal) (s : State) : (emit g s).pIn = s.pIn := rfl
@[simp] theorem emit_cIn (g : Signal) (s : State) : (emit g s).cIn = s.cIn := rfl
@[simp] theorem emit_pOut (g : Signal) (s : State) : (emit g s).pOut = s.pOut := rfl
@[simp] theorem emit_cOut (g : Signal) (s : State) : (emit g s).cOut = s.cOut := rfl
@[simp] theorem emit_signals (g : Signal) (s : State) : (emit g s).signals = s.signals ++ [g] := rfl
@[simp] theorem emit_sched (g : Signal) (s : State) : (emit g s).sched = s.sched := rfl
@[simp] theorem emit_lost (g : Signal) (s : State) : (emit g s).lost = s.lost := rfl
@[simp] theorem emit_turn (g : Signal) (s : State) : (emit g s).turn = s.turn := rfl
@[simp] theorem emit_draw (g : Signal) (s : State) : (emit g s).draw = s.draw := rfl

/-! The fields after `store_release(WR, v)`. -/

@[simp] theorem storeReleaseWr_cfg (v : Nat) (s : State) : (storeReleaseWr v s).cfg = s.cfg := rfl
@[simp] theorem storeReleaseWr_buf (v : Nat) (s : State) : (storeReleaseWr v s).buf = s.buf := rfl
@[simp] theorem storeReleaseWr_wr (v : Nat) (s : State) : (storeReleaseWr v s).wr = v := rfl
@[simp] theorem storeReleaseWr_rd (v : Nat) (s : State) : (storeReleaseWr v s).rd = s.rd := rfl
@[simp] theorem storeReleaseWr_f0 (v : Nat) (s : State) : (storeReleaseWr v s).f0 = s.f0 := rfl
@[simp] theorem storeReleaseWr_strat (v : Nat) (s : State) : (storeReleaseWr v s).strat = s.strat := rfl
@[simp] theorem storeReleaseWr_len (v : Nat) (s : State) : (storeReleaseWr v s).len = s.len := rfl
@[simp] theorem storeReleaseWr_table (v : Nat) (s : State) : (storeReleaseWr v s).table = s.table := rfl
@[simp] theorem storeReleaseWr_sumI (v : Nat) (s : State) : (storeReleaseWr v s).sumI = s.sumI := rfl
@[simp] theorem storeReleaseWr_sumQ (v : Nat) (s : State) : (storeReleaseWr v s).sumQ = s.sumQ := rfl
@[simp] theorem storeReleaseWr_n (v : Nat) (s : State) : (storeReleaseWr v s).n = s.n := rfl
@[simp] theorem storeReleaseWr_angle (v : Nat) (s : State) : (storeReleaseWr v s).angle = s.angle := rfl
@[simp] theorem storeReleaseWr_ampl (v : Nat) (s : State) : (storeReleaseWr v s).ampl = s.ampl := rfl
@[simp] theorem storeReleaseWr_rvalid (v : Nat) (s : State) : (storeReleaseWr v s).rvalid = s.rvalid := rfl
@[simp] theorem storeReleaseWr_pin (v : Nat) (s : State) : (storeReleaseWr v s).pin = s.pin := rfl
@[simp] theorem storeReleaseWr_phase (v : Nat) (s : State) : (storeReleaseWr v s).phase = s.phase := rfl
@[simp] theorem storeReleaseWr_dropcnt (v : Nat) (s : State) : (storeReleaseWr v s).dropcnt = s.dropcnt := rfl
@[simp] theorem storeReleaseWr_pseq (v : Nat) (s : State) : (storeReleaseWr v s).pseq = s.pseq := rfl
@[simp] theorem storeReleaseWr_pS (v : Nat) (s : State) : (storeReleaseWr v s).pS = s.pS := rfl
@[simp] theorem storeReleaseWr_pW (v : Nat) (s : State) : (storeReleaseWr v s).pW = s.pW := rfl
@[simp] theorem storeReleaseWr_pR (v : Nat) (s : State) : (storeReleaseWr v s).pR = s.pR := rfl
@[simp] theorem storeReleaseWr_cseq (v : Nat) (s : State) : (storeReleaseWr v s).cseq = s.cseq := rfl
@[simp] theorem storeReleaseWr_cW (v : Nat) (s : State) : (storeReleaseWr v s).cW = s.cW := rfl
@[simp] theorem storeReleaseWr_cR (v : Nat) (s : State) : (storeReleaseWr v s).cR = s.cR := rfl
@[simp] theorem storeReleaseWr_cV (v : Nat) (s : State) : (storeReleaseWr v s).cV = s.cV := rfl
@[simp] theorem storeReleaseWr_cGot (v : Nat) (s : State) : (storeReleaseWr v s).cGot = s.cGot := rfl
@[simp] theorem storeReleaseWr_cLoop (v : Nat) (s : State) : (storeReleaseWr v s).cLoop = s.cLoop := rfl
@[simp] theorem storeReleaseWr_pIn (v : Nat) (s : State) : (storeReleaseWr v s).pIn = s.pIn := rfl
@[simp] theorem storeReleaseWr_cIn (v : Nat) (s : State) : (storeReleaseWr v s).cIn = s.cIn := rfl
@[simp] theorem storeReleaseWr_pOut (v : Nat) (s : State) : (storeReleaseWr v s).pOut = s.pOut := rfl
@[simp] theorem storeReleaseWr_cOut (v : Nat) (s : State) : (storeReleaseWr v s).cOut = s.cOut := rfl
@[simp] theorem storeReleaseWr_signals (v : Nat) (s : State) : (storeReleaseWr v s).signals = s.signals := rfl
@[simp] theorem storeReleaseWr_sched (v : Nat) (s : State) : (storeReleaseWr v s).sched = s.sched := rfl
@[simp] theorem storeReleaseWr_lost (v : Nat) (s : State) : (storeReleaseWr v s).lost = s.lost := rfl
@[simp] theorem storeReleaseWr_turn (v : Nat) (s : State) : (storeReleaseWr v s).turn = s.turn := rfl
@[simp] theorem storeReleaseWr_draw (v : Nat) (s : State) : (storeReleaseWr v s).draw = s.draw := rfl

/-! The fields after `store_release(RD, v)`. -/

@[simp] theorem storeReleaseRd_cfg (v : Nat) (s : State) : (storeReleaseRd v s).cfg = s.cfg := rfl
@[simp] theorem storeReleaseRd_buf (v : Nat) (s : State) : (storeReleaseRd v s).buf = s.buf := rfl
@[simp] theorem storeReleaseRd_wr (v : Nat) (s : State) : (storeReleaseRd v s).wr = s.wr := rfl
@[simp] theorem storeReleaseRd_rd (v : Nat) (s : State) : (storeReleaseRd v s).rd = v := rfl
@[simp] theorem storeReleaseRd_f0 (v : Nat) (s : State) : (storeReleaseRd v s).f0 = s.f0 := rfl
@[simp] theorem storeReleaseRd_strat (v : Nat) (s : State) : (storeReleaseRd v s).strat = s.strat := rfl
@[simp] theorem storeReleaseRd_len (v : Nat) (s : State) : (storeReleaseRd v s).len = s.len := rfl
@[simp] theorem storeReleaseRd_table (v : Nat) (s : State) : (storeReleaseRd v s).table = s.table := rfl
@[simp] theorem storeReleaseRd_sumI (v : Nat) (s : State) : (storeReleaseRd v s).sumI = s.sumI := rfl
@[simp] theorem storeReleaseRd_sumQ (v : Nat) (s : State) : (storeReleaseRd v s).sumQ = s.sumQ := rfl
@[simp] theorem storeReleaseRd_n (v : Nat) (s : State) : (storeReleaseRd v s).n = s.n := rfl
@[simp] theorem storeReleaseRd_angle (v : Nat) (s : State) : (storeReleaseRd v s).angle = s.angle := rfl
@[simp] theorem storeReleaseRd_ampl (v : Nat) (s : State) : (storeReleaseRd v s).ampl = s.ampl := rfl
@[simp] theorem storeReleaseRd_rvalid (v : Nat) (s : State) : (storeReleaseRd v s).rvalid = s.rvalid := rfl
@[simp] theorem storeReleaseRd_pin (v : Nat) (s : State) : (storeReleaseRd v s).pin = s.pin := rfl
@[simp] theorem storeReleaseRd_phase (v : Nat) (s : State) : (storeReleaseRd v s).phase = s.phase := rfl
@[simp] theorem storeReleaseRd_dropcnt (v : Nat) (s : State) : (storeReleaseRd v s).dropcnt = s.dropcnt := rfl
@[simp] theorem storeReleaseRd_pseq (v : Nat) (s : State) : (storeReleaseRd v s).pseq = s.pseq := rfl
@[simp] theorem storeReleaseRd_pS (v : Nat) (s : State) : (storeReleaseRd v s).pS = s.pS := rfl
@[simp] theorem storeReleaseRd_pW (v : Nat) (s : State) : (storeReleaseRd v s).pW = s.pW := rfl
@[simp] theorem storeReleaseRd_pR (v : Nat) (s : State) : (storeReleaseRd v s).pR = s.pR := rfl
@[simp] theorem storeReleaseRd_cseq (v : Nat) (s : State) : (storeReleaseRd v s).cseq = s.cseq := rfl
@[simp] theorem storeReleaseRd_cW (v : Nat) (s : State) : (storeReleaseRd v s).cW = s.cW := rfl
@[simp] theorem storeReleaseRd_cR (v : Nat) (s : State) : (storeReleaseRd v s).cR = s.cR := rfl
@[simp] theorem storeReleaseRd_cV (v : Nat) (s : State) : (storeReleaseRd v s).cV = s.cV := rfl
@[simp] theorem storeReleaseRd_cGot (v : Nat) (s : State) : (storeReleaseRd v s).cGot = s.cGot := rfl
@[simp] theorem storeReleaseRd_cLoop (v : Nat) (s : State) : (storeReleaseRd v s).cLoop = s.cLoop := rfl
@[simp] theorem storeReleaseRd_pIn (v : Nat) (s : State) : (storeReleaseRd v s).pIn = s.pIn := rfl
@[simp] theorem storeReleaseRd_cIn (v : Nat) (s : State) : (storeReleaseRd v s).cIn = s.cIn := rfl
@[simp] theorem storeReleaseRd_pOut (v : Nat) (s : State) : (storeReleaseRd v s).pOut = s.pOut := rfl
@[simp] theorem storeReleaseRd_cOut (v : Nat) (s : State) : (storeReleaseRd v s).cOut = s.cOut := rfl
@[simp] theorem storeReleaseRd_signals (v : Nat) (s : State) : (storeReleaseRd v s).signals = s.signals := rfl
@[simp] theorem storeReleaseRd_sched (v : Nat) (s : State) : (storeReleaseRd v s).sched = s.sched := rfl
@[simp] theorem storeReleaseRd_lost (v : Nat) (s : State) : (storeReleaseRd v s).lost = s.lost := rfl
@[simp] theorem storeReleaseRd_turn (v : Nat) (s : State) : (storeReleaseRd v s).turn = s.turn := rfl
@[simp] theorem storeReleaseRd_draw (v : Nat) (s : State) : (storeReleaseRd v s).draw = s.draw := rfl

/-! The fields after counting a drop. -/

@[simp] theorem countDrop_cfg (s : State) : (countDrop s).cfg = s.cfg := rfl
@[simp] theorem countDrop_buf (s : State) : (countDrop s).buf = s.buf := rfl
@[simp] theorem countDrop_wr (s : State) : (countDrop s).wr = s.wr := rfl
@[simp] theorem countDrop_rd (s : State) : (countDrop s).rd = s.rd := rfl
@[simp] theorem countDrop_f0 (s : State) : (countDrop s).f0 = s.f0 := rfl
@[simp] theorem countDrop_strat (s : State) : (countDrop s).strat = s.strat := rfl
@[simp] theorem countDrop_len (s : State) : (countDrop s).len = s.len := rfl
@[simp] theorem countDrop_table (s : State) : (countDrop s).table = s.table := rfl
@[simp] theorem countDrop_sumI (s : State) : (countDrop s).sumI = s.sumI := rfl
@[simp] theorem countDrop_sumQ (s : State) : (countDrop s).sumQ = s.sumQ := rfl
@[simp] theorem countDrop_n (s : State) : (countDrop s).n = s.n := rfl
@[simp] theorem countDrop_angle (s : State) : (countDrop s).angle = s.angle := rfl
@[simp] theorem countDrop_ampl (s : State) : (countDrop s).ampl = s.ampl := rfl
@[simp] theorem countDrop_rvalid (s : State) : (countDrop s).rvalid = s.rvalid := rfl
@[simp] theorem countDrop_pin (s : State) : (countDrop s).pin = s.pin := rfl
@[simp] theorem countDrop_phase (s : State) : (countDrop s).phase = s.phase := rfl
@[simp] theorem countDrop_dropcnt (s : State) : (countDrop s).dropcnt = (s.dropcnt + 1) % 2 ^ s.cfg.dropBits := rfl
@[simp] theorem countDrop_pseq (s : State) : (countDrop s).pseq = s.pseq := rfl
@[simp] theorem countDrop_pS (s : State) : (countDrop s).pS = s.pS := rfl
@[simp] theorem countDrop_pW (s : State) : (countDrop s).pW = s.pW := rfl
@[simp] theorem countDrop_pR (s : State) : (countDrop s).pR = s.pR := rfl
@[simp] theorem countDrop_cseq (s : State) : (countDrop s).cseq = s.cseq := rfl
@[simp] theorem countDrop_cW (s : State) : (countDrop s).cW = s.cW := rfl
@[simp] theorem countDrop_cR (s : State) : (countDrop s).cR = s.cR := rfl
@[simp] theorem countDrop_cV (s : State) : (countDrop s).cV = s.cV := rfl
@[simp] theorem countDrop_cGot (s : State) : (countDrop s).cGot = s.cGot := rfl
@[simp] theorem countDrop_cLoop (s : State) : (countDrop s).cLoop = s.cLoop := rfl
@[simp] theorem countDrop_pIn (s : State) : (countDrop s).pIn = s.pIn := rfl
@[simp] theorem countDrop_cIn (s : State) : (countDrop s).cIn = s.cIn := rfl
@[simp] theorem countDrop_pOut (s : State) : (countDrop s).pOut = s.pOut := rfl
@[simp] theorem countDrop_cOut (s : State) : (countDrop s).cOut = s.cOut := rfl
@[simp] theorem countDrop_signals (s : State) : (countDrop s).signals = s.signals := rfl
@[simp] theorem countDrop_sched (s : State) : (countDrop s).sched = s.sched := rfl
@[simp] theorem countDrop_lost (s : State) : (countDrop s).lost = s.lost := rfl
@[simp] theorem countDrop_turn (s : State) : (countDrop s).turn = s.turn := rfl
@[simp] theorem countDrop_draw (s : State) : (countDrop s).draw = s.draw := rfl

/-! The fields after RBRESET. -/

@[simp] theorem rbReset_cfg (s : State) : (rbReset s).cfg = s.cfg := rfl
@[simp] theorem rbReset_buf (s : State) : (rbReset s).buf = s.buf := rfl
@[simp] theorem rbReset_wr (s : State) : (rbReset s).wr = 0 := rfl
@[simp] theorem rbReset_rd (s : State) : (rbReset s).rd = 0 := rfl
@[simp] theorem rbReset_f0 (s : State) : (rbReset s).f0 = s.f0 := rfl
@[simp] theorem rbReset_strat (s : State) : (rbReset s).strat = s.strat := rfl
@[simp] theorem rbReset_len (s : State) : (rbReset s).len = s.len := rfl
@[simp] theorem rbReset_table (s : State) : (rbReset s).table = s.table := rfl
@[simp] theorem rbReset_sumI (s : State) : (rbReset s).sumI = s.sumI := rfl
@[simp] theorem rbReset_sumQ (s : State) : (rbReset s).sumQ = s.sumQ := rfl
@[simp] theorem rbReset_n (s : State) : (rbReset s).n = s.n := rfl
@[simp] theorem rbReset_angle (s : State) : (rbReset s).angle = s.angle := rfl
@[simp] theorem rbReset_ampl (s : State) : (rbReset s).ampl = s.ampl := rfl
@[simp] theorem rbReset_rvalid (s : State) : (rbReset s).rvalid = s.rvalid := rfl
@[simp] theorem rbReset_pin (s : State) : (rbReset s).pin = s.pin := rfl
@[simp] theorem rbReset_phase (s : State) : (rbReset s).phase = s.phase := rfl
@[simp] theorem rbReset_dropcnt (s : State) : (rbReset s).dropcnt = s.dropcnt := rfl
@[simp] theorem rbReset_pseq (s : State) : (rbReset s).pseq = s.pseq := rfl
@[simp] theorem rbReset_pS (s : State) : (rbReset s).pS = s.pS := rfl
@[simp] theorem rbReset_pW (s : State) : (rbReset s).pW = s.pW := rfl
@[simp] theorem rbReset_pR (s : State) : (rbReset s).pR = s.pR := rfl
@[simp] theorem rbReset_cseq (s : State) : (rbReset s).cseq = s.cseq := rfl
@[simp] theorem rbReset_cW (s : State) : (rbReset s).cW = s.cW := rfl
@[simp] theorem rbReset_cR (s : State) : (rbReset s).cR = s.cR := rfl
@[simp] theorem rbReset_cV (s : State) : (rbReset s).cV = s.cV := rfl
@[simp] theorem rbReset_cGot (s : State) : (rbReset s).cGot = s.cGot := rfl
@[simp] theorem rbReset_cLoop (s : State) : (rbReset s).cLoop = s.cLoop := rfl
@[simp] theorem rbReset_pIn (s : State) : (rbReset s).pIn = s.pIn := rfl
@[simp] theorem rbReset_cIn (s : State) : (rbReset s).cIn = s.cIn := rfl
@[simp] theorem rbReset_pOut (s : State) : (rbReset s).pOut = s.pOut := rfl
@[simp] theorem rbReset_cOut (s : State) : (rbReset s).cOut = s.cOut := rfl
@[simp] theorem rbReset_signals (s : State) : (rbReset s).signals = s.signals := rfl
@[simp] theorem rbReset_sched (s : State) : (rbReset s).sched = s.sched := rfl
@[simp] theorem rbReset_lost (s : State) : (rbReset s).lost = s.lost := rfl
@[simp] theorem rbReset_turn (s : State) : (rbReset s).turn = s.turn := rfl
@[simp] theorem rbReset_draw (s : State) : (rbReset s).draw = s.draw := rfl

/-! Answering on the port of an agent, and raising an error there, are the answers of the two ports. -/

@[simp] theorem respond_producer (r : Response) (s : State) : respond .producer r s = respondP r s := rfl

@[simp] theorem respond_consumer (r : Response) (s : State) : respond .consumer r s = respondC r s := rfl

@[simp] theorem raise_producer (e : Status) (s : State) :
    raise .producer e s = respondP { status := e, flag := false, value := 0#24, payload := [] } s := rfl

@[simp] theorem raise_consumer (e : Status) (s : State) :
    raise .consumer e s = respondC { status := e, flag := false, value := 0#24, payload := [] } s := rfl

/-! The ordered loads read the current index (R71). -/

@[simp] theorem loadAcquireWr_eq (s : State) : loadAcquireWr s = s.wr := rfl

@[simp] theorem loadAcquireRd_eq (s : State) : loadAcquireRd s = s.rd := rfl

end Sys2Proof.Machine
end

