-- ==== Sys2Proof/Laws/Meanings.lean ====
section
/-!
SUPPORT. Each meaning at an agent that is free to take it, and at one that is not (R36: a command waits until then).
-/

namespace Sys2Proof.Machine

theorem execPush_ready (x : Sample) {s : State} (idle : s.pseq = .idle) : execPush x s = .next (pLoad x s) :=
  if_pos idle

theorem execPush_waits (x : Sample) {s : State} (busy : s.pseq ≠ .idle) : execPush x s = .next s := if_neg busy

theorem execTick_running (x : Sample) {s : State} (idle : s.pseq = .idle) (phase : s.phase = .running) :
    execTick x s = .next (pLoad x s) := by
  unfold execTick
  rw [if_pos idle, if_pos phase]

theorem execTick_stopped (x : Sample) {s : State} (idle : s.pseq = .idle) (phase : s.phase ≠ .running) :
    execTick x s = .next (respondP (okFlag false) s) := by
  unfold execTick
  rw [if_pos idle, if_neg phase]

theorem execTick_waits (x : Sample) {s : State} (busy : s.pseq ≠ .idle) : execTick x s = .next s := if_neg busy

theorem execPop_ready {s : State} (idle : s.cseq = .idle) : execPop s = .next (cLoad { s with cLoop := false }) :=
  if_pos idle

theorem execConsume_idle (x : Sample) {s : State} (idle : s.cseq = .idle) (phase : s.phase = .idle) :
    execConsume x s = .next (raise .consumer .usageError s) := by
  unfold execConsume
  rw [if_pos idle, if_pos phase]

theorem execConsume_ready (x : Sample) {s : State} (idle : s.cseq = .idle) (phase : s.phase ≠ .idle) :
    execConsume x s = .next (respondC (okFlag (windowCloses s)) (consumeSample x s)) := by
  unfold execConsume
  rw [if_pos idle, if_neg phase]

theorem execStart_idle {s : State} (idle : s.cseq = .idle) (phase : s.phase = .idle) :
    execStart s = .next (raise .consumer .usageError s) := by
  unfold execStart
  rw [if_pos idle, phase]

theorem execStart_configured {s : State} (idle : s.cseq = .idle) (phase : s.phase = .configured) :
    execStart s = .next (respondC (okFlag false) { emit (.timerArm s.cfg.fs) s with phase := .running }) := by
  unfold execStart
  rw [if_pos idle, phase]

theorem execStart_running {s : State} (idle : s.cseq = .idle) (phase : s.phase = .running) :
    execStart s = .next (respondC (okFlag false) s) := by
  unfold execStart
  rw [if_pos idle, phase]

theorem disarm_running {s : State} (h : s.phase = .running) : disarm s = emit .timerDisarm s := if_pos h

theorem disarm_stopped {s : State} (h : s.phase ≠ .running) : disarm s = s := if_neg h

theorem execStop_running {s : State} (idle : s.cseq = .idle) (producer : s.pseq = .idle) (phase : s.phase = .running) :
    execStop s = .next (respondC (okFlag false) { emit .timerDisarm s with phase := .configured }) := by
  unfold execStop
  rw [if_pos ⟨idle, producer⟩, disarm_running phase, phase]

theorem execStop_stopped {s : State} (idle : s.cseq = .idle) (producer : s.pseq = .idle) (phase : s.phase ≠ .running) :
    execStop s = .next (respondC (okFlag false) s) := by
  unfold execStop
  rw [if_pos ⟨idle, producer⟩]
  split
  · next p => exact absurd p phase
  · rfl
  · rfl

theorem execStop_waits {s : State} (busy : s.pseq ≠ .idle) : execStop s = .next s := if_neg (fun h => busy h.2)

theorem execInit_fails (pin : PinId) (strat : Strategy) (f0bits : Word) {s : State} (idle : s.cseq = .idle)
    (producer : s.pseq = .idle) (params : initParams s.cfg strat f0bits = none) :
    execInit pin strat f0bits s = .next (raise .consumer .configError s) := by
  unfold execInit
  rw [if_pos ⟨idle, producer⟩, params]

theorem execInit_ok (pin : PinId) (strat : Strategy) (f0bits : Word) {s : State} {q : Ratio} {l : Nat}
    (idle : s.cseq = .idle) (producer : s.pseq = .idle) (built : builtIn s.cfg strat = true)
    (params : initParams s.cfg strat f0bits = some (q, l)) :
    execInit pin strat f0bits s = .next (respondC (okFlag false) (configure pin strat q l s)) := by
  unfold execInit
  rw [if_pos ⟨idle, producer⟩, params]
  exact if_pos built

theorem execInit_notBuilt (pin : PinId) (strat : Strategy) (f0bits : Word) {s : State} {q : Ratio} {l : Nat}
    (idle : s.cseq = .idle) (producer : s.pseq = .idle) (built : builtIn s.cfg strat = false)
    (params : initParams s.cfg strat f0bits = some (q, l)) :
    execInit pin strat f0bits s = .next (raise .consumer (unbuiltStatus s.cfg strat) s) := by
  unfold execInit
  rw [if_pos ⟨idle, producer⟩, params]
  exact if_neg (by rw [built]; decide)

theorem execInit_waits (pin : PinId) (strat : Strategy) (f0bits : Word) {s : State} (busy : s.pseq ≠ .idle) :
    execInit pin strat f0bits s = .next s := if_neg (fun h => busy h.2)

theorem lEnter_idle {s : State} (phase : s.phase = .idle) : lEnter s = raise .consumer .usageError s := if_pos phase

theorem lEnter_ready {s : State} (phase : s.phase ≠ .idle) :
    lEnter s = gotoC .load { s with cGot := false, cLoop := true } := if_neg phase

theorem execLoop_ready {s : State} (idle : s.cseq = .idle) : execLoop s = .next (lEnter s) := if_pos idle

theorem execRdreg_legal {reg : RegNo} {r : Reg} {s : State} (idle : s.cseq = .idle) (known : regOfNumber reg = some r) :
    execRdreg reg s = .next (answerRead (regResponse (readReg s r)) s) := by
  unfold execRdreg
  rw [if_pos idle, known]

theorem execRdreg_reserved {reg : RegNo} {s : State} (idle : s.cseq = .idle) (unknown : regOfNumber reg = none) :
    execRdreg reg s = .next (raise .consumer .illegalCommand s) := by
  unfold execRdreg
  rw [if_pos idle, unknown]

/-! The micro-steps inside a command. -/

theorem pWrite_of_full {s : State} (h : nextIndex s.cfg s.pW = s.pR) :
    pWrite s = respondP (okFlag false) (countDrop s) := if_pos (decide_eq_true h)

theorem pWrite_of_room {s : State} (h : nextIndex s.cfg s.pW ≠ s.pR) :
    pWrite s = gotoP .publish { s with buf := s.buf.write s.pW s.pS } :=
  if_neg (by simp [fullSeen, h])

theorem cRead_empty {s : State} (h : s.cW = s.cR) (l : s.cLoop = false) : cRead s = respondC (okFlag false) s := by
  unfold cRead
  rw [if_pos h, if_neg (by rw [l]; decide)]

theorem cRead_drained {s : State} (h : s.cW = s.cR) (l : s.cLoop = true) : cRead s = gotoC .done s := by
  unfold cRead
  rw [if_pos h, if_pos l]

theorem cRead_take {s : State} (h : s.cW ≠ s.cR) : cRead s = gotoC .publish { s with cV := readSlot s s.cR } :=
  if_neg h

theorem cPublish_pop {s : State} (l : s.cLoop = false) :
    cPublish s = respondC (popped s.cV) (storeReleaseRd (nextIndex s.cfg s.cR) s) :=
  if_neg (by rw [l]; decide)

theorem cPublish_loop {s : State} (l : s.cLoop = true) :
    cPublish s = gotoC .consume (storeReleaseRd (nextIndex s.cfg s.cR) s) := if_pos l

theorem lConsume_ready {s : State} (phase : s.phase ≠ .idle) :
    lConsume s = gotoC .load { consumeSample s.cV s with cGot := s.cGot || windowCloses s } := if_neg phase

theorem lConsume_idle {s : State} (phase : s.phase = .idle) :
    lConsume s = raise .consumer .usageError { s with cLoop := false } := if_pos phase

theorem consumeSample_open (x : Sample) {s : State} (h : s.n + 1 ≠ s.cfg.window) : consumeSample x s = accumulate x s :=
  if_neg (by simp [windowCloses, h])

theorem consumeSample_close (x : Sample) {s : State} (h : s.n + 1 = s.cfg.window) :
    consumeSample x s = completeWindow (accumulate x s) := if_pos (decide_eq_true h)

end Sys2Proof.Machine
end

