-- ==== Sys2Proof/Laws/Memory.lean ====
section
/-!
SUPPORT. The laws of the memories `BUF` and `TABLE`: reading after writing and after filling, and that every operation keeps
the canonical form.
-/

namespace Sys2Proof.Machine

variable {α : Type}

@[simp] theorem Memory.read_nil (i : Nat) : Memory.read ([] : Memory α) i = none := rfl

theorem Memory.read_cons (a : Nat) (v : α) (m : Memory α) (i : Nat) :
    Memory.read ((a, v) :: m) i = if a = i then some v else Memory.read m i := rfl

@[simp] theorem Memory.wf_nil : Memory.wf ([] : Memory α) := List.Pairwise.nil

/-- A read after a write to the same slot gives the value written. -/
@[simp] theorem Memory.read_write_same (m : Memory α) (i : Nat) (v : α) : (m.write i v).read i = some v := by
  induction m with
  | nil => simp [Memory.write, Memory.read_cons]
  | cons c m ih =>
    obtain ⟨a, x⟩ := c
    simp only [Memory.write]
    split
    · simp [Memory.read_cons]
    · split
      · simp [Memory.read_cons]
      · next h => simp [Memory.read_cons, h, ih]

/-- A write leaves every other slot alone. -/
theorem Memory.read_write_other (m : Memory α) {i j : Nat} (v : α) (h : j ≠ i) : (m.write i v).read j = m.read j := by
  induction m with
  | nil => simp [Memory.write, Memory.read_cons, h.symm]
  | cons c m ih =>
    obtain ⟨a, x⟩ := c
    simp only [Memory.write]
    split
    · simp [Memory.read_cons, h.symm]
    · split
      · next e => subst e; simp [Memory.read_cons, h.symm]
      · simp [Memory.read_cons, ih]

theorem Memory.mem_write {m : Memory α} {i : Nat} {v : α} {c : Nat × α} (h : c ∈ m.write i v) :
    c = (i, v) ∨ c ∈ m := by
  induction m with
  | nil => simpa [Memory.write] using h
  | cons d m ih =>
    obtain ⟨a, x⟩ := d
    simp only [Memory.write] at h
    split at h
    · simpa using h
    · split at h
      · rcases List.mem_cons.mp h with h | h
        · exact .inl h
        · exact .inr (List.mem_cons_of_mem _ h)
      · rcases List.mem_cons.mp h with h | h
        · exact .inr (h ▸ List.mem_cons_self)
        · exact (ih h).imp id (List.mem_cons_of_mem _)

/-- A write keeps the canonical form. -/
theorem Memory.write_wf {m : Memory α} (h : m.wf) (i : Nat) (v : α) : (m.write i v).wf := by
  induction m with
  | nil => simp [Memory.write, Memory.wf]
  | cons d m ih =>
    obtain ⟨a, x⟩ := d
    obtain ⟨hd, hm⟩ := List.pairwise_cons.mp h
    simp only [Memory.write]
    split
    · next lt =>
      refine List.pairwise_cons.mpr ⟨fun c hc => ?_, h⟩
      rcases List.mem_cons.mp hc with rfl | hc
      · exact lt
      · exact lt.trans (hd c hc)
    · split
      · next eq =>
        subst eq
        exact List.pairwise_cons.mpr ⟨hd, hm⟩
      · next nlt ne =>
        refine List.pairwise_cons.mpr ⟨fun c hc => ?_, ih hm⟩
        rcases Memory.mem_write hc with rfl | hc
        · show a < i
          omega
        · exact hd c hc

theorem Memory.read_append (m m' : Memory α) (i : Nat) :
    Memory.read (m ++ m') i = (Memory.read m i).or (Memory.read m' i) := by
  induction m with
  | nil => simp
  | cons c m ih =>
    obtain ⟨a, v⟩ := c
    simp only [List.cons_append, Memory.read_cons, ih]
    split <;> simp

theorem Memory.read_map_range (f : Nat → α) (l i : Nat) :
    Memory.read ((List.range l).map (fun k => (k, f k))) i = if i < l then some (f i) else none := by
  induction l with
  | zero => simp
  | succ l ih =>
    rw [List.range_succ, List.map_append, Memory.read_append, ih]
    by_cases h : i < l
    · simp [h, show i < l + 1 by omega]
    · by_cases e : l = i
      · subst e; simp [Memory.read_cons]
      · simp [Memory.read_cons, h, e, show ¬ i < l + 1 by omega]

theorem Memory.read_filter_ge (m : Memory α) (l i : Nat) :
    Memory.read (m.filter (fun c => decide (l ≤ c.1))) i = if l ≤ i then Memory.read m i else none := by
  induction m with
  | nil => simp
  | cons c m ih =>
    obtain ⟨a, v⟩ := c
    by_cases ha : l ≤ a
    · simp only [List.filter_cons, ha, decide_true, if_true, Memory.read_cons, ih]
      by_cases e : a = i
      · subst e; simp [ha]
      · simp [e]
    · simp only [List.filter_cons, ha, decide_false, Memory.read_cons]
      by_cases e : a = i
      · subst e; simp [ih, ha]
      · simpa [e] using ih

/-- After a fill, a slot below the length holds its entry and every other slot what it held (R200). -/
theorem Memory.read_fill (m : Memory α) (l : Nat) (f : Nat → α) (i : Nat) :
    (m.fill l f).read i = if i < l then some (f i) else m.read i := by
  simp only [Memory.fill, Memory.read_append, Memory.read_map_range, Memory.read_filter_ge]
  by_cases h : i < l
  · simp [h]
  · simp [h, Nat.le_of_not_lt h]

/-- A fill keeps the canonical form. -/
theorem Memory.fill_wf {m : Memory α} (h : m.wf) (l : Nat) (f : Nat → α) : (m.fill l f).wf := by
  refine List.pairwise_append.mpr ⟨?_, List.Pairwise.filter _ h, ?_⟩
  · exact List.pairwise_map.mpr (List.pairwise_lt_range.imp (fun h => h))
  · intro c hc d hd
    obtain ⟨k, hk, rfl⟩ := List.mem_map.mp hc
    have := (List.mem_filter.mp hd).2
    simp only [decide_eq_true_eq] at this
    have := List.mem_range.mp hk
    show k < d.1
    omega

/-- A slot that holds a value is listed. -/
theorem Memory.mem_of_read {m : Memory α} {i : Nat} {v : α} (h : m.read i = some v) : (i, v) ∈ m := by
  induction m with
  | nil => cases h
  | cons c m ih =>
    obtain ⟨a, x⟩ := c
    rw [Memory.read_cons] at h
    split at h
    · next e => cases e; cases h; exact List.mem_cons_self
    · exact List.mem_cons_of_mem _ (ih h)

/-- The memories right after reset keep the canonical form (R40). -/
theorem resetOf_wf (c : Config) : (State.resetOf c).buf.wf ∧ (State.resetOf c).table.wf := ⟨Memory.wf_nil, Memory.wf_nil⟩

end Sys2Proof.Machine
end

