-- ==== Sys2Proof/Laws/Ring.lean ====
section
/-!
SUPPORT. Index arithmetic modulo `C` (R13, R24) and the list of live samples.
-/

namespace Sys2Proof.Machine

theorem nextIndex_lt {c : Config} (h : c.wf) (i : Nat) : nextIndex c i < c.cap :=
  Nat.mod_lt _ (by have := h.2.1; omega)

/-- Below `C` the next index is one more, or 0 after the last. -/
theorem nextIndex_cases {c : Config} {i : Nat} (h : i < c.cap) :
    (i + 1 < c.cap ∧ nextIndex c i = i + 1) ∨ (i + 1 = c.cap ∧ nextIndex c i = 0) := by
  unfold nextIndex
  rcases Nat.lt_or_ge (i + 1) c.cap with lt | ge
  · exact .inl ⟨lt, Nat.mod_eq_of_lt lt⟩
  · have e : i + 1 = c.cap := by omega
    exact .inr ⟨e, by rw [e, Nat.mod_self]⟩

/-- The occupancy without a modulus. -/
theorem occupancy_cases {c : Config} {w r : Nat} (hw : w < c.cap) (hr : r < c.cap) :
    (r ≤ w ∧ occupancy c w r = w - r) ∨ (w < r ∧ occupancy c w r = w + c.cap - r) := by
  unfold occupancy
  rcases Nat.lt_or_ge w r with lt | ge
  · exact .inr ⟨lt, Nat.mod_eq_of_lt (by omega)⟩
  · refine .inl ⟨ge, ?_⟩
    rw [show w + c.cap - r = (w - r) + c.cap by omega, Nat.add_mod_right, Nat.mod_eq_of_lt (by omega)]

/-- R24: `0 <= occupancy <= C-1`. -/
theorem occupancy_lt {c : Config} {w r : Nat} (hw : w < c.cap) (hr : r < c.cap) : occupancy c w r < c.cap := by
  rcases occupancy_cases hw hr with ⟨_, e⟩ | ⟨_, e⟩ <;> omega

/-- R24: empty is `occupancy = 0`. -/
theorem occupancy_eq_zero {c : Config} {w r : Nat} (hw : w < c.cap) (hr : r < c.cap) :
    occupancy c w r = 0 ↔ w = r := by
  rcases occupancy_cases hw hr with ⟨_, e⟩ | ⟨_, e⟩ <;> omega

/-- R24: full is `occupancy = C-1`. -/
theorem nextIndex_eq_iff_full {c : Config} {w r : Nat} (hw : w < c.cap) (hr : r < c.cap) :
    nextIndex c w = r ↔ occupancy c w r + 1 = c.cap := by
  rcases occupancy_cases hw hr with ⟨_, e⟩ | ⟨_, e⟩ <;> rcases nextIndex_cases hw with ⟨_, n⟩ | ⟨_, n⟩ <;> omega

/-- Publishing the write index adds one live sample, unless the ring is full. -/
theorem occupancy_publish {c : Config} {w r : Nat} (hw : w < c.cap) (hr : r < c.cap)
    (h : occupancy c w r + 1 < c.cap) : occupancy c (nextIndex c w) r = occupancy c w r + 1 := by
  have hn : nextIndex c w < c.cap := Nat.mod_lt _ (by omega)
  rcases nextIndex_cases hw with ⟨lt, n⟩ | ⟨lt, n⟩ <;>
  rcases occupancy_cases hw hr with ⟨_, e⟩ | ⟨_, e⟩ <;>
  rcases occupancy_cases hn hr with ⟨_, e'⟩ | ⟨_, e'⟩ <;> omega

/-- Advancing the read index takes one live sample away, unless the ring is empty. -/
theorem occupancy_free {c : Config} {w r : Nat} (hw : w < c.cap) (hr : r < c.cap)
    (h : 0 < occupancy c w r) : occupancy c w (nextIndex c r) + 1 = occupancy c w r := by
  have hn : nextIndex c r < c.cap := Nat.mod_lt _ (by omega)
  rcases nextIndex_cases hr with ⟨lt, n⟩ | ⟨lt, n⟩ <;>
  rcases occupancy_cases hw hr with ⟨_, e⟩ | ⟨_, e⟩ <;>
  rcases occupancy_cases hw hn with ⟨_, e'⟩ | ⟨_, e'⟩ <;> omega

/-- The slot of the `k`-th live sample, without a modulus. -/
theorem slot_cases {c : Config} {r k : Nat} (hr : r < c.cap) (hk : k < c.cap) :
    (r + k < c.cap ∧ (r + k) % c.cap = r + k) ∨ (c.cap ≤ r + k ∧ (r + k) % c.cap = r + k - c.cap) := by
  rcases Nat.lt_or_ge (r + k) c.cap with lt | ge
  · exact .inl ⟨lt, Nat.mod_eq_of_lt lt⟩
  · refine .inr ⟨ge, ?_⟩
    rw [Nat.mod_eq_sub_mod ge, Nat.mod_eq_of_lt (by omega)]

/-- The slot at the write index holds no live sample. -/
theorem slot_ne_write {c : Config} {w r k : Nat} (hw : w < c.cap) (hr : r < c.cap) (hk : k < occupancy c w r) :
    (r + k) % c.cap ≠ w := by
  have := occupancy_lt hw hr
  rcases occupancy_cases hw hr with ⟨_, e⟩ | ⟨_, e⟩ <;>
  rcases slot_cases (k := k) hr (by omega) with ⟨_, s⟩ | ⟨_, s⟩ <;> omega

/-- The slot just past the last live sample is the one at the write index. -/
theorem slot_occupancy {c : Config} {w r : Nat} (hw : w < c.cap) (hr : r < c.cap) :
    (r + occupancy c w r) % c.cap = w := by
  have := occupancy_lt hw hr
  rcases occupancy_cases hw hr with ⟨_, e⟩ | ⟨_, e⟩ <;>
  rcases slot_cases (k := occupancy c w r) hr this with ⟨_, s⟩ | ⟨_, s⟩ <;> omega

/-- Seen from the next read index, every slot comes one earlier. -/
theorem slot_next {c : Config} (r k : Nat) : (nextIndex c r + k) % c.cap = (r + (k + 1)) % c.cap := by
  unfold nextIndex
  rw [Nat.mod_add_mod]
  congr 1
  omega

theorem live_length (s : State) : (live s).length = liveCount s := by simp [live]

/-- `live` is a function of the ring alone. -/
theorem live_congr {s t : State} (hc : t.cfg = s.cfg) (hb : t.buf = s.buf) (hw : t.wr = s.wr) (hr : t.rd = s.rd) :
    live t = live s := by
  simp [live, liveCount, hc, hb, hw, hr]

/-- A write to the slot at the write index does not touch the live samples. -/
theorem live_write {s : State} (hw : s.wr < s.cfg.cap) (hr : s.rd < s.cfg.cap) (v : Sample) :
    live { s with buf := s.buf.write s.wr v } = live s := by
  unfold live liveCount
  refine List.map_congr_left fun k hk => ?_
  exact Memory.read_write_other _ _ (slot_ne_write hw hr (List.mem_range.mp hk))

/-- Publishing the write index appends the sample in that slot. -/
theorem live_publish {s : State} (hw : s.wr < s.cfg.cap) (hr : s.rd < s.cfg.cap) (h : liveCount s + 1 < s.cfg.cap) :
    live { s with wr := nextIndex s.cfg s.wr } = live s ++ [s.buf.read s.wr] := by
  unfold live liveCount at *
  rw [occupancy_publish hw hr h, List.range_succ, List.map_append]
  simp [slot_occupancy hw hr]

/-- Advancing the read index removes the oldest sample. -/
theorem live_free {s : State} (hw : s.wr < s.cfg.cap) (hr : s.rd < s.cfg.cap) (h : 0 < liveCount s) :
    live s = s.buf.read s.rd :: live { s with rd := nextIndex s.cfg s.rd } := by
  unfold live liveCount at *
  rw [← occupancy_free hw hr h, List.range_succ_eq_map, List.map_cons, List.map_map]
  simp only [Nat.add_zero, Nat.mod_eq_of_lt hr]
  congr 1
  refine List.map_congr_left fun k _ => ?_
  simp [slot_next]

/-- The invariant does not speak of the schedule, nor of the arbiter's counter. -/
theorem Inv.reschedule {s : State} (h : Inv s) (sched : List Turn) (turn : Nat) :
    Inv { s with sched := sched, turn := turn } :=
  ⟨⟨h.1.1, h.1.2, h.1.3, h.1.4, h.1.5, h.1.6, h.1.7⟩, ⟨h.2.1, h.2.2, h.2.3, h.2.4, h.2.5⟩, h.3,
    ⟨h.4.1, h.4.2, h.4.3, h.4.4, h.4.5, h.4.6, h.4.7, h.4.8, h.4.9, h.4.10⟩⟩

/-- The invariant does not speak of what waits at the ports. -/
theorem Inv.setPortIn {s : State} (h : Inv s) (a : Agent) (ws : List Word) : Inv (Machine.setPortIn a ws s) := by
  cases a <;>
  exact ⟨⟨h.1.1, h.1.2, h.1.3, h.1.4, h.1.5, h.1.6, h.1.7⟩, ⟨h.2.1, h.2.2, h.2.3, h.2.4, h.2.5⟩, h.3,
    ⟨h.4.1, h.4.2, h.4.3, h.4.4, h.4.5, h.4.6, h.4.7, h.4.8, h.4.9, h.4.10⟩⟩

end Sys2Proof.Machine
end

