-- ==== Sys2Proof/Laws/Moves.lean ====
section
/-!
SUPPORT. Everything a micro-step of an agent can do, said once: `ProducerMove` and `ConsumerMove` list the outcomes, and
the inversion lemmas below are cited instead of unfolding `agentStep`.
-/

namespace Sys2Proof.Machine

/-- The response to an error (R237). -/
def errorResponse (e : Status) : Response := { status := e, flag := false, value := 0#24, payload := [] }

/-- A whole command waits at the agent's port, and `rest` is what waits behind it (R9, R90). -/
def Takes (a : Agent) (s : State) (rest : List Word) : Prop := ∃ cmd, fetchCommand (portIn a s) = some (cmd, rest)

/-- Every next state a turn of the producer can leave. -/
inductive ProducerMove (s : State) : State → Prop
  /-- Nothing enabled, or a command that waits. -/
  | wait : ProducerMove s s
  /-- An illegal command is taken and answered. -/
  | reject (rest : List Word) (idle : s.pseq = .idle) (takes : Takes .producer s rest) :
      ProducerMove s (respondP (errorResponse .illegalCommand) { s with pIn := rest })
  /-- PUSH, or TICK while Running. -/
  | load (x : Sample) (rest : List Word) (idle : s.pseq = .idle) (fits : sampleFits s.cfg x = true)
      (takes : Takes .producer s rest) :
      ProducerMove s (pLoad x { s with pIn := rest })
  /-- TICK while not Running. -/
  | ignore (rest : List Word) (idle : s.pseq = .idle) (phase : s.phase ≠ .running) (takes : Takes .producer s rest) :
      ProducerMove s (respondP (okFlag false) { s with pIn := rest })
  /-- `P_LOAD` held between steps, which no reachable state has. -/
  | reload (seq : s.pseq = .load) : ProducerMove s (pLoad s.pS s)
  | drop (seq : s.pseq = .write) (full : nextIndex s.cfg s.pW = s.pR) :
      ProducerMove s (respondP (okFlag false) (countDrop s))
  | write (seq : s.pseq = .write) (room : nextIndex s.cfg s.pW ≠ s.pR) :
      ProducerMove s (gotoP .publish { s with buf := s.buf.write s.pW s.pS })
  | publish (seq : s.pseq = .publish) : ProducerMove s (pPublish s)

/-- Every next state a turn of the consumer can leave. `b` is the state with the command's words taken off the port. -/
inductive ConsumerMove (s : State) : State → Prop
  | wait : ConsumerMove s s
  /-- An illegal command, a START, LOOP or CONSUME in phase Idle, or an INIT whose checks fail or
  whose strategy is not built. -/
  | reject (rest : List Word) (e : Status) (idle : s.cseq = .idle) (takes : Takes .consumer s rest) :
      ConsumerMove s (respondC (errorResponse e) { s with cIn := rest })
  | pop (rest : List Word) (idle : s.cseq = .idle) (takes : Takes .consumer s rest) :
      ConsumerMove s (cLoad { s with cIn := rest, cLoop := false })
  | consume (x : Sample) (rest : List Word) (idle : s.cseq = .idle) (phase : s.phase ≠ .idle)
      (fits : sampleFits s.cfg x = true) (takes : Takes .consumer s rest) :
      ConsumerMove s
        (respondC (okFlag (windowCloses { s with cIn := rest })) (consumeSample x { s with cIn := rest }))
  /-- START while Running, or STOP while not. -/
  | noop (rest : List Word) (idle : s.cseq = .idle) (takes : Takes .consumer s rest) :
      ConsumerMove s (respondC (okFlag false) { s with cIn := rest })
  | start (rest : List Word) (idle : s.cseq = .idle) (phase : s.phase = .configured) (takes : Takes .consumer s rest) :
      ConsumerMove s
        (respondC (okFlag false) { emit (.timerArm s.cfg.fs) { s with cIn := rest } with phase := .running })
  | stop (rest : List Word) (idle : s.cseq = .idle) (producer : s.pseq = .idle) (phase : s.phase = .running)
      (takes : Takes .consumer s rest) :
      ConsumerMove s
        (respondC (okFlag false) { emit .timerDisarm { s with cIn := rest } with phase := .configured })
  | init (pin : PinId) (strat : Strategy) (f0bits : Word) (q : Ratio) (l : Nat) (cmd rest : List Word)
      (fetch : fetchCommand s.cIn = some (cmd, rest)) (dec : decode s.cfg .consumer cmd = .ok (.init pin strat f0bits))
      (idle : s.cseq = .idle) (producer : s.pseq = .idle) (built : builtIn s.cfg strat = true)
      (params : initParams s.cfg strat f0bits = some (q, l)) (fits : pinFits s.cfg pin = true) :
      ConsumerMove s (respondC (okFlag false) (configure pin strat q l { s with cIn := rest }))
  | enterLoop (rest : List Word) (idle : s.cseq = .idle) (phase : s.phase ≠ .idle) (takes : Takes .consumer s rest) :
      ConsumerMove s (gotoC .load { s with cIn := rest, cGot := false, cLoop := true })
  | read (reg : RegNo) (r : Reg) (rest : List Word) (idle : s.cseq = .idle) (known : regOfNumber reg = some r)
      (takes : Takes .consumer s rest) :
      ConsumerMove s (answerRead (regResponse (readReg { s with cIn := rest } r)) { s with cIn := rest })
  | load (seq : s.cseq = .load) : ConsumerMove s (cLoad s)
  | empty (seq : s.cseq = .read) (eq : s.cW = s.cR) (loop : s.cLoop = false) :
      ConsumerMove s (respondC (okFlag false) s)
  | drained (seq : s.cseq = .read) (eq : s.cW = s.cR) (loop : s.cLoop = true) : ConsumerMove s (gotoC .done s)
  | take (seq : s.cseq = .read) (ne : s.cW ≠ s.cR) :
      ConsumerMove s (gotoC .publish { s with cV := readSlot s s.cR })
  | popDone (seq : s.cseq = .publish) (loop : s.cLoop = false) :
      ConsumerMove s (respondC (popped s.cV) (storeReleaseRd (nextIndex s.cfg s.cR) s))
  | popInLoop (seq : s.cseq = .publish) (loop : s.cLoop = true) :
      ConsumerMove s (gotoC .consume (storeReleaseRd (nextIndex s.cfg s.cR) s))
  /-- `L_ENTER` held between steps, which no reachable state has. -/
  | reenter (seq : s.cseq = .enter) : ConsumerMove s (lEnter s)
  /-- `L_CONSUME` in phase Idle, which no reachable state has. -/
  | consumeIdle (seq : s.cseq = .consume) (phase : s.phase = .idle) :
      ConsumerMove s (respondC (errorResponse .usageError) { s with cLoop := false })
  | consumeInLoop (seq : s.cseq = .consume) (phase : s.phase ≠ .idle) :
      ConsumerMove s (gotoC .load { consumeSample s.cV s with cGot := s.cGot || windowCloses s })
  | done (seq : s.cseq = .done) : ConsumerMove s (lDone s)

/-! An agent in the middle of a command always has its next micro-step enabled (R36, R74). -/

theorem agentStep_write {s : State} (q : s.pseq = .write) : agentStep .producer s = .next (pWrite s) := by
  simp [agentStep, enabled, q, producerStep]

theorem agentStep_publish {s : State} (q : s.pseq = .publish) : agentStep .producer s = .next (pPublish s) := by
  simp [agentStep, enabled, q, producerStep]

theorem agentStep_load {s : State} (q : s.cseq = .load) : agentStep .consumer s = .next (cLoad s) := by
  simp [agentStep, enabled, q, consumerStep]

theorem agentStep_read {s : State} (q : s.cseq = .read) : agentStep .consumer s = .next (cRead s) := by
  simp [agentStep, enabled, q, consumerStep]

theorem agentStep_free {s : State} (q : s.cseq = .publish) : agentStep .consumer s = .next (cPublish s) := by
  simp [agentStep, enabled, q, consumerStep]

theorem agentStep_consume {s : State} (q : s.cseq = .consume) : agentStep .consumer s = .next (lConsume s) := by
  simp [agentStep, enabled, q, consumerStep]

theorem agentStep_done {s : State} (q : s.cseq = .done) : agentStep .consumer s = .next (lDone s) := by
  simp [agentStep, enabled, q, consumerStep]

/-- An idle agent with no whole command waiting lets its turn pass (R244). -/
theorem agentStep_nothing {a : Agent} {s : State}
    (idle : match a with | .producer => s.pseq = .idle | .consumer => s.cseq = .idle)
    (none_waits : fetchCommand (portIn a s) = none) : agentStep a s = .next s := by
  cases a <;> simp_all [agentStep, enabled, canAccept]

/-- A run of `k + 1` micro-steps is one and then `k`. -/
theorem agentRun_next {a : Agent} {s t : State} (h : agentStep a s = .next t) (k : Nat) :
    agentRun a (k + 1) s = agentRun a k t := by
  simp only [agentRun, h]

theorem agentRun_zero (a : Agent) (s : State) : agentRun a 0 s = .next s := rfl

/-- A run of `j + k` micro-steps that begins with a run of `j`. -/
theorem agentRun_add {a : Agent} {j : Nat} {s t : State} (h : agentRun a j s = .next t) (k : Nat) :
    agentRun a (j + k) s = agentRun a k t := by
  induction j generalizing s with
  | zero => cases h; rw [Nat.zero_add]
  | succ j ih =>
    rw [Nat.succ_add]
    simp only [agentRun] at h ⊢
    split at h
    · exact ih h
    · cases h
    · cases h

/-- A run of commands is the first and then the rest. -/
theorem commandRun_cons {a : Agent} {k : Nat} {i : Instr} {is : List Instr} {s t u : State} (h : exec i s = .next t)
    (run : agentRun a k t = .next u) : commandRun a k (i :: is) s = commandRun a k is u := by
  simp only [commandRun, h, run]

/-- The commands of the producer port are PUSH and TICK (R94). -/
theorem decode_producer {c : Config} {cmd : List Word} {i : Instr} (h : decode c .producer cmd = .ok i) :
    (∃ x, i = .push x) ∨ (∃ x, i = .tick x) := by
  have p := (decode_ok_iff.mp h).2
  cases i <;> simp [portOf] at p ⊢

/-- A decoded command belongs to the port it was decoded at (R94). -/
theorem decode_port {c : Config} {a : Agent} {cmd : List Word} {i : Instr} (h : decode c a cmd = .ok i) : portOf i = a :=
  (decode_ok_iff.mp h).2

/-- A turn of the producer does one of its moves. -/
theorem agentStep_producer {s t : State} (h : agentStep .producer s = .next t) : ProducerMove s t := by
  unfold agentStep at h
  split at h
  · dsimp only at h
    unfold producerStep at h
    split at h
    · next idle =>
      unfold takeCommand at h
      split at h
      · cases h; exact .wait
      · next cmd rest f =>
        unfold accept at h
        split at h
        · cases h; exact .reject rest idle ⟨cmd, f⟩
        · next i d =>
          have fits := decode_wellFormed d
          rcases decode_producer d with ⟨x, rfl⟩ | ⟨x, rfl⟩
          · cases (execPush_ready x (s := { s with pIn := rest }) idle).symm.trans h
            exact .load x rest idle fits ⟨cmd, f⟩
          · by_cases p : s.phase = .running
            · cases (execTick_running x (s := { s with pIn := rest }) idle p).symm.trans h
              exact .load x rest idle fits ⟨cmd, f⟩
            · cases (execTick_stopped x (s := { s with pIn := rest }) idle p).symm.trans h
              exact .ignore rest idle p ⟨cmd, f⟩
    · next q => cases h; exact .reload q
    · next q =>
      cases h
      by_cases f : nextIndex s.cfg s.pW = s.pR
      · rw [pWrite_of_full f]; exact .drop q f
      · rw [pWrite_of_room f]; exact .write q f
    · next q => cases h; exact .publish q
  · cases h; exact .wait

/-- A command of the consumer, accepted by an idle consumer, does one of the consumer's moves, or waits with its words
already off the port. The last does not happen in `agentStep`, which lets no such command be taken. -/
theorem exec_consumer {s t : State} {cmd rest : List Word} {i : Instr} (fetch : fetchCommand s.cIn = some (cmd, rest))
    (dec : decode s.cfg .consumer cmd = .ok i) (idle : s.cseq = .idle)
    (ready : holdsForProducer i = true → s.pseq = .idle)
    (h : exec i { s with cIn := rest } = .next t) : ConsumerMove s t := by
  have p := decode_port dec
  have fits := decode_wellFormed dec
  cases i with
  | push x => simp [portOf] at p
  | tick x => simp [portOf] at p
  | pop =>
    cases (execPop_ready (s := { s with cIn := rest }) idle).symm.trans h
    exact .pop rest idle ⟨cmd, fetch⟩
  | consume x =>
    by_cases ph : s.phase = .idle
    · cases (execConsume_idle x (s := { s with cIn := rest }) idle ph).symm.trans h
      exact .reject rest .usageError idle ⟨cmd, fetch⟩
    · cases (execConsume_ready x (s := { s with cIn := rest }) idle ph).symm.trans h
      exact .consume x rest idle ph fits ⟨cmd, fetch⟩
  | init pin strat f0bits =>
    have pi := ready rfl
    cases par : initParams s.cfg strat f0bits with
    | none =>
      cases (execInit_fails pin strat f0bits (s := { s with cIn := rest }) idle pi par).symm.trans h
      exact .reject rest .configError idle ⟨cmd, fetch⟩
    | some ql =>
      cases b : builtIn s.cfg strat
      · cases (execInit_notBuilt pin strat f0bits (s := { s with cIn := rest }) idle pi b par).symm.trans h
        exact .reject rest _ idle ⟨cmd, fetch⟩
      · cases (execInit_ok pin strat f0bits (s := { s with cIn := rest }) idle pi b par).symm.trans h
        exact .init pin strat f0bits _ _ cmd rest fetch dec idle pi b par fits
  | start =>
    cases ph : s.phase
    · cases (execStart_idle (s := { s with cIn := rest }) idle ph).symm.trans h
      exact .reject rest .usageError idle ⟨cmd, fetch⟩
    · cases (execStart_configured (s := { s with cIn := rest }) idle ph).symm.trans h
      exact .start rest idle ph ⟨cmd, fetch⟩
    · cases (execStart_running (s := { s with cIn := rest }) idle ph).symm.trans h
      exact .noop rest idle ⟨cmd, fetch⟩
  | stop =>
    have pi := ready rfl
    by_cases ph : s.phase = .running
    · cases (execStop_running (s := { s with cIn := rest }) idle pi ph).symm.trans h
      exact .stop rest idle pi ph ⟨cmd, fetch⟩
    · cases (execStop_stopped (s := { s with cIn := rest }) idle pi ph).symm.trans h
      exact .noop rest idle ⟨cmd, fetch⟩
  | loop =>
    have e := (execLoop_ready (s := { s with cIn := rest }) idle).symm.trans h
    by_cases ph : s.phase = .idle
    · rw [lEnter_idle (s := { s with cIn := rest }) ph] at e
      cases e
      exact .reject rest .usageError idle ⟨cmd, fetch⟩
    · rw [lEnter_ready (s := { s with cIn := rest }) ph] at e
      cases e
      exact .enterLoop rest idle ph ⟨cmd, fetch⟩
  | rdreg reg =>
    cases k : regOfNumber reg with
    | none =>
      cases (execRdreg_reserved (s := { s with cIn := rest }) idle k).symm.trans h
      exact .reject rest .illegalCommand idle ⟨cmd, fetch⟩
    | some r =>
      cases (execRdreg_legal (s := { s with cIn := rest }) idle k).symm.trans h
      exact .read reg r rest idle k ⟨cmd, fetch⟩

/-- A turn of the consumer does one of its moves. -/
theorem agentStep_consumer {s t : State} (h : agentStep .consumer s = .next t) : ConsumerMove s t := by
  unfold agentStep at h
  split at h
  · next en =>
    dsimp only at h
    unfold consumerStep at h
    split at h
    · next idle =>
      unfold takeCommand at h
      split at h
      · cases h; exact .wait
      · next cmd rest f =>
        unfold accept at h
        split at h
        · cases h; exact .reject rest .illegalCommand idle ⟨cmd, f⟩
        · next i d =>
          replace d : decode s.cfg .consumer cmd = .ok i := d
          refine exec_consumer f d idle ?_ h
          intro hold
          simpa [enabled, idle, canAccept, f, d, hold] using en
    · next q => cases h; exact .load q
    · next q =>
      cases h
      by_cases e : s.cW = s.cR
      · cases l : s.cLoop
        · rw [cRead_empty e l]; exact .empty q e l
        · rw [cRead_drained e l]; exact .drained q e l
      · rw [cRead_take e]; exact .take q e
    · next q =>
      cases h
      cases l : s.cLoop
      · rw [cPublish_pop l]; exact .popDone q l
      · rw [cPublish_loop l]; exact .popInLoop q l
    · next q => cases h; exact .reenter q
    · next q =>
      cases h
      unfold lConsume
      split
      · next ph => exact .consumeIdle q ph
      · next ph => exact .consumeInLoop q ph
    · next q => cases h; exact .done q
  · cases h; exact .wait

/-- A consumer whose next command is a successful INIT takes it. -/
theorem agentStep_takesInit {s : State} (h : takesInit s) :
    ∃ pin strat q l rest, agentStep .consumer s =
      .next (respondC (okFlag false) (configure pin strat q l { s with cIn := rest })) := by
  obtain ⟨idle, producer, cmd, rest, pin, strat, f0bits, fetch, dec, built, params⟩ := h
  obtain ⟨⟨q, l⟩, ok⟩ := Option.isSome_iff_exists.mp params
  refine ⟨pin, strat, q, l, rest, ?_⟩
  have run := execInit_ok pin strat f0bits (s := { s with cIn := rest }) idle producer built ok
  simp only [agentStep, enabled, idle, canAccept, portIn, fetch, dec, producer, consumerStep, takeCommand, accept,
    setPortIn, exec, decide_true, Bool.or_true, if_true]
  simpa only [idle, producer] using run

/-- A turn of the consumer that is no successful INIT is another of its moves. -/
theorem ConsumerMove.not_init {s : State} {pin : PinId} {strat : Strategy} {f0bits : Word} {q : Ratio} {l : Nat}
    {cmd rest : List Word} (no : ¬ takesInit s) (fetch : fetchCommand s.cIn = some (cmd, rest))
    (dec : decode s.cfg .consumer cmd = .ok (.init pin strat f0bits)) (idle : s.cseq = .idle) (producer : s.pseq = .idle)
    (built : builtIn s.cfg strat = true) (params : initParams s.cfg strat f0bits = some (q, l)) : False :=
  no ⟨idle, producer, cmd, rest, pin, strat, f0bits, fetch, dec, built, by rw [params]; rfl⟩

/-- Everything a step can do: a turn of one agent on a state that differs from `s` in the schedule and the arbiter's counter
alone, the arrival of a word, or the reset input. -/
theorem step_moves {s t : State} (h : step s = .next t) :
    t = s ∨
    (∃ sched turn, ProducerMove { s with sched := sched, turn := turn } t) ∨
    (∃ sched turn, ConsumerMove { s with sched := sched, turn := turn } t) ∨
    (∃ a w rest, s.sched = .send a w :: rest ∧ t = setPortIn a (portIn a s ++ [w]) { s with sched := rest }) ∨
    (∃ rest, s.sched = .reset :: rest ∧ t = hardReset { s with sched := rest }) := by
  unfold step stepBy at h
  split at h
  · unfold freeStep at h
    split at h
    · cases a : Config.arbiter s.turn
      · rw [a] at h; exact .inr (.inl ⟨s.sched, s.turn + 1, agentStep_producer h⟩)
      · rw [a] at h; exact .inr (.inr (.inl ⟨s.sched, s.turn + 1, agentStep_consumer h⟩))
    · exact .inr (.inl ⟨s.sched, s.turn, agentStep_producer h⟩)
    · exact .inr (.inr (.inl ⟨s.sched, s.turn, agentStep_consumer h⟩))
    · cases h; exact .inl rfl
  · next a rest _ =>
    cases a
    · exact .inr (.inl ⟨rest, s.turn, agentStep_producer h⟩)
    · exact .inr (.inr (.inl ⟨rest, s.turn, agentStep_consumer h⟩))
  · next a w rest e => cases h; exact .inr (.inr (.inr (.inl ⟨a, w, rest, e, rfl⟩)))
  · next rest e => cases h; exact .inr (.inr (.inr (.inr ⟨rest, e, rfl⟩)))

theorem afterStep_next {s t : State} (h : step s = .next t) : afterStep s = t := by
  rw [afterStep, h]

/-- Before step `k` of a run on an endless schedule the environment's choice is the schedule's. -/
@[simp] theorem runOn_sched (e : Nat → Option Turn) (s : State) (k : Nat) : (runOn e s k).sched = (e k).toList := by
  cases k <;> rfl

theorem runOn_next {e : Nat → Option Turn} {s t : State} {k : Nat} (h : step (runOn e s k) = .next t) :
    runOn e s (k + 1) = { t with sched := (e (k + 1)).toList } := by
  rw [runOn, afterStep_next h]

/-- With no schedule the agent `freeAgent` names moves, the arbiter's counter perhaps advanced. -/
theorem freeStep_some {s : State} {a : Agent} (h : freeAgent s = some a) :
    ∃ turn, freeStep s = agentStep a { s with turn := turn } := by
  cases p : enabled .producer s <;> cases c : enabled .consumer s <;>
    simp only [freeAgent, p, c, reduceCtorEq, Option.some.injEq] at h <;> subst h
  · exact ⟨s.turn, by simp only [freeStep, p, c]⟩
  · exact ⟨s.turn, by simp only [freeStep, p, c]⟩
  · exact ⟨s.turn + 1, by simp only [freeStep, p, c]⟩

/-- With no schedule and nothing enabled, nothing happens (R244). -/
theorem freeStep_none {s : State} (h : freeAgent s = none) : freeStep s = .next s := by
  cases p : enabled .producer s <;> cases c : enabled .consumer s <;>
    simp only [freeAgent, p, c, reduceCtorEq] at h
  simp only [freeStep, p, c]

/-- A step in which some agent has its turn is a turn of that agent, the schedule's entry taken and the arbiter's counter
perhaps advanced. -/
theorem step_turnOf {s : State} {a : Agent} (h : turnOf s = some a) :
    ∃ turn, step s = agentStep a { s with sched := s.sched.tail, turn := turn } := by
  match named : s.sched with
  | [] =>
    simp only [turnOf, named] at h
    obtain ⟨turn, free⟩ := freeStep_some h
    have same : { s with sched := [], turn := turn } = { s with turn := turn } := by rw [← named]
    exact ⟨turn, by simp only [step, stepBy, named, free, List.tail_nil, same]⟩
  | .agent b :: rest =>
    simp only [turnOf, named, Option.some.injEq] at h
    exact ⟨s.turn, by simp only [step, stepBy, named, h, List.tail_cons]⟩
  | .send _ _ :: _ => simp only [turnOf, named, reduceCtorEq] at h
  | .reset :: _ => simp only [turnOf, named, reduceCtorEq] at h

/-- A step in which no agent has its turn is the arrival of a word, the reset input, or nothing. -/
theorem step_noTurn {s : State} (h : turnOf s = none) :
    (s.sched = [] ∧ step s = .next s) ∨
    (∃ a w rest, s.sched = .send a w :: rest ∧
      step s = .next (setPortIn a (portIn a s ++ [w]) { s with sched := rest })) ∨
    (∃ rest, s.sched = .reset :: rest ∧ step s = .next (hardReset { s with sched := rest })) := by
  match named : s.sched with
  | [] =>
    simp only [turnOf, named] at h
    exact .inl ⟨rfl, by simp only [step, stepBy, named, freeStep_none h]⟩
  | .agent _ :: _ => simp only [turnOf, named, reduceCtorEq] at h
  | .send a w :: rest => exact .inr (.inl ⟨a, w, rest, rfl, by simp only [step, stepBy, named]⟩)
  | .reset :: rest => exact .inr (.inr ⟨rest, rfl, by simp only [step, stepBy, named]⟩)

end Sys2Proof.Machine
end

