-- ==== Sys2Proof/Laws/Numbers.lean ====
section
/-!
SUPPORT. What the exact expressions are as real numbers (R5, R7), one lemma per operation, and the entries of the trig
table and the reference angles of the direct strategy.
-/

namespace Sys2Proof.Machine

@[simp] theorem toReal_ofNat (n : Nat) : (NumExpr.ofNat n).toReal = n := rfl

@[simp] theorem toReal_pi : NumExpr.pi.toReal = Real.pi := rfl

@[simp] theorem toReal_add (a b : NumExpr) : (NumExpr.add a b).toReal = a.toReal + b.toReal := rfl

@[simp] theorem toReal_mul (a b : NumExpr) : (NumExpr.mul a b).toReal = a.toReal * b.toReal := rfl

@[simp] theorem toReal_div (a b : NumExpr) : (NumExpr.div a b).toReal = a.toReal / b.toReal := rfl

@[simp] theorem toReal_sin (a : NumExpr) : (NumExpr.sin a).toReal = Real.sin a.toReal := rfl

@[simp] theorem toReal_cos (a : NumExpr) : (NumExpr.cos a).toReal = Real.cos a.toReal := rfl

@[simp] theorem toReal_atan2 (y x : NumExpr) : (NumExpr.atan2 y x).toReal = atan2Real y.toReal x.toReal := rfl

@[simp] theorem toReal_hypot (a b : NumExpr) : (NumExpr.hypot a b).toReal = hypotReal a.toReal b.toReal := rfl

@[simp] theorem toReal_zero : NumExpr.zero.toReal = 0 := Nat.cast_zero

@[simp] theorem toReal_ofSample (x : Sample) : (NumExpr.ofSample x).toReal = (x.toNat : ℝ) := rfl

/-- `TABLE[k] = sin(2π·k / L)` (R141). -/
theorem tableEntry_toReal (l k : Nat) : (tableEntry l k).toReal = Real.sin (2 * Real.pi * k / l) := by
  simp [tableEntry, twoPiTimes]

/-- The reference angle `2π·F0·n / FS` (R144). -/
theorem directAngle_toReal (s : State) (n : Nat) :
    (directAngle s n).toReal = 2 * Real.pi * s.f0.toReal * n / s.cfg.fs := by
  simp [directAngle, twoPiTimes]

/-- `ANGLE` in degrees (R182). -/
theorem angleDeg_toReal (i q : NumExpr) :
    (angleDeg i q).toReal = atan2Real i.toReal q.toReal * 180 / Real.pi := by
  simp [angleDeg]

/-- `AMPL` (R183). -/
theorem amplitude_toReal (c : Config) (i q : NumExpr) :
    (amplitude c i q).toReal = hypotReal i.toReal q.toReal / c.window := by
  simp [amplitude]

/-- A positive `Ratio` is the number its `NumExpr` is (R25). -/
theorem Ratio.toNum_toReal {q : Ratio} (h : q.positive = true) : q.toNum.toReal = q.toReal := by
  simp only [Ratio.positive, Bool.and_eq_true, Bool.not_eq_true'] at h
  simp [Ratio.toNum, Ratio.toReal, h.1]

/-- SINE reads the slot `n mod L` (R142). -/
theorem sine_table {s : State} (h : s.strat = .table) (n : Nat) : sine s n = readTable s (n % s.len) := by
  simp only [sine, h]

/-- COSINE reads the slot a quarter period on, rounded down (R143). -/
theorem cosine_table {s : State} (h : s.strat = .table) (n : Nat) :
    cosine s n = readTable s ((n + s.len / 4) % s.len) := by
  simp only [cosine, h]

theorem sine_direct {s : State} (h : s.strat = .direct) (n : Nat) : sine s n = .sin (directAngle s n) := by
  simp only [sine, h]

theorem cosine_direct {s : State} (h : s.strat = .direct) (n : Nat) : cosine s n = .cos (directAngle s n) := by
  simp only [cosine, h]

/-- A written slot reads as its entry. -/
theorem readTable_of_read {s : State} {i : Nat} {v : NumExpr} (h : s.table.read i = some v) : readTable s i = v := by
  simp only [readTable, h]

end Sys2Proof.Machine
end

