-- ==== Sys2Proof/Laws/PerInstr.lean ====
section
/-!
SUPPORT. The family `EncodeShape`, one lemma per command: the opcode R93 gives it and the number of words R90 gives it.
-/

namespace Sys2Proof.Laws.EncodeShape

/-- The opcode of each command (R93). -/
def opcodeOf : Instr → BitVec 8
  | .push _ => 0x01#8
  | .pop => 0x02#8
  | .consume _ => 0x03#8
  | .tick _ => 0x04#8
  | .init _ _ _ => 0x10#8
  | .start => 0x11#8
  | .stop => 0x12#8
  | .loop => 0x13#8
  | .rdreg _ => 0x20#8

/-- The words of a command: a first word with its opcode, and a payload word exactly when the opcode is 0x10 (R90). -/
def Statement (i : Instr) : Prop :=
  ∃ w ws, encode i = w :: ws ∧ opcode w = opcodeOf i ∧ ws.length = if opcodeOf i = 0x10#8 then 1 else 0

theorem push (x : Sample) : Statement (.push x) := ⟨_, _, rfl, opcode_formS _ x, rfl⟩

theorem pop : Statement .pop := ⟨_, _, rfl, opcode_formZ _, rfl⟩

theorem consume (x : Sample) : Statement (.consume x) := ⟨_, _, rfl, opcode_formS _ x, rfl⟩

theorem tick (x : Sample) : Statement (.tick x) := ⟨_, _, rfl, opcode_formS _ x, rfl⟩

theorem init (pin : PinId) (strat : Strategy) (f0bits : Word) : Statement (.init pin strat f0bits) :=
  ⟨_, _, rfl, opcode_formI _ (stratBit strat) pin, rfl⟩

theorem start : Statement .start := ⟨_, _, rfl, opcode_formZ _, rfl⟩

theorem stop : Statement .stop := ⟨_, _, rfl, opcode_formZ _, rfl⟩

theorem loop : Statement .loop := ⟨_, _, rfl, opcode_formZ _, rfl⟩

theorem rdreg (r : RegNo) : Statement (.rdreg r) := ⟨_, _, rfl, opcode_formR _ r, rfl⟩

end Sys2Proof.Laws.EncodeShape
end

