-- ==== Sys2Proof/Laws/Sessions.lean ====
section
/-!
SUPPORT. What the two large effects do to each register: a CONSUME's `consumeSample` and an INIT's `configure`; the cases of
`dec_num` and of INIT's checks; the invariant over a CONSUME.
-/

namespace Sys2Proof.Machine

@[simp] theorem consumeSample_cfg (x : Sample) (s : State) : (consumeSample x s).cfg = s.cfg := by
  unfold consumeSample
  split <;> rfl

@[simp] theorem consumeSample_buf (x : Sample) (s : State) : (consumeSample x s).buf = s.buf := by
  unfold consumeSample
  split <;> rfl

@[simp] theorem consumeSample_wr (x : Sample) (s : State) : (consumeSample x s).wr = s.wr := by
  unfold consumeSample
  split <;> rfl

@[simp] theorem consumeSample_rd (x : Sample) (s : State) : (consumeSample x s).rd = s.rd := by
  unfold consumeSample
  split <;> rfl

@[simp] theorem consumeSample_f0 (x : Sample) (s : State) : (consumeSample x s).f0 = s.f0 := by
  unfold consumeSample
  split <;> rfl

@[simp] theorem consumeSample_strat (x : Sample) (s : State) : (consumeSample x s).strat = s.strat := by
  unfold consumeSample
  split <;> rfl

@[simp] theorem consumeSample_len (x : Sample) (s : State) : (consumeSample x s).len = s.len := by
  unfold consumeSample
  split <;> rfl

@[simp] theorem consumeSample_table (x : Sample) (s : State) : (consumeSample x s).table = s.table := by
  unfold consumeSample
  split <;> rfl

@[simp] theorem consumeSample_pin (x : Sample) (s : State) : (consumeSample x s).pin = s.pin := by
  unfold consumeSample
  split <;> rfl

@[simp] theorem consumeSample_phase (x : Sample) (s : State) : (consumeSample x s).phase = s.phase := by
  unfold consumeSample
  split <;> rfl

@[simp] theorem consumeSample_dropcnt (x : Sample) (s : State) : (consumeSample x s).dropcnt = s.dropcnt := by
  unfold consumeSample
  split <;> rfl

@[simp] theorem consumeSample_pseq (x : Sample) (s : State) : (consumeSample x s).pseq = s.pseq := by
  unfold consumeSample
  split <;> rfl

@[simp] theorem consumeSample_pS (x : Sample) (s : State) : (consumeSample x s).pS = s.pS := by
  unfold consumeSample
  split <;> rfl

@[simp] theorem consumeSample_pW (x : Sample) (s : State) : (consumeSample x s).pW = s.pW := by
  unfold consumeSample
  split <;> rfl

@[simp] theorem consumeSample_pR (x : Sample) (s : State) : (consumeSample x s).pR = s.pR := by
  unfold consumeSample
  split <;> rfl

@[simp] theorem consumeSample_cseq (x : Sample) (s : State) : (consumeSample x s).cseq = s.cseq := by
  unfold consumeSample
  split <;> rfl

@[simp] theorem consumeSample_cW (x : Sample) (s : State) : (consumeSample x s).cW = s.cW := by
  unfold consumeSample
  split <;> rfl

@[simp] theorem consumeSample_cR (x : Sample) (s : State) : (consumeSample x s).cR = s.cR := by
  unfold consumeSample
  split <;> rfl

@[simp] theorem consumeSample_cV (x : Sample) (s : State) : (consumeSample x s).cV = s.cV := by
  unfold consumeSample
  split <;> rfl

@[simp] theorem consumeSample_cGot (x : Sample) (s : State) : (consumeSample x s).cGot = s.cGot := by
  unfold consumeSample
  split <;> rfl

@[simp] theorem consumeSample_cLoop (x : Sample) (s : State) : (consumeSample x s).cLoop = s.cLoop := by
  unfold consumeSample
  split <;> rfl

@[simp] theorem consumeSample_pIn (x : Sample) (s : State) : (consumeSample x s).pIn = s.pIn := by
  unfold consumeSample
  split <;> rfl

@[simp] theorem consumeSample_cIn (x : Sample) (s : State) : (consumeSample x s).cIn = s.cIn := by
  unfold consumeSample
  split <;> rfl

@[simp] theorem consumeSample_pOut (x : Sample) (s : State) : (consumeSample x s).pOut = s.pOut := by
  unfold consumeSample
  split <;> rfl

@[simp] theorem consumeSample_cOut (x : Sample) (s : State) : (consumeSample x s).cOut = s.cOut := by
  unfold consumeSample
  split <;> rfl

@[simp] theorem consumeSample_signals (x : Sample) (s : State) : (consumeSample x s).signals = s.signals := by
  unfold consumeSample
  split <;> rfl

@[simp] theorem consumeSample_sched (x : Sample) (s : State) : (consumeSample x s).sched = s.sched := by
  unfold consumeSample
  split <;> rfl

@[simp] theorem consumeSample_lost (x : Sample) (s : State) : (consumeSample x s).lost = s.lost := by
  unfold consumeSample
  split <;> rfl

@[simp] theorem consumeSample_turn (x : Sample) (s : State) : (consumeSample x s).turn = s.turn := by
  unfold consumeSample
  split <;> rfl

@[simp] theorem consumeSample_draw (x : Sample) (s : State) : (consumeSample x s).draw = s.draw := by
  unfold consumeSample
  split <;> rfl

/-- `N` after a CONSUME (R180, R181). -/
theorem consumeSample_n (x : Sample) (s : State) :
    (consumeSample x s).n = if windowCloses s then 0 else s.n + 1 := by
  unfold consumeSample
  split <;> rfl

/-- `RVALID` after a CONSUME (R181). -/
theorem consumeSample_rvalid (x : Sample) (s : State) : (consumeSample x s).rvalid = (windowCloses s || s.rvalid) := by
  unfold consumeSample
  split
  · next h => rw [h]; rfl
  · next h => rw [Bool.not_eq_true] at h; rw [h]; rfl

variable (pin : PinId) (strat : Strategy) (q : Ratio) (l : Nat) (s : State)

@[simp] theorem configure_pin : (configure pin strat q l s).pin = pin := by cases strat <;> rfl

@[simp] theorem configure_f0 : (configure pin strat q l s).f0 = q.toNum := by cases strat <;> rfl

@[simp] theorem configure_strat : (configure pin strat q l s).strat = strat := by cases strat <;> rfl

@[simp] theorem configure_wr : (configure pin strat q l s).wr = 0 := rfl

@[simp] theorem configure_rd : (configure pin strat q l s).rd = 0 := rfl

@[simp] theorem configure_sumI : (configure pin strat q l s).sumI = NumExpr.zero := rfl

@[simp] theorem configure_sumQ : (configure pin strat q l s).sumQ = NumExpr.zero := rfl

@[simp] theorem configure_n : (configure pin strat q l s).n = 0 := rfl

@[simp] theorem configure_rvalid : (configure pin strat q l s).rvalid = false := rfl

@[simp] theorem configure_dropcnt : (configure pin strat q l s).dropcnt = 0 := rfl

@[simp] theorem configure_phase : (configure pin strat q l s).phase = .configured := rfl

@[simp] theorem configure_cfg : (configure pin strat q l s).cfg = s.cfg := by
  unfold configure disarm
  cases strat <;> split <;> rfl

@[simp] theorem configure_buf : (configure pin strat q l s).buf = s.buf := by
  unfold configure disarm
  cases strat <;> split <;> rfl

@[simp] theorem configure_angle : (configure pin strat q l s).angle = s.angle := by
  unfold configure disarm
  cases strat <;> split <;> rfl

@[simp] theorem configure_ampl : (configure pin strat q l s).ampl = s.ampl := by
  unfold configure disarm
  cases strat <;> split <;> rfl

@[simp] theorem configure_pseq : (configure pin strat q l s).pseq = s.pseq := by
  unfold configure disarm
  cases strat <;> split <;> rfl

@[simp] theorem configure_pS : (configure pin strat q l s).pS = s.pS := by
  unfold configure disarm
  cases strat <;> split <;> rfl

@[simp] theorem configure_pW : (configure pin strat q l s).pW = s.pW := by
  unfold configure disarm
  cases strat <;> split <;> rfl

@[simp] theorem configure_pR : (configure pin strat q l s).pR = s.pR := by
  unfold configure disarm
  cases strat <;> split <;> rfl

@[simp] theorem configure_cseq : (configure pin strat q l s).cseq = s.cseq := by
  unfold configure disarm
  cases strat <;> split <;> rfl

@[simp] theorem configure_cW : (configure pin strat q l s).cW = s.cW := by
  unfold configure disarm
  cases strat <;> split <;> rfl

@[simp] theorem configure_cR : (configure pin strat q l s).cR = s.cR := by
  unfold configure disarm
  cases strat <;> split <;> rfl

@[simp] theorem configure_cV : (configure pin strat q l s).cV = s.cV := by
  unfold configure disarm
  cases strat <;> split <;> rfl

@[simp] theorem configure_cGot : (configure pin strat q l s).cGot = s.cGot := by
  unfold configure disarm
  cases strat <;> split <;> rfl

@[simp] theorem configure_cLoop : (configure pin strat q l s).cLoop = s.cLoop := by
  unfold configure disarm
  cases strat <;> split <;> rfl

@[simp] theorem configure_pIn : (configure pin strat q l s).pIn = s.pIn := by
  unfold configure disarm
  cases strat <;> split <;> rfl

@[simp] theorem configure_cIn : (configure pin strat q l s).cIn = s.cIn := by
  unfold configure disarm
  cases strat <;> split <;> rfl

@[simp] theorem configure_pOut : (configure pin strat q l s).pOut = s.pOut := by
  unfold configure disarm
  cases strat <;> split <;> rfl

@[simp] theorem configure_cOut : (configure pin strat q l s).cOut = s.cOut := by
  unfold configure disarm
  cases strat <;> split <;> rfl

@[simp] theorem configure_sched : (configure pin strat q l s).sched = s.sched := by
  unfold configure disarm
  cases strat <;> split <;> rfl

@[simp] theorem configure_lost : (configure pin strat q l s).lost = s.lost := by
  unfold configure disarm
  cases strat <;> split <;> rfl

@[simp] theorem configure_turn : (configure pin strat q l s).turn = s.turn := by
  unfold configure disarm
  cases strat <;> split <;> rfl

@[simp] theorem configure_draw : (configure pin strat q l s).draw = s.draw := by
  unfold configure disarm
  cases strat <;> split <;> rfl

/-- `L` after a successful INIT (R141). -/
@[simp] theorem configure_len :
    (configure pin strat q l s).len = (match strat with | .table => l | .direct => 0) := by
  cases strat <;> rfl

/-- `TABLE` after a successful INIT (R141). -/
@[simp] theorem configure_table :
    (configure pin strat q l s).table =
      (match strat with | .table => s.table.fill l (tableEntry l) | .direct => s.table) := by
  unfold configure disarm
  cases strat <;> split <;> rfl

/-- The signals of a successful INIT (R200, R240). -/
@[simp] theorem configure_signals :
    (configure pin strat q l s).signals =
      s.signals ++ (if s.phase = .running then [.timerDisarm] else []) ++ [.adcConfig pin s.cfg.sampleBits] := by
  unfold configure disarm
  cases strat <;> split <;> simp [emit, trigCfg, rbReset]

/-! The three shapes of a binary32 word (R97). -/

theorem decNum_invalid {b : Word} (h : (b.extractLsb' 23 8).toNat = 255) : decNum b = none := if_pos h

theorem decNum_subnormal {b : Word} (h : (b.extractLsb' 23 8).toNat = 0) :
    decNum b = some { neg := b.msb, num := (b.extractLsb' 0 23).toNat, den := 2 ^ 149 } := by
  unfold decNum
  rw [if_neg (by omega), if_pos h]

theorem decNum_normal {b : Word} (h : (b.extractLsb' 23 8).toNat ≠ 255) (h0 : (b.extractLsb' 23 8).toNat ≠ 0) :
    decNum b = some
      { neg := b.msb, num := (2 ^ 23 + (b.extractLsb' 0 23).toNat) * 2 ^ ((b.extractLsb' 23 8).toNat - 150)
        den := 2 ^ (150 - (b.extractLsb' 23 8).toNat) } := by
  unfold decNum
  rw [if_neg h, if_neg h0]

/-- The denominator of a decoded number is positive (R97). -/
theorem decNum_den {b : Word} {q : Ratio} (h : decNum b = some q) : 0 < q.den := by
  by_cases inv : (b.extractLsb' 23 8).toNat = 255
  · rw [decNum_invalid inv] at h; cases h
  · by_cases sub : (b.extractLsb' 23 8).toNat = 0
    · rw [decNum_subnormal sub] at h; rw [← Option.some.inj h]; exact Nat.two_pow_pos 149
    · rw [decNum_normal inv sub] at h; rw [← Option.some.inj h]; exact Nat.two_pow_pos _

/-- What the checks of INIT grant (R200 step 1). -/
theorem checkFrequency_some {c : Config} {strat : Strategy} {o : Option Ratio} {q : Ratio} {l : Nat}
    (h : checkFrequency c strat o = some (q, l)) :
    o = some q ∧ q.positive = true ∧
      (strat = .table → l = tableLength c q ∧ Config.lmin ≤ l ∧ l ≤ c.lmax) ∧ (strat = .direct → l = 0) := by
  cases o with
  | none => cases h
  | some r =>
    cases pos : r.positive
    · simp [checkFrequency, pos] at h
    · cases strat
      · by_cases bounds : Config.lmin ≤ tableLength c r ∧ tableLength c r ≤ c.lmax
        · simp only [checkFrequency, pos, if_true, if_pos bounds, Option.some.injEq, Prod.mk.injEq] at h
          obtain ⟨rfl, rfl⟩ := h
          exact ⟨rfl, pos, fun _ => ⟨rfl, bounds⟩, nofun⟩
        · simp [checkFrequency, pos, bounds] at h
      · simp only [checkFrequency, pos, if_true, Option.some.injEq, Prod.mk.injEq] at h
        obtain ⟨rfl, rfl⟩ := h
        exact ⟨rfl, pos, nofun, fun _ => rfl⟩

/-- When the checks of INIT fail (R200 step 1, R231). -/
theorem checkFrequency_none {c : Config} {strat : Strategy} {o : Option Ratio} :
    checkFrequency c strat o = none ↔
      ∀ q, o = some q → q.positive = true →
        strat = .table ∧ ¬ (Config.lmin ≤ tableLength c q ∧ tableLength c q ≤ c.lmax) := by
  cases o with
  | none => simp [checkFrequency]
  | some q => cases strat <;> cases h : q.positive <;> simp [checkFrequency, h]

/-- A step that leaves the ring, the table and the trig source alone keeps the invariant if it keeps its parts about the
counters and the sequencers. -/
theorem Inv.of_ring {s t : State} (h : Inv s) (cfg : t.cfg = s.cfg) (buf : t.buf = s.buf) (wr : t.wr = s.wr)
    (rd : t.rd = s.rd) (n : t.n < s.cfg.window) (len : t.len = s.len) (table : t.table = s.table)
    (dropcnt : t.dropcnt < 2 ^ s.cfg.dropBits) (pin : t.pin = s.pin) (f0 : t.f0 = s.f0) (strat : t.strat = s.strat)
    (phase : t.phase ≠ .idle → s.phase ≠ .idle) (seq : SequencersOk t) : Inv t := by
  refine ⟨⟨?_, ?_, ?_, ?_, ?_, ?_, ?_⟩, ⟨?_, ?_, ?_, ?_, ?_⟩, ?_, seq⟩
  · rw [cfg]; exact h.counters.cfg
  · rw [cfg, wr]; exact h.counters.wr
  · rw [cfg, rd]; exact h.counters.rd
  · rw [cfg]; exact n
  · rw [cfg, len]; exact h.counters.len
  · rw [cfg]; exact dropcnt
  · rw [cfg, pin]; exact h.counters.pin
  · rw [buf]; exact h.memories.buf
  · rw [buf, cfg]; exact h.memories.bufRange
  · rw [table]; exact h.memories.table
  · rw [table, cfg]; exact h.memories.tableRange
  · rw [live_congr cfg buf wr rd]; exact h.memories.live
  · intro p
    have := h.trig (phase p)
    rwa [f0, strat, len, table, cfg]

/-- `N` stays below `W` (R30). -/
theorem consumeSample_n_lt (x : Sample) {s : State} (h : s.n < s.cfg.window) : (consumeSample x s).n < s.cfg.window := by
  by_cases w : s.n + 1 = s.cfg.window
  · rw [consumeSample_close x w]; exact Nat.zero_lt_of_lt h
  · rw [consumeSample_open x w]; exact lt_of_le_of_ne h w

/-- A CONSUME keeps the invariant, whatever its sample: no register holds it (R180). -/
theorem Inv.consume {s : State} (h : Inv s) (x : Sample) (r : Response) :
    Inv (respondC r (consumeSample x s)) := by
  refine h.of_ring (by simp) (by simp) (by simp) (by simp) ?_ (by simp) (by simp) (by simpa using h.counters.dropcnt)
    (by simp) (by simp) (by simp) (by simp) ?_
  · rw [respondC_n]; exact consumeSample_n_lt x h.counters.n
  · constructor <;> simp [liveCount]
    · exact h.sequencers.notLoad
    · exact h.sequencers.write
    · exact h.sequencers.publish

end Sys2Proof.Machine
end

