-- ==== Sys2Proof/Machine/Assembler.lean ====
section
/-!
DEFINITION. The text form of commands and responses (R100, R101). Text is handled as a list of characters.
-/

namespace Sys2Proof.Machine

/-- Text without the blanks at its front. -/
def dropBlanks : List Char → List Char
  | ' ' :: rest => dropBlanks rest
  | text => text

/-- Text without the blanks at both ends. -/
def trimBlanks (text : List Char) : List Char := (dropBlanks (dropBlanks text).reverse).reverse

/-- The operands of a line: text cut at commas, each without its outer blanks; blank text has no operand. -/
def operandTexts (text : List Char) : List (List Char) :=
  if dropBlanks text = [] then []
  else
    (text.foldr
      (fun c acc =>
        match acc with
        | [] => [[c]]
        | cur :: done => if c = ',' then [] :: cur :: done else (c :: cur) :: done)
      [[]]).map trimBlanks

/-- The value of a digit in a base up to 16. -/
def digitValue (base : Nat) (c : Char) : Option Nat :=
  let v :=
    if '0' ≤ c ∧ c ≤ '9' then c.toNat - '0'.toNat
    else if 'a' ≤ c ∧ c ≤ 'f' then 10 + (c.toNat - 'a'.toNat)
    else if 'A' ≤ c ∧ c ≤ 'F' then 10 + (c.toNat - 'A'.toNat)
    else 16
  if v < base then some v else none

/-- Digits in a base, continuing from a value. -/
def digitsValue (base : Nat) : Nat → List Char → Option Nat
  | acc, [] => some acc
  | acc, c :: rest =>
    match digitValue base c with
    | none => none
    | some d => digitsValue base (base * acc + d) rest

/-- An integer, decimal or `0x` hexadecimal (R100). -/
def parseNat : List Char → Option Nat
  | [] => none
  | '0' :: 'x' :: c :: rest => digitsValue 16 0 (c :: rest)
  | text => digitsValue 10 0 text

/-- A decimal literal, with a sign if it is negative (R100). -/
def parseDecimal (text : List Char) : Option ℚ :=
  let neg := text.head? = some '-'
  let body := if neg then text.drop 1 else text
  let whole := body.takeWhile (· ≠ '.')
  let frac := (body.dropWhile (· ≠ '.')).drop 1
  match parseNat whole, digitsValue 10 0 frac with
  | some w, some f =>
    let magnitude : ℚ := w + f / 10 ^ frac.length
    some (if neg then -magnitude else magnitude)
  | _, _ => none

/-- The binary32 word of a decimal literal, rounded to nearest, ties to even (R97, R100); none if it is too large. -/
def f0Word (q : ℚ) : Option Word :=
  let w := encodeNum (fun _ => 0x7F800000#32) q
  if w = 0x7F800000#32 then none else some w

/-- The register numbers by name (R39). -/
def regNames : List (String × RegNo) :=
  [ ("STATUS", 0x00#8), ("WR", 0x01#8), ("RD", 0x02#8), ("N", 0x03#8), ("L", 0x04#8), ("PIN", 0x05#8),
    ("DROPCNT", 0x06#8), ("F0", 0x08#8), ("SUMI", 0x09#8), ("SUMQ", 0x0A#8), ("ANGLE", 0x0B#8), ("AMPL", 0x0C#8) ]

/-- A register operand: its name or its number (R100). -/
def parseReg (text : List Char) : Option RegNo :=
  match regNames.find? (fun p => p.1.toList = text) with
  | some p => some p.2
  | none =>
    match parseNat text with
    | some n => if n < 256 then some (BitVec.ofNat 8 n) else none
    | none => none

/-- A sample operand, `0..SMAX` (R92, R100). -/
def parseSample (c : Config) (text : List Char) : Option Sample :=
  match parseNat text with
  | some n => if n ≤ c.smax ∧ n < 2 ^ 24 then some (BitVec.ofNat 24 n) else none
  | none => none

/-- A pin operand, as wide as the instance's PinId (R92, R100). -/
def parsePin (c : Config) (text : List Char) : Option PinId :=
  match parseNat text with
  | some n => if n < 2 ^ c.pinBits ∧ n < 2 ^ 8 then some (BitVec.ofNat 8 n) else none
  | none => none

/-- The strategy word (R100). -/
def parseStrategy (text : List Char) : Option Strategy :=
  if text = "TABLE".toList then some .table else if text = "DIRECT".toList then some .direct else none

/-- INIT's three operands (R100). -/
def parseInit (c : Config) (pin f0 strat : List Char) : Option Instr :=
  match parsePin c pin, parseDecimal f0, parseStrategy strat with
  | some p, some q, some st => (f0Word q).map (fun w => Instr.init p st w)
  | _, _, _ => none

/-- A line without its port tag (R100). -/
def assembleInstr (c : Config) (line : List Char) : Option Instr :=
  let text := dropBlanks line
  let mnemonic := text.takeWhile (· ≠ ' ')
  let operands := operandTexts (text.dropWhile (· ≠ ' '))
  match operands with
  | [] =>
    if mnemonic = "POP".toList then some .pop
    else if mnemonic = "START".toList then some .start
    else if mnemonic = "STOP".toList then some .stop
    else if mnemonic = "LOOP".toList then some .loop
    else none
  | [x] =>
    if mnemonic = "PUSH".toList then (parseSample c x).map Instr.push
    else if mnemonic = "TICK".toList then (parseSample c x).map Instr.tick
    else if mnemonic = "CONSUME".toList then (parseSample c x).map Instr.consume
    else if mnemonic = "RDREG".toList then (parseReg x).map Instr.rdreg
    else none
  | [pin, f0, strat] => if mnemonic = "INIT".toList then parseInit c pin f0 strat else none
  | _ => none

/-- A line of a program (R100): the port its tag names, if it has one, and the command's words. -/
def assemble (c : Config) (line : String) : Option (Option Agent × List Word) :=
  match dropBlanks line.toList with
  | 'P' :: ':' :: rest => (assembleInstr c (trimBlanks rest)).map (fun i => (some .producer, encode i))
  | 'C' :: ':' :: rest => (assembleInstr c (trimBlanks rest)).map (fun i => (some .consumer, encode i))
  | text => (assembleInstr c (trimBlanks text)).map (fun i => (none, encode i))

/-- The name of a `STATUS` code (R230). -/
def Status.text : Status → String
  | .ok => "OK"
  | .configError => "CONFIG_ERROR"
  | .usageError => "USAGE_ERROR"
  | .illegalCommand => "ILLEGAL_COMMAND"

/-- The text of a response (R100), every optional part written, words in decimal (log 10). -/
def responseText (enc : NumExpr → Word) (r : Response) : String :=
  (r.payload.map (Payload.bits enc)).foldl (fun text w => text ++ ", " ++ toString w.toNat)
    ("-> " ++ r.status.text ++ ", FLAG=" ++ (if r.flag then "1" else "0") ++ ", VALUE=" ++ toString r.value.toNat)

end Sys2Proof.Machine
end

