-- ==== Sys2Proof/Tests/Slice0.lean ====
section
/-!
SUPPORT. Tests: expected results are words and values written out from `spec/30_encoding.md` and
`spec/95_test_vectors.md`; and, for every obligation with hypotheses, a state and operands that meet them.
-/

namespace Sys2Proof.Machine.Tests

/-! ## WellFormed and Decode -/

theorem test_illFormed_reserved_registers :
    (Instr.rdreg 0x07#8).wellFormed Config.reference = false ∧ (Instr.rdreg 0x0D#8).wellFormed Config.reference = false ∧
    (Instr.rdreg 0xFF#8).wellFormed Config.reference = false ∧ (Instr.rdreg 0x06#8).wellFormed Config.reference = true ∧
    (Instr.rdreg 0x08#8).wellFormed Config.reference = true ∧ (Instr.rdreg 0x0C#8).wellFormed Config.reference = true := by decide

/-- The text of a decode result, for tests. -/
def decoded (a : Agent) (ws : List Word) : Option Instr :=
  match decode Config.reference a ws with
  | .ok i => some i
  | .error _ => none

/-- The reason a word is refused, for tests. -/
def refusedFor (a : Agent) (ws : List Word) : Option DecodeError :=
  match decode Config.reference a ws with
  | .ok _ => none
  | .error e => some e

/-- V-E1. -/
theorem test_decode_producer_words :
    decoded .producer [0x01000FFF#32] = some (.push 4095#24) ∧ decoded .producer [0x01000000#32] = some (.push 0#24) ∧
    decoded .producer [0x04000800#32] = some (.tick 2048#24) ∧
    refusedFor .producer [0x01001000#32] = some .reservedBits ∧
    refusedFor .producer [0x02000000#32] = some .wrongPort ∧
    refusedFor .producer [0x10000022#32, 0x42480000#32] = some .wrongPort := by decide

/-- V-E1. -/
theorem test_decode_consumer_words :
    decoded .consumer [0x02000000#32] = some .pop ∧ decoded .consumer [0x03000800#32] = some (.consume 2048#24) ∧
    decoded .consumer [0x11000000#32] = some .start ∧ decoded .consumer [0x12000000#32] = some .stop ∧
    decoded .consumer [0x13000000#32] = some .loop ∧ decoded .consumer [0x20000000#32] = some (.rdreg 0x00#8) ∧
    decoded .consumer [0x2000000B#32] = some (.rdreg 0x0B#8) ∧
    decoded .consumer [0x10000022#32, 0x42480000#32] = some (.init 34#8 .table 0x42480000#32) ∧
    decoded .consumer [0x10000107#32, 0x40000000#32] = some (.init 7#8 .direct 0x40000000#32) := by decide

/-- V-E1. -/
theorem test_refused_consumer_words :
    refusedFor .consumer [0x01000005#32] = some .wrongPort ∧ refusedFor .consumer [0x02000001#32] = some .reservedBits ∧
    refusedFor .consumer [0x20000007#32] = some .reservedRegister ∧
    refusedFor .consumer [0x2000000D#32] = some .reservedRegister ∧
    refusedFor .consumer [0x20000100#32] = some .reservedBits ∧
    refusedFor .consumer [0x00000000#32] = some .unknownOpcode ∧
    refusedFor .consumer [0xFF000000#32] = some .unknownOpcode ∧
    refusedFor .consumer [0x05000000#32] = some .unknownOpcode ∧
    refusedFor .consumer [0x10000200#32, 0x42480000#32] = some .reservedBits := by decide

/-- An instance with 10-bit Samples and 4-bit PinIds. -/
def narrow : Config := { Config.reference with sampleBits := 10, pinBits := 4 }

/-- R92: bits above `SAMPLE_BITS` up to bit 23 are reserved; and an operand too wide for the instance is ill formed. -/
theorem test_narrow_operands :
    (Instr.push 1024#24).wellFormed narrow = false ∧ (Instr.init 16#8 .table 0#32).wellFormed narrow = false ∧
    decode narrow .producer [0x010003FF#32] = .ok (.push 1023#24) ∧
    decode narrow .producer [0x01000400#32] = .error .reservedBits ∧
    decode narrow .consumer [0x10000010#32, 0#32] = .error .reservedBits := ⟨by decide, by decide, rfl, rfl, rfl⟩

/-- An instance with 13-bit Samples and 10-bit PinIds. -/
def wide : Config := { Config.reference with sampleBits := 13, pinBits := 10 }

/-- R92: the sample field is `SAMPLE_BITS` wide, up to bit 23. -/
theorem test_wide_operands :
    decode wide .producer [0x01001000#32] = .ok (.push 4096#24) ∧
    decode wide .consumer [0x03002000#32] = .error .reservedBits ∧
    decode wide .consumer [0x100000FF#32, 0#32] = .ok (.init 255#8 .table 0#32) ∧
    decode { wide with sampleBits := 24 } .producer [0x04FFFFFF#32] = .ok (.tick 0xFFFFFF#24) ∧
    opcodeTable { wide with sampleBits := 24, pinBits := 8 } = opcodeTable { wide with sampleBits := 30 } :=
  ⟨rfl, rfl, rfl, rfl, by decide⟩

/-- The fixed bits of `spec/opcode_table.json`. -/
theorem test_opcodeTable_masks :
    (opcodeTable Config.reference).map (·.mask) =
      [0xFFFFF000#32, 0xFFFFFFFF#32, 0xFFFFF000#32, 0xFFFFF000#32, 0xFFFFFE00#32, 0xFFFFFFFF#32, 0xFFFFFFFF#32,
        0xFFFFFFFF#32, 0xFFFFFF00#32] := by decide

/-- No word has the fixed bits of two rows of the opcode table. -/
theorem test_opcodeTable_rows_disjoint :
    (opcodeTable Config.reference).Pairwise (fun r r' => r.pattern &&& r'.mask &&& r.mask ≠ r'.pattern &&& r.mask) := by decide

/-- The table's numbering: an operand the table gives no bits reads as 0 (the frequency of INIT). -/
theorem test_decodeTableWord :
    decodeTableWord 32 0x01000005 = some (.push 5#24) ∧ decodeTableWord 32 0x04000005 = some (.tick 5#24) ∧
    decodeTableWord 32 0x10000022 = some (.init 34#8 .table 0#32) ∧
    decodeTableWord 64 0x4248000010000022 = some (.init 34#8 .table 0x42480000#32) ∧
    decodeTableWord 32 0x02000000 = some .pop ∧ decodeTableWord 32 0x20000003 = some (.rdreg 3#8) ∧
    decodeTableWord 32 0x2000000D = none := by decide

/-- R61: 0x12345678 travels as 78 56 34 12. -/
theorem test_wordBytes : wordBytes 0x12345678#32 = [0x78#8, 0x56#8, 0x34#8, 0x12#8] := by decide

/-! ## Numbers at the port: V-E2 -/

theorem test_decNum :
    decNum 0x42480000#32 = some { neg := false, num := 50 * 2 ^ 18, den := 2 ^ 18 } ∧
    decNum 0x449C4000#32 = some { neg := false, num := 1250 * 2 ^ 13, den := 2 ^ 13 } ∧
    decNum 0xBF800000#32 = some { neg := true, num := 2 ^ 23, den := 2 ^ 23 } ∧
    decNum 0x00000001#32 = some { neg := false, num := 1, den := 2 ^ 149 } ∧
    decNum 0x7F7FFFFF#32 = some { neg := false, num := (2 ^ 24 - 1) * 2 ^ 104, den := 1 } ∧
    decNum 0x7F800000#32 = none ∧ decNum 0xFF800000#32 = none ∧ decNum 0x7FC00000#32 = none := by decide +kernel

/-- The encoding over the rationals, where it can be evaluated. -/
theorem test_encodeNum :
    encodeNum (K := ℚ) (fun _ => 0#32) 0 = 0x00000000#32 ∧ encodeNum (K := ℚ) (fun _ => 0#32) 5 = 0x40A00000#32 ∧
    encodeNum (K := ℚ) (fun _ => 0#32) (-90) = 0xC2B40000#32 ∧
    encodeNum (K := ℚ) (fun _ => 0#32) 2048 = 0x45000000#32 ∧
    encodeNum (K := ℚ) (fun _ => 0#32) (5000211044864 / 10 ^ 10) = 0x43FA02B4#32 ∧
    encodeNum (K := ℚ) (fun _ => 0#32) (25001055224319 / 10 ^ 7) = 0x4A189826#32 ∧
    encodeNum (K := ℚ) (fun _ => 0#32) (499 / 10) = 0x4247999A#32 ∧
    encodeNum (K := ℚ) (fun _ => 0#32) (1 / 2 ^ 149) = 0x00000001#32 := by decide +kernel

/-! ## INIT's checks: V24 -/

/-- The new `L`, if the checks pass. -/
def newLength (strat : Strategy) (f0bits : Word) : Option Nat := (initParams Config.reference strat f0bits).map (·.2)

theorem test_init_tableLengths :
    newLength .table 0x449C4000#32 = some 4 ∧ newLength .table 0x449C4001#32 = none ∧
    newLength .table 0x3F800000#32 = some 5000 ∧ newLength .table 0x3F7FF972#32 = some 5000 ∧
    newLength .table 0x3F7FBE77#32 = none ∧ newLength .table 0x44FA0000#32 = none ∧
    newLength .table 0x42700000#32 = some 83 ∧ newLength .table 0x00000001#32 = none := by decide +kernel

theorem test_init_directChecks :
    newLength .direct 0x449C4001#32 = some 0 ∧ newLength .direct 0x44FA0000#32 = some 0 ∧
    newLength .direct 0x00000000#32 = none ∧ newLength .direct 0x80000000#32 = none ∧
    newLength .direct 0xBF800000#32 = none ∧ newLength .direct 0x7F800000#32 = none ∧
    newLength .direct 0x7FC00000#32 = none ∧ newLength .direct 0x00000001#32 = some 0 := by decide +kernel

/-! ## Small states -/

/-- The next state, if there is one. -/
def nextOf : Host.Outcome State Fault Refusal → Option State
  | .next t => some t
  | .fault _ => none
  | .refused _ => none

/-- Instance T8 with C4's buffer (V30): `FS = W = 8`, `LMAX = 8`, `C = 4`. -/
def t8c4 : Config := { Config.reference with fs := 8, lmax := 8, cap := 4 }

/-- 2.0 as INIT decodes 0x40000000. -/
def two : Ratio := { neg := false, num := 2 ^ 23, den := 2 ^ 22 }

/-- A session on T8C4 with `F0 = 2`, Running, two samples 3 and 9 buffered, every result register as after INIT. -/
def small (strat : Strategy) : State :=
  { State.resetOf t8c4 with
    strat := strat, f0 := two.toNum, phase := .running, draw := 9
    len := match strat with | .table => 4 | .direct => 0
    table := [(0, tableEntry 4 0), (1, tableEntry 4 1), (2, tableEntry 4 2), (3, tableEntry 4 3)]
    buf := [(0, 3#24), (1, 9#24)], wr := 2 }

/-- Three samples buffered, which fills the ring of T8C4. -/
def smallFull : State := { small .table with buf := [(0, 3#24), (1, 9#24), (2, 4#24)], wr := 3, dropcnt := 4294967295 }

/-- Nothing buffered. -/
def smallEmpty : State := { small .table with wr := 0 }

/-- One sample short of the end of a window. -/
def smallLast (strat : Strategy) : State := { small strat with n := 7 }

/-! ## Steps -/

/-- Every row of the table is the first command the machine runs after reset (V-E1's responses). The micro-step that
accepts PUSH, POP does not answer yet. -/
theorem test_withFetchWord_answers :
    (nextOf (step (State.reset.withFetchWord 32 0x03000800))).map (·.cOut.map Response.head) = some [0x20000000#32] ∧
    (nextOf (step (State.reset.withFetchWord 32 0x11000000))).map (·.cOut.map Response.head) = some [0x20000000#32] ∧
    (nextOf (step (State.reset.withFetchWord 32 0x12000000))).map (·.cOut.map Response.head) = some [0x00000000#32] ∧
    (nextOf (step (State.reset.withFetchWord 32 0x13000000))).map (·.cOut.map Response.head) = some [0x20000000#32] ∧
    (nextOf (step (State.reset.withFetchWord 32 0x04000800))).map (·.pOut.map Response.head) = some [0x00000000#32] ∧
    (nextOf (step (State.reset.withFetchWord 32 0x20000000))).map (·.cOut.map (Response.wordsWith (fun _ => 0#32))) =
      some [[0x00000000#32, 0x00000010#32]] := by decide +kernel

theorem test_withFetchWord_accepts :
    (nextOf (step (State.reset.withFetchWord 32 0x01000FFF))).map (fun t => (t.pseq, t.pS, t.pIn)) =
      some (.write, 4095#24, []) ∧
    (nextOf (step (State.reset.withFetchWord 32 0x02000000))).map (fun t => (t.cseq, t.cIn)) = some (.read, []) ∧
    (nextOf (step (State.reset.withFetchWord 32 0x10000022))).map (·.cOut.map Response.head) = some [0x10000000#32] ∧
    (nextOf (step (State.reset.withFetchWord 64 0x4248000010000022))).map (fun t => (t.phase, t.len, t.signals)) =
      some (.configured, 100, [.adcConfig 34#8 12]) := by decide +kernel

/-- V3, V5: a PUSH writes the slot at `WR` and publishes, wrapping. -/
theorem test_push :
    (nextOf (agentRun .producer 2 (pLoad 77#24 { State.reset with wr := 2047, rd := 2047 }))).map
      (fun t => (t.buf, t.wr, t.pOut.map Response.head)) = some ([(2047, 77#24)], 0, [0x08000000#32]) := by decide +kernel

/-- V6, V13: a PUSH on a full ring is dropped, and the drop count wraps. -/
theorem test_push_full :
    (nextOf (agentRun .producer 1 (pLoad 1#24 smallFull))).map
      (fun t => (t.buf, t.wr, t.dropcnt, t.pOut.map Response.head)) =
      some (smallFull.buf, 3, 0, [0x00000000#32]) := by decide +kernel

/-- V14 (a), schedule A: the producer judges full on the read index it latched before the consumer freed a slot. -/
theorem test_push_stale_view :
    (nextOf (agentStep .producer { pLoad 4#24 smallFull with rd := 1 })).map (fun t => (t.wr, t.pOut.map Response.head)) =
      some (3, [0x00000000#32]) := by decide +kernel

/-- V4: a POP returns the oldest sample. -/
theorem test_pop :
    (nextOf (agentRun .consumer 2 (cLoad (small .table)))).map (fun t => (t.rd, t.cOut.map Response.head)) =
      some (1, [0x08000003#32]) := by decide +kernel

/-- V3: a POP on an empty ring reports none and changes no index. -/
theorem test_pop_empty :
    (nextOf (agentRun .consumer 1 (cLoad smallEmpty))).map (fun t => (t.rd, t.cOut.map Response.head)) =
      some (0, [0x00000000#32]) := by decide +kernel

/-- V16: a TICK outside Running is ignored, on a full ring too. -/
theorem test_tick_ignored :
    (nextOf (execTick 1#24 { smallFull with phase := .configured })).map
      (fun t => (t.pseq, t.dropcnt, t.pOut.map Response.head)) = some (.idle, 4294967295, [0x00000000#32]) := by decide

/-- V16: a TICK while Running is a PUSH. -/
theorem test_tick_running : nextOf (execTick 2048#24 (small .table)) = some (pLoad 2048#24 (small .table)) := by decide

/-- V15: START arms the timer once. -/
theorem test_start :
    (nextOf (execStart { small .table with phase := .configured })).map (fun t => (t.phase, t.signals)) =
      some (.running, [.timerArm 8]) ∧
    (nextOf (execStart (small .table))).map (fun t => (t.phase, t.signals)) = some (.running, []) := by decide

/-- V15, V17: STOP disarms the timer, and is not taken while a TICK is in progress. -/
theorem test_stop :
    (nextOf (execStop (small .table))).map (fun t => (t.phase, t.signals)) = some (.configured, [.timerDisarm]) ∧
    nextOf (agentStep .consumer { small .table with pseq := .write, cIn := [0x12000000#32] }) =
      some { small .table with pseq := .write, cIn := [0x12000000#32] } := by decide

/-- V19, V21: inside a window; both products take the old `N`, the cosine goes to `SUMI`. -/
theorem test_consume :
    (nextOf (execConsume 9#24 { small .table with n := 1 })).map
      (fun t => (t.n, t.sumI, t.sumQ, t.cOut.map Response.head)) =
      some (2, .add (.ofNat 0) (.mul (.ofNat 9) (tableEntry 4 2)), .add (.ofNat 0) (.mul (.ofNat 9) (tableEntry 4 1)),
        [0x00000000#32]) := by decide

/-- V21: the end of a window; the in-phase sum is the ordinate of the angle. -/
theorem test_consume_last :
    (nextOf (execConsume 0#24 (smallLast .table))).map (fun t => (t.n, t.sumI, t.rvalid, t.cOut.map Response.head)) =
      some (0, .ofNat 0, true, [0x08000000#32]) ∧
    angleDeg (.ofNat 1) (.ofNat 2) = .div (.mul (.atan2 (.ofNat 1) (.ofNat 2)) (.ofNat 180)) .pi := by decide

/-- V25: INIT discards; the buffer's slots stay. -/
theorem test_init :
    (nextOf (execInit 34#8 .table 0x3F800000#32 { smallFull with n := 5, rvalid := true })).map
      (fun t => ([t.wr, t.rd, t.n, t.len, t.dropcnt], t.rvalid, t.phase, t.signals)) =
      some ([0, 0, 0, 8, 0], false, .configured, [.timerDisarm, .adcConfig 34#8 12]) ∧
    (nextOf (execInit 34#8 .table 0x3F800000#32 smallFull)).map (·.buf) = some smallFull.buf := by decide +kernel

/-- V15: a failing INIT while Running changes nothing. -/
theorem test_init_fails :
    nextOf (execInit 34#8 .table 0x44FA0000#32 (small .table)) =
      nextOf (Host.Outcome.next (raise .consumer .configError (small .table))) := by decide +kernel

/-- R200 step 1, R231: on an instance without the direct strategy an INIT of it with a bad frequency is a configuration error
like any other, and one with a good frequency changes nothing. -/
theorem test_init_notBuilt :
    nextOf (execInit 0#8 .direct 0xBF800000#32 { small .table with cfg := { t8c4 with hasDirect := false } }) =
      nextOf (Host.Outcome.next (raise .consumer .configError { small .table with cfg := { t8c4 with hasDirect := false } })) ∧
    (nextOf (execInit 0#8 .direct 0x40000000#32 { small .table with cfg := { t8c4 with hasDirect := false } })).map
      (fun t => (t.phase, t.wr, t.pin, t.cOut.length)) = some (.running, 2, 0#8, 1) := by decide +kernel

/-- V23, V27 in small: a LOOP over the two buffered samples, micro-step by micro-step, ends as CONSUME 3, CONSUME 9. -/
theorem test_loop :
    (nextOf (agentRun .consumer 11 (lEnter (small .table)))).map
      (fun t => ((t.rd, t.n, t.cseq, t.cLoop), t.sumI, t.sumQ, t.cOut.map (Response.wordsWith (fun _ => 1#32)))) =
    (nextOf (commandRun .consumer 0 [.consume 3#24, .consume 9#24] (small .table))).map
      (fun t => ((2, 2, .idle, false), t.sumI, t.sumQ, [[0#32, 0#32, 0#32]])) := by decide +kernel

/-- V26: a LOOP on an empty ring. -/
theorem test_loop_empty :
    (nextOf (agentRun .consumer 3 (lEnter smallEmpty))).map (fun t => (t.rd, t.n, t.cOut.length)) = some (0, 0, 1) := by
  decide +kernel

/-- V-E3: status words. -/
theorem test_status_words :
    statusWord State.reset = 0x00000010#32 ∧ statusWord { smallEmpty with phase := .configured } = 0x00000011#32 ∧
    statusWord { smallEmpty with phase := .configured, strat := .direct, len := 0 } = 0x00000015#32 ∧
    statusWord { smallEmpty with phase := .configured, len := 83 } = 0x00000019#32 ∧
    statusWord smallEmpty = 0x00000012#32 ∧ statusWord (small .table) = 0x00000002#32 ∧
    statusWord smallFull = 0x00000022#32 ∧ statusWord { smallEmpty with rvalid := true } = 0x00000052#32 := by decide

/-- V28. -/
theorem test_rdreg :
    (nextOf (execRdreg 0x04#8 { small .table with len := 100 })).map
      (·.cOut.map (Response.wordsWith (fun _ => 0#32))) = some [[0#32, 0x00000064#32]] ∧
    (nextOf (execRdreg 0x05#8 { small .table with pin := 34#8 })).map
      (·.cOut.map (Response.wordsWith (fun _ => 0#32))) = some [[0#32, 0x00000022#32]] := by decide

/-- A word sent to a port waits there, last (R41, R235). -/
theorem test_send_turn :
    (nextOf (step { small .table with cIn := [7#32], sched := [.send .consumer 0x12000000#32, .reset] })).map
      (fun t => (t.cIn, t.pIn, t.sched)) = some ([7#32, 0x12000000#32], [], [.reset]) := by decide

/-- The reset input (R260): a PUSH in progress is abandoned without a response, so the run that follows is not finished. -/
theorem test_reset_turn :
    (nextOf (step { small .table with pseq := .publish, sched := [.reset] })).map
      (fun t => ((t.phase, t.wr, t.pseq, t.len), t.buf, t.pOut, t.lost)) = some ((.idle, 0, .idle, 0), [], [], 1) := by
  decide

/-! ## The assembler: R100's examples and P1, P3, P7 -/

theorem test_assemble :
    assemble Config.reference "P: PUSH 0x123" = some (some .producer, [0x01000123#32]) ∧
    assemble Config.reference "C: INIT 1, 2.0, TABLE" = some (some .consumer, [0x10000001#32, 0x40000000#32]) ∧
    assemble Config.reference "C: INIT 2, 2.0, DIRECT" = some (some .consumer, [0x10000102#32, 0x40000000#32]) ∧
    assemble Config.reference "C: INIT 0, -1.0, DIRECT" = some (some .consumer, [0x10000100#32, 0xBF800000#32]) ∧
    assemble Config.reference "TICK 100" = some (none, [0x04000064#32]) ∧
    assemble Config.reference "C: RDREG L" = some (some .consumer, [0x20000004#32]) ∧
    assemble Config.reference "PUSH 4096" = none := by decide +kernel

theorem test_responseText :
    responseText (fun _ => 0#32) (popped 5#24) = "-> OK, FLAG=1, VALUE=5" := by decide +kernel

/-! ## Witnesses: for each obligation with hypotheses, a state and operands that meet them all

The states are small sessions, not the reset state. -/

theorem buf_range {s : State} (h : ∀ c ∈ s.buf, c.1 < s.cfg.cap ∧ sampleFits s.cfg c.2 = true) :
    ∀ i v, s.buf.read i = some v → i < s.cfg.cap ∧ sampleFits s.cfg v = true :=
  fun _ _ e => h _ (Memory.mem_of_read e)

theorem table_range {s : State} (h : ∀ c ∈ s.table, c.1 < s.cfg.lmax) : ∀ i v, s.table.read i = some v → i < s.cfg.lmax :=
  fun _ _ e => h _ (Memory.mem_of_read e)

theorem written {s : State} (h : (live s).all Option.isSome = true) : ∀ v ∈ live s, v.isSome := List.all_eq_true.mp h

theorem small_inv (strat : Strategy) : Inv (small strat) := by
  refine ⟨?_, ?_, ?_, ?_⟩
  · cases strat <;> exact ⟨by decide, by decide, by decide, by decide, by decide, by decide, by decide⟩
  · cases strat <;>
      exact ⟨by decide, buf_range (by decide), by decide, table_range (by decide), written (by decide)⟩
  · intro _
    refine ⟨two, by decide, by decide, rfl, ?_⟩
    cases strat
    · exact ⟨by decide, by decide, by decide⟩
    · exact rfl
  · cases strat <;> constructor <;> decide

theorem small_numbers (strat : Strategy) : NumbersOk (small strat) := by
  cases strat <;> constructor <;> simp [small, State.resetOf]

/-- `F0` is 2. -/
theorem small_f0 (strat : Strategy) : (small strat).f0.toReal = 2 := by
  have e : (small strat).f0 = two.toNum := rfl
  rw [e]
  norm_num [two, Ratio.toNum]

theorem smallFull_inv : Inv smallFull := by
  refine ⟨⟨by decide, by decide, by decide, by decide, by decide, by decide +kernel, by decide⟩,
    ⟨by decide, buf_range (by decide), by decide, table_range (by decide), written (by decide)⟩, ?_, by constructor <;> decide⟩
  exact fun _ => ⟨two, by decide, by decide, rfl, by decide, by decide, by decide⟩

theorem smallEmpty_inv : Inv smallEmpty := by
  refine ⟨⟨by decide, by decide, by decide, by decide, by decide, by decide, by decide⟩,
    ⟨by decide, buf_range (by decide), by decide, table_range (by decide), written (by decide)⟩, ?_, by constructor <;> decide⟩
  exact fun _ => ⟨two, by decide, by decide, rfl, by decide, by decide, by decide⟩

/-- A state in the middle of both commands: a PUSH about to publish 4, a LOOP about to free the oldest sample. -/
def smallBusy : State :=
  { small .table with
    buf := [(0, 3#24), (1, 9#24), (2, 4#24)], pseq := .publish, pS := 4#24, pW := 2, pR := 0
    cseq := .publish, cW := 2, cR := 0, cV := 3#24, cLoop := true }

theorem smallBusy_inv : Inv smallBusy := by
  refine ⟨⟨by decide, by decide, by decide, by decide, by decide, by decide, by decide⟩,
    ⟨by decide, buf_range (by decide), by decide, table_range (by decide), written (by decide)⟩, ?_, by constructor <;> decide⟩
  exact fun _ => ⟨two, by decide, by decide, rfl, by decide, by decide, by decide⟩

theorem witness_DecodeEncode :
    Config.reference.wf ∧ narrow.wf ∧ (Instr.rdreg 0x0C#8).wellFormed narrow = true ∧
    (Instr.push 1023#24).wellFormed narrow = true ∧ (Instr.init 255#8 .direct 0#32).wellFormed Config.reference = true := by
  decide

theorem witness_EncodeDecode :
    Config.reference.wf ∧ decode Config.reference .consumer [0x10000107#32, 0x40000000#32] = .ok (.init 7#8 .direct 0x40000000#32) :=
  ⟨by decide, rfl⟩

/-- A command that a row covers and one that none covers. -/
theorem witness_IllegalExactly :
    narrow.wf ∧ fetchCommand [0x2000000C#32] = some ([0x2000000C#32], []) ∧
    fetchCommand [0x10000200#32, 1#32, 2#32] = some ([0x10000200#32, 1#32], [2#32]) := by decide

theorem witness_CommandLength : opcode 0x10FFFFFF#32 = 0x10#8 ∧ opcode 0x11000000#32 ≠ 0x10#8 := by decide

theorem witness_PortRights :
    Config.reference.wf ∧ (Instr.push 1#24).wellFormed Config.reference = true ∧ portOf (.push 1#24) = .producer ∧
    portOf (.push 1#24) ≠ .consumer := by decide

theorem witness_IllegalAnswered :
    fetchCommand ({ small .table with pIn := [0x02000000#32, 7#32] } : State).pIn = some ([0x02000000#32], [7#32]) ∧
    decode Config.reference .producer [0x02000000#32] = .error .wrongPort ∧
    fetchCommand ({ small .table with cIn := [0x2000000D#32] } : State).cIn = some ([0x2000000D#32], []) ∧
    decode Config.reference .consumer [0x2000000D#32] = .error .reservedRegister ∧
    (small .table).pseq = .idle ∧ (small .table).cseq = .idle := ⟨by decide, rfl, by decide, rfl, rfl, rfl⟩

/-- Both ends of the exponent range. -/
theorem witness_DecNumValue :
    (BitVec.extractLsb' 23 8 0x7F800000#32).toNat = 255 ∧ (decNum 0x00000001#32).isSome ∧ (decNum 0x00800000#32).isSome ∧
    (decNum 0x7F7FFFFF#32).isSome := by decide +kernel

/-- A zero and a number that is none. -/
theorem witness_EncodeDecoded :
    decNum 0x80000000#32 = some { neg := true, num := 0, den := 2 ^ 149 } ∧
    decNum 0xC0000000#32 = some { neg := true, num := 2 ^ 23, den := 2 ^ 22 } := by decide +kernel

/-- The largest finite number and one between two of the grid. -/
theorem witness_EncodeNearest :
    |((2 ^ 24 - 1) * 2 ^ 104 : ℝ)| ≤ (2 ^ 24 - 1) * 2 ^ 104 ∧ |(1 / 3 : ℝ)| ≤ (2 ^ 24 - 1) * 2 ^ 104 := by
  constructor
  · rw [abs_of_nonneg (by norm_num)]
  · rw [abs_of_nonneg (by norm_num)]
    norm_num

/-- Idle and Running, idle and not Running; full, not full, and about to publish. -/
theorem witness_PushMicroSteps :
    ((small .table).pseq = .idle ∧ (small .table).phase = .running) ∧ (State.reset.pseq = .idle ∧ State.reset.phase ≠ .running) ∧
    (pLoad 1#24 smallFull).pseq = .write ∧
    ((pLoad 1#24 smallFull).pW + 1) % (pLoad 1#24 smallFull).cfg.cap = (pLoad 1#24 smallFull).pR ∧
    (pLoad 1#24 (small .table)).pseq = .write ∧
    ((pLoad 1#24 (small .table)).pW + 1) % (pLoad 1#24 (small .table)).cfg.cap ≠ (pLoad 1#24 (small .table)).pR ∧
    smallBusy.pseq = .publish := by decide

/-- TICK while Running, at the last free slot and on a full ring. -/
theorem witness_PushUndisturbed :
    ((small .table).phase = .running ∧ (small .table).pseq = .idle ∧
      ((small .table).wr + 1) % (small .table).cfg.cap ≠ (small .table).rd) ∧
    smallFull.phase = .running ∧ smallFull.pseq = .idle ∧ (smallFull.wr + 1) % smallFull.cfg.cap = smallFull.rd := by decide

theorem witness_PopMicroSteps :
    (small .table).cseq = .idle ∧ (lEnter smallEmpty).cseq = .load ∧
    ((cLoad smallEmpty).cseq = .read ∧ (cLoad smallEmpty).cW = (cLoad smallEmpty).cR ∧ (cLoad smallEmpty).cLoop = false) ∧
    ((cLoad (lEnter smallEmpty)).cseq = .read ∧ (cLoad (lEnter smallEmpty)).cW = (cLoad (lEnter smallEmpty)).cR ∧
      (cLoad (lEnter smallEmpty)).cLoop = true) ∧
    ((cLoad (small .table)).cseq = .read ∧ (cLoad (small .table)).cW ≠ (cLoad (small .table)).cR ∧
      (small .table).buf.read (cLoad (small .table)).cR = some 3#24) ∧
    (smallBusy.cseq = .publish ∧ smallBusy.cLoop = true ∧ (cRead (cLoad (small .table))).cseq = .publish ∧
      (cRead (cLoad (small .table))).cLoop = false) := by decide

theorem witness_PopReturnsOldest :
    (small .table).cseq = .idle ∧ (small .table).wr ≠ (small .table).rd ∧
    (small .table).buf.read (small .table).rd = some 3#24 ∧ smallEmpty.cseq = .idle ∧ smallEmpty.wr = smallEmpty.rd := by
  decide

/-- A session whose consumer takes a successful INIT next. -/
def smallInit : State := { small .table with cIn := [0x10000007#32, 0x40000000#32] }

theorem smallInit_takesInit : takesInit smallInit :=
  ⟨rfl, rfl, _, _, 7#8, .table, 0x40000000#32, rfl, rfl, rfl, by decide +kernel⟩

theorem witness_RingInvariant :
    (Inv smallBusy ∧ agentStep .consumer smallBusy = .next (cPublish smallBusy)) ∧
    Inv smallInit ∧ takesInit smallInit ∧ ∃ t, agentStep .consumer smallInit = .next t := by
  refine ⟨⟨smallBusy_inv, agentStep_free rfl⟩, (small_inv .table).setPortIn .consumer _, smallInit_takesInit, ?_⟩
  obtain ⟨_, _, _, _, _, run⟩ := agentStep_takesInit smallInit_takesInit
  exact ⟨_, run⟩

theorem witness_RingIsQueue :
    Inv smallBusy ∧ agentStep .producer smallBusy = .next (pPublish smallBusy) ∧ smallBusy.pseq = .publish ∧
    agentStep .consumer smallBusy = .next (cPublish smallBusy) ∧ smallBusy.cseq = .publish :=
  ⟨smallBusy_inv, agentStep_publish rfl, rfl, agentStep_free rfl, rfl⟩

theorem witness_CountingLaw :
    Inv smallEmpty ∧ smallEmpty.pseq = .idle ∧ smallEmpty.pIn = [] ∧ live smallEmpty = [] ∧
    ∀ x ∈ [3#24, 4095#24, 0#24, 7#24, 8#24], sampleFits smallEmpty.cfg x = true :=
  ⟨smallEmpty_inv, rfl, rfl, by decide, List.all_eq_true.mp (by decide)⟩

theorem witness_FifoLaw :
    Inv (small .table) ∧ (small .table).cseq = .idle ∧ (small .table).cIn = [] ∧
    live (small .table) = [3#24, 9#24].map some := ⟨small_inv .table, rfl, rfl, by decide⟩

theorem witness_ProducerRights : agentStep .producer smallBusy = .next (pPublish smallBusy) := agentStep_publish rfl

theorem witness_ConsumerRights : agentStep .consumer smallBusy = .next (cPublish smallBusy) := agentStep_free rfl

theorem witness_ProducerWaitFree :
    (small .table).pseq = .idle ∧ exec (.tick 5#24) (small .table) = .next (pLoad 5#24 (small .table)) ∧
    smallBusy.pseq ≠ .idle ∧ agentStep .consumer smallBusy = .next (cPublish smallBusy) :=
  ⟨rfl, execTick_running 5#24 rfl rfl, by decide, agentStep_free rfl⟩

theorem witness_StartEffect : (small .table).cseq = .idle := rfl

theorem witness_StopEffect :
    (small .table).cseq = .idle ∧ (small .table).pseq = .idle ∧
    exec .stop (small .table) =
      .next (respondC (okFlag false) { emit .timerDisarm (small .table) with phase := .configured }) :=
  ⟨rfl, rfl, execStop_running rfl rfl rfl⟩

theorem witness_HeldForProducer :
    (pLoad 1#24 { small .table with cIn := [0x12000000#32] }).pseq ≠ .idle ∧
    (pLoad 1#24 { small .table with cIn := [0x12000000#32] }).cseq = .idle ∧
    fetchCommand (pLoad 1#24 { small .table with cIn := [0x12000000#32] }).cIn = some ([0x12000000#32], []) ∧
    decode Config.reference .consumer [0x12000000#32] = .ok .stop := ⟨by decide, rfl, by decide, rfl⟩

/-- A Configured block with one TICK waiting. -/
def smallStopped : State := { small .table with phase := .configured, pIn := [0x04000800#32] }

theorem witness_StoppedTicksWriteNothing :
    smallStopped.phase ≠ .running ∧ smallStopped.pseq = .idle ∧ (∀ w ∈ smallStopped.pIn, opcode w = 0x04#8) ∧
    agentStep .producer smallStopped = .next (respondP (okFlag false) { smallStopped with pIn := [] }) :=
  ⟨by decide, rfl, fun w h => by rw [List.mem_singleton.mp h]; decide, rfl⟩

theorem witness_LifecycleTable :
    (small .table).cseq = .idle ∧ (small .table).pseq = .idle ∧
    exec .start (small .table) = .next (respondC (okFlag false) (small .table)) := ⟨rfl, rfl, execStart_running rfl rfl⟩

theorem witness_PhaseAndSignals :
    agentStep .consumer { small .table with cIn := [0x12000000#32] } =
      .next (respondC (okFlag false) { emit .timerDisarm (small .table) with phase := .configured }) := rfl

theorem witness_TableTrig : Inv (small .table) ∧ (small .table).phase ≠ .idle ∧ (small .table).strat = .table :=
  ⟨small_inv .table, by decide, rfl⟩

theorem witness_DirectTrig : (small .direct).strat = .direct := rfl

theorem witness_StrategiesAgree :
    Inv (small .table) ∧ (small .table).phase ≠ .idle ∧ (small .table).strat = .table ∧ (small .direct).strat = .direct ∧
    (small .direct).cfg = (small .table).cfg ∧ (small .direct).f0.toReal = (small .table).f0.toReal ∧
    ((small .table).cfg.fs : ℝ) / (small .table).f0.toReal = (4 * 1 : ℕ) := by
  refine ⟨small_inv .table, by decide, rfl, rfl, rfl, by rw [small_f0, small_f0], ?_⟩
  rw [small_f0]
  norm_num [small, State.resetOf, t8c4]

theorem witness_QuarterPeriodBias : Inv (small .table) ∧ (small .table).phase ≠ .idle ∧ (small .table).strat = .table :=
  ⟨small_inv .table, by decide, rfl⟩

theorem witness_TableFrequency : Inv (small .table) ∧ (small .table).phase ≠ .idle ∧ (small .table).strat = .table :=
  ⟨small_inv .table, by decide, rfl⟩

theorem witness_ConsumeEffect :
    (State.reset.cseq = .idle ∧ State.reset.phase = .idle) ∧
    ((small .table).cseq = .idle ∧ (small .table).phase ≠ .idle ∧ (small .table).n + 1 ≠ (small .table).cfg.window) ∧
    ((smallLast .table).cseq = .idle ∧ (smallLast .table).phase ≠ .idle ∧
      (smallLast .table).n + 1 = (smallLast .table).cfg.window) := by decide

theorem witness_ReadyEveryWindow : Inv (small .table) ∧ (small .table).cseq = .idle ∧ (small .table).phase ≠ .idle :=
  ⟨small_inv .table, rfl, by decide⟩

theorem witness_Atan2Defined : (0 : ℝ) ≠ 0 ∨ (-1 : ℝ) ≠ 0 := .inr (by norm_num)

/-- The sums of a state, for the axes. -/
def sums (i q : NumExpr) : State := { small .table with sumI := i, sumQ := q }

/-- The four axes. -/
theorem witness_AngleConvention :
    ((sums (.ofNat 0) (.ofNat 1)).sumI.toReal = 0 ∧ 0 < (sums (.ofNat 0) (.ofNat 1)).sumQ.toReal) ∧
    (0 < (sums (.ofNat 1) (.ofNat 0)).sumI.toReal ∧ (sums (.ofNat 1) (.ofNat 0)).sumQ.toReal = 0) ∧
    ((sums (.ofNat 0) (.cos .pi)).sumI.toReal = 0 ∧ (sums (.ofNat 0) (.cos .pi)).sumQ.toReal < 0) ∧
    ((sums (.cos .pi) (.ofNat 0)).sumI.toReal < 0 ∧ (sums (.cos .pi) (.ofNat 0)).sumQ.toReal = 0) := by
  simp [sums]

theorem witness_ZeroSums :
    (smallLast .table).cseq = .idle ∧ (smallLast .table).phase ≠ .idle ∧
    (smallLast .table).n + 1 = (smallLast .table).cfg.window ∧
    (smallLast .table).sumI.toReal + (0#24).toNat * (cosine (smallLast .table) (smallLast .table).n).toReal = 0 ∧
    (smallLast .table).sumQ.toReal + (0#24).toNat * (sine (smallLast .table) (smallLast .table).n).toReal = 0 := by
  refine ⟨rfl, by decide, rfl, ?_, ?_⟩ <;> simp [smallLast, small, State.resetOf]

theorem witness_WindowIsFourierBin :
    Inv (small .direct) ∧ (small .direct).cseq = .idle ∧ (small .direct).phase ≠ .idle ∧
    (small .direct).strat = .direct ∧ (small .direct).n = 0 ∧ (small .direct).sumI.toReal = 0 ∧
    (small .direct).sumQ.toReal = 0 ∧
    [3#24, 9#24, 4#24, 1#24, 5#24, 9#24, 2#24, 6#24].length = (small .direct).cfg.window :=
  ⟨small_inv .direct, rfl, by decide, rfl, rfl, toReal_zero, toReal_zero, rfl⟩

/-- Two turns in a window, in both strategies. -/
theorem small_wholeCycles (strat : Strategy) : wholeCycles (small strat) 2 := by
  cases strat
  · exact ⟨rfl, rfl⟩
  · exact (small_f0 .direct).trans (by norm_num)

theorem witness_ConstantInputRejected (strat : Strategy) :
    Inv (small strat) ∧ (small strat).cseq = .idle ∧ (small strat).phase ≠ .idle ∧ wholeCycles (small strat) 2 ∧
    (small strat).n = 0 ∧ (small strat).sumI.toReal = 0 ∧ (small strat).sumQ.toReal = 0 ∧
    ¬ (small strat).cfg.window ∣ 2 :=
  ⟨small_inv strat, rfl, nofun, small_wholeCycles strat, rfl, toReal_zero, toReal_zero, show ¬ 8 ∣ 2 by decide⟩

/-- V18: 10 + 10·sin(θ_n), at 2 Hz of 8. -/
theorem witness_SinusoidMeasured (strat : Strategy) :
    Inv (small strat) ∧ (small strat).cseq = .idle ∧ (small strat).phase ≠ .idle ∧ wholeCycles (small strat) 2 ∧
    (small strat).n = 0 ∧ (small strat).sumI.toReal = 0 ∧ (small strat).sumQ.toReal = 0 ∧
    ¬ (small strat).cfg.window ∣ 2 * 2 ∧ (0 : ℝ) < 10 ∧ -Real.pi < 0 ∧ 0 ≤ Real.pi ∧
    [10#24, 20#24, 10#24, 0#24, 10#24, 20#24, 10#24, 0#24].length = (small strat).cfg.window ∧
    ∀ k : Fin 8, (([10#24, 20#24, 10#24, 0#24, 10#24, 20#24, 10#24, 0#24].get k).toNat : ℝ) =
      10 + 10 * Real.sin (2 * Real.pi * (2 : ℕ) * (k : ℕ) / (small strat).cfg.window + 0) := by
  refine ⟨small_inv strat, rfl, nofun, small_wholeCycles strat, rfl, toReal_zero, toReal_zero, show ¬ 8 ∣ 2 * 2 by decide,
    by norm_num, by linarith [Real.pi_pos], Real.pi_pos.le, rfl, ?_⟩
  have w : ((small strat).cfg.window : ℝ) = 8 := by norm_num [small, State.resetOf, t8c4, Config.window]
  have quarter : ∀ m : ℕ, 2 * Real.pi * (2 : ℕ) * (m : ℕ) / (8 : ℝ) + 0 = m * (Real.pi / 2) := by
    intro m
    push_cast
    ring
  intro k
  rw [w, quarter]
  have period : ∀ m : ℕ, Real.sin (((m + 4 : ℕ) : ℝ) * (Real.pi / 2)) = Real.sin (m * (Real.pi / 2)) := by
    intro m
    rw [← Real.sin_add_two_pi ((m : ℝ) * (Real.pi / 2))]
    congr 1
    push_cast
    ring
  have s0 : Real.sin (((0 : ℕ) : ℝ) * (Real.pi / 2)) = 0 := by simp
  have s1 : Real.sin (((1 : ℕ) : ℝ) * (Real.pi / 2)) = 1 := by simp
  have s2 : Real.sin (((2 : ℕ) : ℝ) * (Real.pi / 2)) = 0 := by
    rw [show ((2 : ℕ) : ℝ) * (Real.pi / 2) = Real.pi by push_cast; ring, Real.sin_pi]
  have s3 : Real.sin (((3 : ℕ) : ℝ) * (Real.pi / 2)) = -1 := by
    rw [show ((3 : ℕ) : ℝ) * (Real.pi / 2) = Real.pi / 2 + Real.pi by push_cast; ring, Real.sin_add_pi, Real.sin_pi_div_two]
  have s4 := (period 0).trans s0
  have s5 := (period 1).trans s1
  have s6 := (period 2).trans s2
  have s7 := (period 3).trans s3
  fin_cases k <;> simp_all <;> norm_num

theorem witness_TolerancesMet : (0 : ℝ) ≤ 0 := le_refl 0

theorem witness_InitChecks :
    decNum 0x40000000#32 = some two ∧ decNum 0x00000000#32 = some { neg := false, num := 0, den := 2 ^ 149 } ∧
    initParams t8c4 .table 0x40000000#32 = some (two, 4) ∧ initParams t8c4 .direct 0x40000000#32 = some (two, 0) := by
  decide +kernel

theorem witness_InitEffect :
    (small .table).cseq = .idle ∧ (small .table).pseq = .idle ∧ builtIn (small .table).cfg .table = true ∧
    initParams (small .table).cfg .table 0x40000000#32 = some (two, 4) ∧
    initParams (small .table).cfg .direct 0x40000000#32 = some (two, 0) := by decide +kernel

/-- A failing INIT, and one on an instance without the direct strategy. -/
theorem witness_InitFails :
    (small .table).cseq = .idle ∧ (small .table).pseq = .idle ∧ initParams (small .table).cfg .table 0x44FA0000#32 = none ∧
    (initParams { t8c4 with hasDirect := false } .direct 0x40000000#32).isSome = true ∧
    builtIn { t8c4 with hasDirect := false } .direct = false := by decide +kernel

theorem witness_ConfigErrorExactly :
    (small .table).cseq = .idle ∧ (small .table).pseq = .idle ∧ builtIn (small .table).cfg .direct = true ∧
    decNum 0xBF800000#32 = some { neg := true, num := 2 ^ 23, den := 2 ^ 23 } ∧
    (nextOf (exec (.init 0#8 .direct 0xBF800000#32) (small .table))).isSome := by decide +kernel

theorem witness_LoopMicroSteps :
    (State.reset.cseq = .idle ∧ State.reset.phase = .idle) ∧ ((small .table).cseq = .idle ∧ (small .table).phase ≠ .idle) ∧
    ((cPublish smallBusy).cseq = .consume ∧ (cPublish smallBusy).phase ≠ .idle) ∧
    (cRead (cLoad (lEnter smallEmpty))).cseq = .done := by decide

theorem witness_LoopIsConsumes :
    Inv (small .table) ∧ (small .table).cseq = .idle ∧ (small .table).phase ≠ .idle ∧
    live (small .table) = [3#24, 9#24].map some := ⟨small_inv .table, rfl, by decide, by decide⟩

/-- A LOOP that begins on an empty ring, and a producer with a TICK to take. -/
def smallLoop : State := { lEnter smallEmpty with pIn := [0x04000005#32] }

theorem smallLoop_inv : Inv smallLoop := by
  refine ⟨⟨by decide, by decide, by decide, by decide, by decide, by decide, by decide⟩,
    ⟨by decide, buf_range (by decide), by decide, table_range (by decide), written (by decide)⟩, ?_, by constructor <;> decide⟩
  exact fun _ => ⟨two, by decide, by decide, rfl, by decide, by decide, by decide⟩

/-- The producer has the first turn and the consumer every later one. -/
def producerOnce : Nat → Option Turn
  | 0 => some (.agent .producer)
  | _ + 1 => some (.agent .consumer)

theorem producerOnce_turn (s : State) (k : Nat) : turnOf (runOn producerOnce s (k + 1)) = some .consumer := by
  simp [turnOf, producerOnce]

/-- A LOOP about to load its second sample. -/
def smallRound : State := { small .table with cseq := .load, cLoop := true }

theorem smallRound_inv : Inv smallRound := by
  refine ⟨⟨by decide, by decide, by decide, by decide, by decide, by decide, by decide⟩,
    ⟨by decide, buf_range (by decide), by decide, table_range (by decide), written (by decide)⟩, ?_, by constructor <;> decide⟩
  exact fun _ => ⟨two, by decide, by decide, rfl, by decide, by decide, by decide⟩

theorem witness_LoopTermination_ends :
    Inv smallLoop ∧ smallLoop.cseq ≠ .idle ∧ smallLoop.cLoop = true ∧ paced 5 (runOn producerOnce smallLoop) 141 ∧
    takesSample (runOn producerOnce smallLoop 0) = true ∧
    20 * (smallLoop.cfg.cap + 3) ≤
      countSteps (fun t => decide (turnOf t = some .consumer)) (runOn producerOnce smallLoop) 0 141 := by
  refine ⟨smallLoop_inv, nofun, rfl, ?_, by decide, ?_⟩
  · rintro i (_ | j) before _ _ sample
    · omega
    · simp [takesSample, takesMicroStep, producerOnce_turn] at sample
  · rw [countSteps, List.range_succ_eq_map, List.countP_cons, List.countP_map]
    refine le_add_right (le_of_eq ?_)
    rw [List.countP_eq_length.mpr fun k _ => by simp [producerOnce_turn], List.length_range]
    rfl

theorem witness_LoopTermination_stays :
    Inv smallRound ∧ smallRound.phase = .running ∧ smallRound.pseq = .idle ∧ smallRound.pIn = [] ∧
    smallRound.cseq = .load ∧ 0 < liveCount smallRound ∧ liveCount smallRound + 1 < smallRound.cfg.cap :=
  ⟨smallRound_inv, rfl, rfl, rfl, rfl, by decide, by decide⟩

/-- The registers at the ends of both ranges, and the reserved ones between and after them. -/
theorem witness_RdregReads :
    { small .table with rvalid := true }.cseq = .idle ∧ { small .table with rvalid := true }.phase ≠ .idle ∧
    { small .table with rvalid := true }.rvalid = true ∧ legalReg 0x00#8 = true ∧ legalReg 0x06#8 = true ∧
    legalReg 0x07#8 = false ∧ legalReg 0x08#8 = true ∧ legalReg 0x0C#8 = true ∧ legalReg 0x0D#8 = false := by decide

theorem witness_UsageErrorExactly :
    State.reset.cseq = .idle ∧ State.reset.pseq = .idle ∧ State.reset.phase = .idle ∧
    exec .loop State.reset = .next (raise .consumer .usageError State.reset) := ⟨rfl, rfl, rfl, rfl⟩

theorem witness_ResetTurn : ({ smallBusy with sched := [.reset] } : State).sched = .reset :: [] := rfl

theorem witness_StepRunsDecoded :
    let s := { small .table with pIn := [0x04000005#32], cIn := [0x02000000#32], sched := [] }
    s.pseq = .idle ∧ fetchCommand s.pIn = some ([0x04000005#32], []) ∧ decode Config.reference .producer [0x04000005#32] = .ok (.tick 5#24) ∧
    s.cseq = .idle ∧ fetchCommand s.cIn = some ([0x02000000#32], []) ∧ decode Config.reference .consumer [0x02000000#32] = .ok .pop ∧
    (holdsForProducer .pop = true → s.pseq = .idle) ∧
    enabled .consumer { s with cIn := [] } = false ∧ enabled .producer { s with pIn := [] } = false :=
  ⟨rfl, rfl, rfl, rfl, rfl, rfl, fun _ => rfl, by decide, by decide⟩

theorem witness_StepChoosesAgent :
    ({ small .table with sched := [.agent .consumer] } : State).sched = .agent .consumer :: [] ∧
    smallBusy.sched = [] ∧ enabled .producer smallBusy = true ∧ enabled .consumer smallBusy = true ∧
    enabled .producer (small .table) = false ∧ enabled .consumer (small .table) = false := by decide

theorem witness_StepNeverStops :
    agentStep .consumer smallBusy = .next (cPublish smallBusy) ∧
    step { smallBusy with sched := [.reset] } = .next (hardReset smallBusy) := ⟨agentStep_free rfl, rfl⟩

theorem witness_ResetInv : t8c4.wf := by decide

theorem witness_StepKeepsInv :
    Inv { smallBusy with sched := [.agent .producer] } ∧
    step { smallBusy with sched := [.agent .producer] } = .next (pPublish smallBusy) :=
  ⟨smallBusy_inv.reschedule [.agent .producer] 0, rfl⟩

theorem witness_StepKeepsNumbers :
    Inv (small .direct) ∧ NumbersOk (small .direct) ∧ step (small .direct) = .next (small .direct) :=
  ⟨small_inv .direct, small_numbers .direct, by rfl⟩

end Sys2Proof.Machine.Tests
end

section
/-!
`atan2` and `hypot` of R7 in the reference number system: `hypotReal` and `atan2Real` are the polar coordinates of a
point, and away from the origin its only ones (O36).
-/

namespace Sys2Proof.Machine

/-- Ties R7's `hypot` to the complex plane; the ordinate comes first, as in `atan2Real`. -/
theorem norm_mk_eq_hypotReal (y x : ℝ) : ‖(⟨x, y⟩ : ℂ)‖ = hypotReal y x := by
  rw [Complex.norm_eq_sqrt_sq_add_sq, hypotReal, add_comm]

theorem hypotReal_pos {y x : ℝ} (h : y ≠ 0 ∨ x ≠ 0) : 0 < hypotReal y x := by
  rw [← norm_mk_eq_hypotReal, norm_pos_iff, ne_eq, Complex.ext_iff]
  exact fun ⟨hx, hy⟩ => h.elim (· hy) (· hx)

theorem neg_pi_lt_atan2Real (y x : ℝ) : -Real.pi < atan2Real y x := Complex.neg_pi_lt_arg _

theorem atan2Real_le_pi (y x : ℝ) : atan2Real y x ≤ Real.pi := Complex.arg_le_pi _

theorem hypotReal_mul_sin_atan2Real (y x : ℝ) : hypotReal y x * Real.sin (atan2Real y x) = y := by
  rw [← norm_mk_eq_hypotReal]
  exact Complex.norm_mul_sin_arg _

theorem hypotReal_mul_cos_atan2Real (y x : ℝ) : hypotReal y x * Real.cos (atan2Real y x) = x := by
  rw [← norm_mk_eq_hypotReal]
  exact Complex.norm_mul_cos_arg _

/-- The uniqueness of R7: an angle in (-π, π] is the `atan2` of every point on its ray. -/
theorem atan2Real_mul_sin_mul_cos {r t : ℝ} (hr : 0 < r) (hlow : -Real.pi < t) (hhigh : t ≤ Real.pi) :
    atan2Real (r * Real.sin t) (r * Real.cos t) = t := by
  have polar : (⟨r * Real.cos t, r * Real.sin t⟩ : ℂ) = r * (Complex.cos t + Complex.sin t * Complex.I) := by
    rw [Complex.mk_eq_add_mul_I]
    push_cast
    ring
  rw [atan2Real, polar, Complex.arg_mul_cos_add_sin_mul_I hr ⟨hlow, hhigh⟩]

/-- Settles O36: `atan2Real` is in range and gives the point back; another such angle `t` is the `atan2` of
`(r·sin t, r·cos t)`, which is the point itself. -/
theorem atan2Defined : Obligations.Atan2Defined := by
  intro y x away
  refine ⟨⟨neg_pi_lt_atan2Real y x, atan2Real_le_pi y x, (hypotReal_mul_sin_atan2Real y x).symm,
    (hypotReal_mul_cos_atan2Real y x).symm⟩, fun t hlow hhigh hy hx => ?_⟩
  calc t = atan2Real (hypotReal y x * Real.sin t) (hypotReal y x * Real.cos t) :=
        (atan2Real_mul_sin_mul_cos (hypotReal_pos away) hlow hhigh).symm
    _ = atan2Real y x := by rw [← hy, ← hx]

end Sys2Proof.Machine
end

section
/-!
The invariant of the block over each operation that a micro-step is made of, and over every step (O58, O59).
-/

namespace Sys2Proof.Machine

/-! ## Reset -/

theorem resetOf_live (c : Config) : live (State.resetOf c) = [] := by
  simp [live, liveCount, occupancy, State.resetOf]

/-- Everything `Inv` speaks of is 0, empty or idle after reset, but the parameters (R40). -/
theorem resetOf_inv {c : Config} (wf : c.wf) : Inv (State.resetOf c) := by
  have ⟨fs, cap, _⟩ := wf
  refine ⟨⟨wf, ?_, ?_, fs, Nat.zero_le _, Nat.two_pow_pos _, decide_eq_true (Nat.two_pow_pos _)⟩,
    ⟨Memory.wf_nil, nofun, Memory.wf_nil, nofun, by simp [resetOf_live]⟩, fun running => absurd rfl running, ?_⟩
  · exact Nat.zero_lt_of_lt cap
  · exact Nat.zero_lt_of_lt cap
  · constructor <;> simp [State.resetOf]

/-- The reset input leaves the registers of `Inv` as reset does; of `F0` nothing is said in phase Idle. -/
theorem hardReset_inv {s : State} (wf : s.cfg.wf) : Inv (hardReset s) :=
  have h := resetOf_inv wf
  ⟨{ h.counters with }, { h.memories with }, fun running => absurd rfl running, { h.sequencers with }⟩

/-! ## The two halves of `SequencersOk`

What it says of one agent is what it says once the other one is idle, and of an idle agent's latches it says nothing
(R40). -/

theorem SequencersOk.of_halves {s : State} (producer : SequencersOk { s with cseq := .idle })
    (consumer : SequencersOk { s with pseq := .idle }) : SequencersOk s :=
  { consumer with notLoad := producer.notLoad, write := producer.write, publish := producer.publish }

/-- The two parts of `SequencersOk` that speak of a LOOP in progress (R201). -/
def LoopOk (s : State) : Prop := s.cLoop = true → s.phase ≠ .idle ∧ (s.cGot = true → s.rvalid = true)

theorem SequencersOk.loopOk {s : State} (h : SequencersOk s) (busy : s.cseq ≠ .idle) : LoopOk s :=
  fun loop => ⟨h.loopPhase busy loop, h.loopResult busy loop⟩

namespace Inv

variable {s : State}

theorem idleProducer (h : Inv s) (pIn : List Word) (pS : Sample) (pW pR : Nat) :
    Inv { s with pIn := pIn, pseq := .idle, pS := pS, pW := pW, pR := pR } :=
  ⟨{ h.counters with }, { h.memories with }, h.trig,
    { h.sequencers with notLoad := nofun, write := nofun, publish := nofun }⟩

theorem idleConsumer (h : Inv s) (cIn : List Word) (cW cR : Nat) (cV : Sample) (cGot cLoop : Bool) :
    Inv { s with cIn := cIn, cseq := .idle, cW := cW, cR := cR, cV := cV, cGot := cGot, cLoop := cLoop } :=
  ⟨{ h.counters with }, { h.memories with }, h.trig,
    { h.sequencers with
      notEnter := nofun, read := nofun, free := nofun, consume := nofun, inLoop := nofun, loopPhase := nofun
      loopResult := nofun }⟩

theorem respondP (h : Inv s) (r : Response) : Inv (respondP r s) :=
  have idle := h.idleProducer s.pIn s.pS s.pW s.pR
  ⟨{ idle.counters with }, { idle.memories with }, idle.trig, { idle.sequencers with }⟩

theorem respondC (h : Inv s) (r : Response) : Inv (respondC r s) :=
  have idle := h.idleConsumer s.cIn s.cW s.cR s.cV s.cGot s.cLoop
  ⟨{ idle.counters with }, { idle.memories with }, idle.trig, { idle.sequencers with }⟩

theorem answerRead (h : Inv s) (r : Response) : Inv (answerRead r s) :=
  have idle := h.idleConsumer s.cIn s.cW s.cR s.cV s.cGot s.cLoop
  ⟨{ idle.counters with }, { idle.memories with }, idle.trig, { idle.sequencers with }⟩

theorem of_respondC {r : Response} (h : Inv (Machine.respondC r s)) : Inv { s with cseq := .idle } :=
  ⟨{ h.counters with }, { h.memories with }, h.trig, { h.sequencers with }⟩

theorem gotoP {q : PSeq} (h : Inv { s with pseq := .idle }) (latches : SequencersOk { s with pseq := q, cseq := .idle }) :
    Inv (gotoP q s) :=
  ⟨{ h.counters with }, { h.memories with }, h.trig, .of_halves { latches with } { h.sequencers with }⟩

theorem gotoC {q : CSeq} (h : Inv { s with cseq := .idle }) (latches : SequencersOk { s with pseq := .idle, cseq := q }) :
    Inv (gotoC q s) :=
  ⟨{ h.counters with }, { h.memories with }, h.trig, .of_halves { h.sequencers with } { latches with }⟩

/-! ## Effects without a sequencer -/

/-- Signals are the environment's, and from one phase outside Idle to another the trig source stays. -/
theorem signalPhase (h : Inv s) (g : Signal) {p : Phase} (old : s.phase ≠ .idle) (new : p ≠ .idle) :
    Inv { emit g s with phase := p } :=
  ⟨{ h.counters with }, { h.memories with }, fun _ => h.trig old,
    { h.sequencers with loopPhase := fun _ _ => new }⟩

/-! ## The ring -/

/-- The slot of the oldest live sample has been written (U2). -/
theorem oldest_written (h : Inv s) (some_live : 0 < liveCount s) : ∃ v, s.buf.read s.rd = some v := by
  refine Option.isSome_iff_exists.mp (h.memories.live _ ?_)
  rw [live_free h.counters.wr h.counters.rd some_live]
  exact List.mem_cons_self

/-- A drop counts modulo `2^DROP_BITS` (R35). -/
theorem countDrop (h : Inv s) : Inv (countDrop s) :=
  ⟨{ h.counters with dropcnt := Nat.mod_lt _ (Nat.two_pow_pos _) }, { h.memories with }, h.trig, { h.sequencers with }⟩

/-- An idle producer's write to the slot at `WR` touches no live sample (R77). -/
theorem writeSlot (h : Inv s) (idle : s.pseq = .idle) {i : Nat} {x : Sample} (at_wr : i = s.wr)
    (fits : sampleFits s.cfg x = true) : Inv { s with buf := s.buf.write i x } := by
  subst at_wr
  have wr := h.counters.wr
  have rd := h.counters.rd
  refine ⟨{ h.counters with }, { h.memories with buf := Memory.write_wf h.memories.buf _ _, bufRange := ?_, live := ?_ },
    h.trig, { h.sequencers with write := ?_, publish := ?_, free := ?_ }⟩
  · intro i v hv
    by_cases e : i = s.wr
    · subst e
      rw [Memory.read_write_same, Option.some.injEq] at hv
      exact ⟨wr, hv ▸ fits⟩
    · rw [Memory.read_write_other _ _ e] at hv
      exact h.memories.bufRange i v hv
  · rw [live_write wr rd]
    exact h.memories.live
  · simp [idle]
  · simp [idle]
  · intro seq
    obtain ⟨cR, some_live, held⟩ := h.sequencers.free seq
    have apart : s.cR ≠ s.wr := by
      have := (occupancy_eq_zero wr rd).not.mp (Nat.ne_of_gt some_live)
      omega
    exact ⟨cR, some_live, by rwa [Memory.read_write_other _ _ apart]⟩

/-- An idle producer's release of a written slot adds one live sample (R77). -/
theorem publishSlot (h : Inv s) (idle : s.pseq = .idle) {i : Nat} {v : Sample} (at_wr : i = s.wr)
    (written : s.buf.read i = some v) (room : liveCount s + 1 < s.cfg.cap) :
    Inv { s with wr := nextIndex s.cfg i } := by
  subst at_wr
  have wr := h.counters.wr
  have rd := h.counters.rd
  have more : liveCount { s with wr := nextIndex s.cfg s.wr } = liveCount s + 1 := occupancy_publish wr rd room
  refine ⟨{ h.counters with wr := nextIndex_lt h.counters.cfg _ }, { h.memories with live := ?_ }, h.trig,
    { h.sequencers with write := ?_, publish := ?_, read := ?_, free := ?_ }⟩
  · rw [live_publish wr rd room, written]
    intro o ho
    rcases List.mem_append.mp ho with old | new
    · exact h.memories.live o old
    · rw [List.mem_singleton.mp new]
      rfl
  · simp [idle]
  · simp [idle]
  · intro seq
    obtain ⟨cR, cW, safe⟩ := h.sequencers.read seq
    exact ⟨cR, cW, by rw [more]; exact Nat.le_succ_of_le safe⟩
  · intro seq
    obtain ⟨cR, -, held⟩ := h.sequencers.free seq
    exact ⟨cR, by rw [more]; exact Nat.succ_pos _, held⟩

/-- An idle consumer's release of the oldest slot takes one live sample away (R77). -/
theorem freeSlot (h : Inv s) (idle : s.cseq = .idle) {i : Nat} (at_rd : i = s.rd) (some_live : 0 < liveCount s) :
    Inv { s with rd := nextIndex s.cfg i } := by
  subst at_rd
  have wr := h.counters.wr
  have rd := h.counters.rd
  have less : liveCount { s with rd := nextIndex s.cfg s.rd } + 1 = liveCount s := occupancy_free wr rd some_live
  refine ⟨{ h.counters with rd := nextIndex_lt h.counters.cfg _ }, { h.memories with live := ?_ }, h.trig,
    { h.sequencers with write := ?_, publish := ?_, read := ?_, free := ?_ }⟩
  · intro o ho
    exact h.memories.live o (by rw [live_free wr rd some_live]; exact List.mem_cons_of_mem _ ho)
  · intro seq
    obtain ⟨fits, pW, pR, safe⟩ := h.sequencers.write seq
    exact ⟨fits, pW, pR, (by omega : _ ≤ liveCount s).trans safe⟩
  · intro seq
    obtain ⟨pW, held, room⟩ := h.sequencers.publish seq
    exact ⟨pW, held, by simp only at *; omega⟩
  · simp [idle]
  · simp [idle]

/-! ## INIT -/

/-- A successful INIT builds the trig source of its frequency and empties the ring (R140, R141, R200). -/
theorem configure (h : Inv s) (producer : s.pseq = .idle) (consumer : s.cseq = .idle) {pin : PinId} {strat : Strategy}
    {f0bits : Word} {q : Ratio} {l : Nat} (params : initParams s.cfg strat f0bits = some (q, l))
    (fits : pinFits s.cfg pin = true) : Inv (configure pin strat q l s) := by
  obtain ⟨dec, positive, table, direct⟩ := checkFrequency_some params
  have fs : 0 < s.cfg.fs := h.counters.cfg.1
  have cap : 0 < s.cfg.cap := Nat.zero_lt_of_lt h.counters.cfg.2.1
  have empty : live (Machine.configure pin strat q l s) = [] := by simp [live, liveCount, occupancy]
  refine ⟨⟨by simpa using h.counters.cfg, by simpa, by simpa, by simpa, ?_, by simp, by simpa⟩,
    ⟨by simpa using h.memories.buf, by simpa using h.memories.bufRange, ?_, ?_, by simp [empty]⟩,
    fun _ => ⟨q, positive, decNum_den dec, by simp, ?_⟩, by constructor <;> simp [producer, consumer]⟩
  · cases strat
    · simpa using (table rfl).2.2
    · simp
  · cases strat
    · simpa using Memory.fill_wf h.memories.table _ _
    · simpa using h.memories.table
  · cases strat
    · obtain ⟨-, -, lmax⟩ := table rfl
      intro i v hv
      simp only [configure_table, configure_cfg, Memory.read_fill] at hv ⊢
      split at hv
      · omega
      · exact h.memories.tableRange i v hv
    · simpa using h.memories.tableRange
  · cases strat
    · obtain ⟨len, lmin, -⟩ := table rfl
      simp only [configure_strat, configure_len, configure_cfg, configure_table, Memory.read_fill]
      exact ⟨len, lmin, fun k hk => if_pos hk⟩
    · simp

/-! ## The micro-steps -/

theorem pLoad (h : Inv s) {x : Sample} (fits : sampleFits s.cfg x = true) : Inv (pLoad x s) := by
  refine (h.idleProducer s.pIn x s.wr s.rd).gotoP ?_
  constructor <;> simp [fits, h.counters.rd, liveCount]

theorem cLoad (h : Inv s) (loop : LoopOk s) : Inv (cLoad s) := by
  refine (h.idleConsumer s.cIn s.wr s.rd s.cV s.cGot s.cLoop).gotoC ?_
  constructor <;> simp [h.counters.wr, liveCount]
  · exact fun l => (loop l).1
  · exact fun l => (loop l).2

/-- The producer saw room, and since then the ring can only have become emptier (R77 (d)). -/
theorem room_of_seen (h : Inv s) (seq : s.pseq = .write) (room : nextIndex s.cfg s.pW ≠ s.pR) :
    liveCount s + 1 < s.cfg.cap := by
  obtain ⟨-, pW, pR, safe⟩ := h.sequencers.write seq
  have below := occupancy_lt h.counters.wr pR
  have unfull := (nextIndex_eq_iff_full h.counters.wr pR).not.mp (pW ▸ room)
  omega

/-- The consumer saw a sample, and since then the ring can only have become fuller (R77 (d)). -/
theorem live_of_seen (h : Inv s) (seq : s.cseq = .read) (ne : s.cW ≠ s.cR) : 0 < liveCount s := by
  obtain ⟨cR, cW, safe⟩ := h.sequencers.read seq
  have unempty := (occupancy_eq_zero cW h.counters.rd).not.mpr (cR ▸ ne)
  omega

/-- `P_WRITE` with room. -/
theorem pWrite_room (h : Inv s) (seq : s.pseq = .write) (room : nextIndex s.cfg s.pW ≠ s.pR) :
    Inv (Machine.gotoP .publish { s with buf := s.buf.write s.pW s.pS }) := by
  obtain ⟨fits, pW, -, -⟩ := h.sequencers.write seq
  refine ((h.idleProducer s.pIn s.pS s.pW s.pR).writeSlot rfl pW fits).gotoP ?_
  constructor <;> simp
  exact ⟨pW, h.room_of_seen seq room⟩

/-- `C_READ` with a sample. -/
theorem cRead_sample (h : Inv s) (seq : s.cseq = .read) (ne : s.cW ≠ s.cR) :
    Inv (Machine.gotoC .publish { s with cV := readSlot s s.cR }) := by
  obtain ⟨cR, -, -⟩ := h.sequencers.read seq
  have some_live := h.live_of_seen seq ne
  have loop := h.sequencers.loopOk (by simp [seq])
  obtain ⟨v, held⟩ := h.oldest_written some_live
  refine (h.idleConsumer s.cIn s.cW s.cR (readSlot s s.cR) s.cGot s.cLoop).gotoC ?_
  constructor <;> simp
  · exact ⟨cR, some_live, by simp [readSlot, cR, held]⟩
  · exact fun l => (loop l).1
  · exact fun l => (loop l).2

/-- `C_PUBLISH` inside a LOOP: the sample it goes on with came from a slot of `BUF`. -/
theorem cPublish_inLoop (h : Inv s) (seq : s.cseq = .publish) (inLoop : s.cLoop = true) :
    Inv (Machine.gotoC .consume (storeReleaseRd (nextIndex s.cfg s.cR) s)) := by
  obtain ⟨cR, some_live, held⟩ := h.sequencers.free seq
  obtain ⟨phase, result⟩ := h.sequencers.loopOk (by simp [seq]) inLoop
  refine ((h.idleConsumer s.cIn s.cW s.cR s.cV s.cGot s.cLoop).freeSlot rfl cR some_live).gotoC ?_
  constructor <;> simp [inLoop, phase, (h.memories.bufRange _ _ held).2]
  exact result

/-- `L_CONSUME`: a window that closes leaves a valid result (R181). -/
theorem lConsume_inLoop (h : Inv s) (seq : s.cseq = .consume) :
    Inv (Machine.gotoC .load { consumeSample s.cV s with cGot := s.cGot || windowCloses s }) := by
  have inLoop := h.sequencers.inLoop (.inr (.inl seq))
  obtain ⟨phase, result⟩ := h.sequencers.loopOk (by simp [seq]) inLoop
  have consumed := (h.consume s.cV (okFlag false)).of_respondC
  refine gotoC (consumed.idleConsumer _ _ _ _ _ _) ?_
  constructor <;> simp [inLoop, phase, consumeSample_rvalid]
  exact fun got => got.symm.imp id result

end Inv

/-- Every move of the producer keeps the invariant. -/
theorem ProducerMove.inv {s t : State} (m : ProducerMove s t) (h : Inv s) : Inv t := by
  cases m with
  | wait => exact h
  | reject rest => exact (h.setPortIn .producer rest).respondP _
  | load x rest idle fits => exact (h.setPortIn .producer rest).pLoad fits
  | ignore rest => exact (h.setPortIn .producer rest).respondP _
  | reload seq => exact absurd seq h.sequencers.notLoad
  | drop => exact h.countDrop.respondP _
  | write seq room => exact h.pWrite_room seq room
  | publish seq =>
    obtain ⟨pW, held, room⟩ := h.sequencers.publish seq
    exact ((h.idleProducer s.pIn s.pS s.pW s.pR).publishSlot rfl pW held room).respondP _

/-- Every move of the consumer keeps the invariant. -/
theorem ConsumerMove.inv {s t : State} (m : ConsumerMove s t) (h : Inv s) : Inv t := by
  cases m with
  | wait => exact h
  | reject rest => exact (h.setPortIn .consumer rest).respondC _
  | pop rest => exact (h.idleConsumer rest s.cW s.cR s.cV s.cGot false).cLoad nofun
  | consume x rest => exact (h.setPortIn .consumer rest).consume x _
  | noop rest => exact (h.setPortIn .consumer rest).respondC _
  | start rest idle phase =>
    have outside : s.phase ≠ .idle := by simp [phase]
    exact ((h.setPortIn .consumer rest).signalPhase _ outside (p := .running) nofun).respondC _
  | stop rest idle producer phase =>
    have outside : s.phase ≠ .idle := by simp [phase]
    exact ((h.setPortIn .consumer rest).signalPhase _ outside (p := .configured) nofun).respondC _
  | init pin strat f0bits q l cmd rest fetch dec idle producer built params fits =>
    exact ((h.setPortIn .consumer rest).configure producer idle params fits).respondC _
  | enterLoop rest idle phase =>
    refine (h.idleConsumer rest s.cW s.cR s.cV false true).gotoC ?_
    constructor <;> simp [phase]
  | read reg r rest => exact (h.setPortIn .consumer rest).answerRead _
  | load seq => exact h.cLoad (h.sequencers.loopOk (by simp [seq]))
  | empty => exact h.respondC _
  | drained seq eq loop =>
    obtain ⟨phase, result⟩ := h.sequencers.loopOk (by simp [seq]) loop
    refine (h.idleConsumer s.cIn s.cW s.cR s.cV s.cGot s.cLoop).gotoC ?_
    constructor <;> simp [loop, phase]
    exact result
  | take seq ne => exact h.cRead_sample seq ne
  | popDone seq =>
    obtain ⟨cR, some_live, -⟩ := h.sequencers.free seq
    exact ((h.idleConsumer s.cIn s.cW s.cR s.cV s.cGot s.cLoop).freeSlot rfl cR some_live).respondC _
  | popInLoop seq loop => exact h.cPublish_inLoop seq loop
  | reenter seq => exact absurd seq h.sequencers.notEnter
  | consumeIdle => exact (h.idleConsumer s.cIn s.cW s.cR s.cV s.cGot false).respondC _
  | consumeInLoop seq phase => exact h.lConsume_inLoop seq
  | done => exact (h.idleConsumer s.cIn s.cW s.cR s.cV s.cGot false).respondC (loopResponse s)

/-- Settles O59: each kind of step of `step_moves` keeps the invariant, an agent's turn by the lemma on its moves. -/
theorem stepKeepsInv : Obligations.StepKeepsInv := by
  intro s t h run
  rcases step_moves run with rfl | ⟨sched, turn, m⟩ | ⟨sched, turn, m⟩ | ⟨a, w, rest, -, rfl⟩ | ⟨rest, -, rfl⟩
  · exact h
  · exact m.inv (h.reschedule sched turn)
  · exact m.inv (h.reschedule sched turn)
  · exact (h.reschedule rest s.turn).setPortIn a _
  · exact hardReset_inv h.counters.cfg

end Sys2Proof.Machine
end

section
/-!
The bounds of R29 on the sums and the ranges of R32 on a result, over every step (O60), and the state after reset (O53,
O58).
-/

namespace Sys2Proof.Machine

/-! ## What a CONSUME forms -/

/-- An entry of the table below `L` is a sine (R141). -/
theorem abs_readTable_le_one {s : State} (trig : TrigOk s) (phase : s.phase ≠ .idle) (strat : s.strat = .table) (i : Nat) :
    |(readTable s (i % s.len)).toReal| ≤ 1 := by
  obtain ⟨q, -, -, -, source⟩ := trig phase
  rw [strat] at source
  obtain ⟨-, lmin, entries⟩ := source
  have len : 0 < s.len := Nat.lt_of_lt_of_le (by decide) lmin
  rw [readTable_of_read (entries _ (Nat.mod_lt _ len)), tableEntry_toReal]
  exact Real.abs_sin_le_one _

theorem abs_sine_le_one {s : State} (trig : TrigOk s) (phase : s.phase ≠ .idle) (n : Nat) :
    |(sine s n).toReal| ≤ 1 := by
  cases strat : s.strat
  · rw [sine_table strat]
    exact abs_readTable_le_one trig phase strat n
  · rw [sine_direct strat, toReal_sin]
    exact Real.abs_sin_le_one _

theorem abs_cosine_le_one {s : State} (trig : TrigOk s) (phase : s.phase ≠ .idle) (n : Nat) :
    |(cosine s n).toReal| ≤ 1 := by
  cases strat : s.strat
  · rw [cosine_table strat]
    exact abs_readTable_le_one trig phase strat _
  · rw [cosine_direct strat, toReal_cos]
    exact Real.abs_cos_le_one _

/-- A Sample that fits is at most `SMAX` (R4). -/
theorem toNat_le_smax {c : Config} {x : Sample} (fits : sampleFits c x = true) : x.toNat ≤ c.smax :=
  Nat.le_sub_one_of_lt (of_decide_eq_true fits)

/-- One more product keeps the bound of R29, grown by one `SMAX`. -/
theorem abs_add_sample_mul_le {c : Config} {x : Sample} (fits : sampleFits c x = true) {a r : NumExpr} {n : Nat}
    (sum : |a.toReal| ≤ c.smax * n) (ref : |r.toReal| ≤ 1) :
    |(NumExpr.add a (.mul (.ofSample x) r)).toReal| ≤ c.smax * (n + 1 : ℕ) := by
  have bound : (x.toNat : ℝ) ≤ c.smax := Nat.cast_le.mpr (toNat_le_smax fits)
  have product : |(x.toNat : ℝ) * r.toReal| ≤ c.smax := by
    rw [abs_mul, Nat.abs_cast]
    exact (mul_le_of_le_one_right (Nat.cast_nonneg _) ref).trans bound
  calc |(NumExpr.add a (.mul (.ofSample x) r)).toReal|
      ≤ |a.toReal| + |(x.toNat : ℝ) * r.toReal| := abs_add_le _ _
    _ ≤ c.smax * n + c.smax := add_le_add sum product
    _ = c.smax * (n + 1 : ℕ) := by push_cast; ring

/-- The range of `ANGLE` (R32, R182). -/
theorem angleDeg_range (i q : NumExpr) : -180 < (angleDeg i q).toReal ∧ (angleDeg i q).toReal ≤ 180 := by
  rw [angleDeg_toReal, lt_div_iff₀ Real.pi_pos, div_le_iff₀ Real.pi_pos]
  constructor
  · linarith [neg_pi_lt_atan2Real i.toReal q.toReal]
  · linarith [atan2Real_le_pi i.toReal q.toReal]

/-- The range of `AMPL` (R32, R183). -/
theorem amplitude_nonneg (c : Config) (i q : NumExpr) : 0 ≤ (amplitude c i q).toReal := by
  rw [amplitude_toReal]
  exact div_nonneg (Real.sqrt_nonneg _) (Nat.cast_nonneg _)

theorem NumbersOk.accumulate {s : State} (h : NumbersOk s) (trig : TrigOk s) (phase : s.phase ≠ .idle) {x : Sample}
    (fits : sampleFits s.cfg x = true) : NumbersOk (accumulate x s) :=
  { h with
    sumI := abs_add_sample_mul_le fits h.sumI (abs_cosine_le_one trig phase _)
    sumQ := abs_add_sample_mul_le fits h.sumQ (abs_sine_le_one trig phase _) }

/-- A completed window starts again from 0, with a result in range whatever the sums were (R181). -/
theorem completeWindow_numbers (s : State) : NumbersOk (completeWindow s) where
  sumI := by simp [completeWindow]
  sumQ := by simp [completeWindow]
  angle _ := angleDeg_range _ _
  ampl _ := amplitude_nonneg _ _ _

theorem NumbersOk.consumeSample {s : State} (h : NumbersOk s) (trig : TrigOk s) (phase : s.phase ≠ .idle) {x : Sample}
    (fits : sampleFits s.cfg x = true) : NumbersOk (consumeSample x s) := by
  by_cases closes : s.n + 1 = s.cfg.window
  · rw [consumeSample_close x closes]
    exact completeWindow_numbers _
  · rw [consumeSample_open x closes]
    exact h.accumulate trig phase fits

/-! ## The steps -/

/-- INIT and reset zero the sums and withdraw the result (R40, R200). -/
theorem NumbersOk.of_zero {s : State} (sumI : s.sumI = NumExpr.zero) (sumQ : s.sumQ = NumExpr.zero) (n : s.n = 0)
    (rvalid : s.rvalid = false) : NumbersOk s := by
  constructor <;> simp [sumI, sumQ, n, rvalid]

/-- The producer writes no number. -/
theorem ProducerMove.numbers {s t : State} (m : ProducerMove s t) (h : NumbersOk s) : NumbersOk t := by
  cases m <;> exact { h with }

/-- The consumer writes numbers in a CONSUME, in a LOOP's `L_CONSUME` and in an INIT. -/
theorem ConsumerMove.numbers {s t : State} (m : ConsumerMove s t) (inv : Inv s) (h : NumbersOk s) : NumbersOk t := by
  cases m with
  | consume x rest idle phase fits =>
    have base : NumbersOk { s with cIn := rest } := { h with }
    exact { base.consumeSample inv.trig phase fits with }
  | consumeInLoop seq phase => exact { h.consumeSample inv.trig phase (inv.sequencers.consume seq) with }
  | init => exact .of_zero rfl rfl rfl rfl
  | reenter seq => exact absurd seq inv.sequencers.notEnter
  | _ => exact { h with }

/-- Settles O60: each kind of step of `step_moves` keeps the bounds; `Inv` bounds the references and the samples. -/
theorem stepKeepsNumbers : Obligations.StepKeepsNumbers := by
  intro s t inv h run
  rcases step_moves run with rfl | ⟨sched, turn, m⟩ | ⟨sched, turn, m⟩ | ⟨a, w, rest, -, rfl⟩ | ⟨rest, -, rfl⟩
  · exact h
  · exact m.numbers { h with }
  · exact m.numbers (inv.reschedule sched turn) { h with }
  · cases a <;> exact { h with }
  · exact .of_zero rfl rfl rfl rfl

/-! ## Reset -/

/-- Settles O58: `resetOf_inv`, and the sums are 0 with no result valid. -/
theorem resetInv : Obligations.ResetInv := by
  have start (c : Config) (wf : c.wf) : Inv (State.resetOf c) ∧ NumbersOk (State.resetOf c) :=
    ⟨resetOf_inv wf, .of_zero rfl rfl rfl rfl⟩
  obtain ⟨inv, numbers⟩ := start Config.reference (by decide)
  exact ⟨inv, numbers, start⟩

/-- Settles O53: the fields as `resetOf` writes them; the ring is empty by `resetOf_live`. -/
theorem resetState : Obligations.ResetState :=
  ⟨rfl, fun c => ⟨rfl, rfl, rfl, rfl, rfl, toReal_zero, toReal_zero, rfl, rfl, rfl, rfl, rfl, resetOf_live c⟩⟩

end Sys2Proof.Machine
end

section
/-!
What a turn of an agent may write, and how it moves the indices, the phase and the signals (O16, O20, O21, O28).
-/

namespace Sys2Proof.Machine

/-- What a turn of the producer may write (R20): `t` is `s` outside the fields it has the right to. -/
theorem ProducerMove.frame {s t : State} (m : ProducerMove s t) :
    t = { s with
      buf := t.buf, wr := t.wr, dropcnt := t.dropcnt, pseq := t.pseq, pS := t.pS, pW := t.pW, pR := t.pR
      pIn := t.pIn, pOut := t.pOut, draw := t.draw } := by
  cases m <;> rfl

/-- Settles O20: the frame of every move of the producer. -/
theorem producerRights : Obligations.ProducerRights := fun _ _ run => (agentStep_producer run).frame

theorem lEnter_cases (s : State) :
    lEnter s = respondC (errorResponse .usageError) s ∨
      lEnter s = gotoC .load { s with cGot := false, cLoop := true } := by
  by_cases phase : s.phase = .idle
  · exact .inl (lEnter_idle phase)
  · exact .inr (lEnter_ready phase)

/-- What no turn of the consumer writes (R20). -/
theorem ConsumerMove.frame {s t : State} (m : ConsumerMove s t) :
    t.cfg = s.cfg ∧ t.buf = s.buf ∧ t.pseq = s.pseq ∧ t.pS = s.pS ∧ t.pW = s.pW ∧ t.pR = s.pR ∧
    t.pIn = s.pIn ∧ t.pOut = s.pOut ∧ t.sched = s.sched ∧ t.turn = s.turn := by
  cases m with
  | consume => simp
  | consumeInLoop => simp
  | init => simp
  | reenter => rcases lEnter_cases s with e | e <;> simp [e]
  | _ => exact ⟨rfl, rfl, rfl, rfl, rfl, rfl, rfl, rfl, rfl, rfl⟩

/-- What a turn of the consumer writes in a successful INIT only (R66, R122). -/
theorem ConsumerMove.keeps_ring {s t : State} (m : ConsumerMove s t) (no : ¬ takesInit s) :
    t.wr = s.wr ∧ t.dropcnt = s.dropcnt := by
  cases m with
  | consume => simp
  | consumeInLoop => simp
  | init _ _ _ _ _ _ _ fetch dec idle producer built params =>
    exact (ConsumerMove.not_init no fetch dec idle producer built params).elim
  | reenter => rcases lEnter_cases s with e | e <;> simp [e]
  | _ => exact ⟨rfl, rfl⟩

/-- What a successful INIT writes of the ring (R66, R122). -/
theorem takesInit_ring {s t : State} (init : takesInit s) (run : agentStep .consumer s = .next t) :
    t.wr = 0 ∧ t.rd = 0 ∧ t.dropcnt = 0 ∧ t.phase = .configured := by
  obtain ⟨pin, strat, q, l, rest, next⟩ := agentStep_takesInit init
  cases next.symm.trans run
  exact ⟨rfl, rfl, rfl, rfl⟩

/-- Settles O21: the frame of every move of the consumer, and the two outcomes of its next command being an INIT. -/
theorem consumerRights : Obligations.ConsumerRights := by
  intro s t run
  have m := agentStep_consumer run
  obtain ⟨cfg, buf, pseq, pS, pW, pR, pIn, pOut, sched, turn⟩ := m.frame
  exact ⟨cfg, buf, pseq, pS, pW, pR, pIn, pOut, sched, turn, m.keeps_ring, fun init => takesInit_ring init run⟩

/-! ## The indices -/

/-- The producer moves `WR` by one slot, at `P_PUBLISH` (R22). -/
theorem ProducerMove.indices {s t : State} (m : ProducerMove s t) (inv : Inv s) :
    (t.wr = s.wr ∨ t.wr = nextIndex s.cfg s.wr) ∧ t.rd = s.rd := by
  cases m with
  | publish seq =>
    obtain ⟨pW, -, -⟩ := inv.sequencers.publish seq
    exact ⟨.inr (congrArg (nextIndex s.cfg) pW), rfl⟩
  | _ => exact ⟨.inl rfl, rfl⟩

/-- The consumer moves `RD` by one slot, at `C_PUBLISH` (R23). -/
theorem ConsumerMove.readIndex {s t : State} (m : ConsumerMove s t) (inv : Inv s) (no : ¬ takesInit s) :
    t.rd = s.rd ∨ t.rd = nextIndex s.cfg s.rd := by
  cases m with
  | consume => simp
  | consumeInLoop => simp
  | init _ _ _ _ _ _ _ fetch dec idle producer built params =>
    exact (ConsumerMove.not_init no fetch dec idle producer built params).elim
  | reenter seq => exact absurd seq inv.sequencers.notEnter
  | popDone seq =>
    obtain ⟨cR, -, -⟩ := inv.sequencers.free seq
    exact .inr (congrArg (nextIndex s.cfg) cR)
  | popInLoop seq =>
    obtain ⟨cR, -, -⟩ := inv.sequencers.free seq
    exact .inr (congrArg (nextIndex s.cfg) cR)
  | _ => exact .inl rfl

/-- The live samples, each of them written (R24, R77). -/
theorem exists_live_samples {s : State} (inv : Inv s) :
    ∃ xs : List Sample, xs.length = liveCount s ∧ live s = xs.map some := by
  have written : live s ∈ Set.range (List.map some) := by
    rw [Set.range_list_map]
    exact fun v hv => ⟨_, Option.some_get (inv.memories.live v hv)⟩
  obtain ⟨xs, e⟩ := written
  exact ⟨xs, by rw [← live_length, ← e, List.length_map], e.symm⟩

/-- Settles O16: the arithmetic of the occupancy for the values of `Inv`, and the index moves of each agent's turn. -/
theorem ringInvariant : Obligations.RingInvariant := by
  intro s inv
  have wr := inv.counters.wr
  have rd := inv.counters.rd
  refine ⟨occupancy_lt wr rd, ?_, ?_, exists_live_samples inv, fun a t run => ⟨?_, fun no => ?_⟩⟩
  · simpa [flagEmpty, liveCount] using (occupancy_eq_zero wr rd).symm
  · have full := nextIndex_eq_iff_full wr rd
    simp only [flagFull, decide_eq_true_eq, full, liveCount]
    omega
  · rintro ⟨rfl, init⟩
    obtain ⟨wr, rd, -, -⟩ := takesInit_ring init run
    exact ⟨wr, rd⟩
  · cases a with
    | producer =>
      obtain ⟨wr, rd⟩ := (agentStep_producer run).indices inv
      exact ⟨wr, .inl rd⟩
    | consumer =>
      have m := agentStep_consumer run
      have no : ¬ takesInit s := fun init => no ⟨rfl, init⟩
      obtain ⟨wr, -⟩ := m.keeps_ring no
      exact ⟨.inl wr, m.readIndex inv no⟩

/-! ## The phase and the signals -/

/-- The producer sends no signal and leaves the phase alone. -/
theorem ProducerMove.phase_signals {s t : State} (m : ProducerMove s t) : t.phase = s.phase ∧ t.signals = s.signals := by
  cases m <;> exact ⟨rfl, rfl⟩

/-- Settles O28: START, STOP and INIT move the phase, each with its signals (R240); nothing else does. -/
theorem phaseAndSignals : Obligations.PhaseAndSignals := by
  intro s t a run
  cases a with
  | producer => exact .inl (agentStep_producer run).phase_signals
  | consumer =>
    cases agentStep_consumer run with
    | start rest idle phase => exact .inr (.inr (.inl ⟨phase, rfl, rfl⟩))
    | stop rest idle producer phase => exact .inr (.inr (.inr ⟨phase, rfl, .inl rfl⟩))
    | init pin =>
      by_cases phase : s.phase = .running
      · exact .inr (.inr (.inr ⟨phase, rfl, .inr ⟨pin, by simp [phase]⟩⟩))
      · exact .inr (.inl ⟨phase, rfl, pin, by simp [phase]⟩)
    | consume => simp
    | consumeInLoop => simp
    | reenter => rcases lEnter_cases s with e | e <;> simp [e]
    | _ => exact .inl ⟨rfl, rfl⟩

end Sys2Proof.Machine
end

section
/-!
RDREG and STATUS (O50, O51), and the step of an idle agent as `exec` of the command at its port (O55).
-/

namespace Sys2Proof.Machine

/-! ## RDREG -/

/-- RDREG answers without any other effect (R202). -/
theorem exec_rdreg {s : State} {reg : RegNo} {r : Reg} (idle : s.cseq = .idle) (known : regOfNumber reg = some r) :
    exec (.rdreg reg) s = .next { s with cOut := s.cOut ++ [regResponse (readReg s r)] } := by
  have keeps : { s with cseq := .idle } = s := by rw [← idle]
  calc exec (.rdreg reg) s = .next (answerRead (regResponse (readReg s r)) s) := execRdreg_legal idle known
    _ = .next { s with cOut := s.cOut ++ [regResponse (readReg s r)] } := by rw [answerRead, ← idle]

/-- No register depends on the responses given before (R64). -/
theorem readReg_cOut (s : State) (out : List Response) (r : Reg) : readReg { s with cOut := out } r = readReg s r := by
  cases r <;> rfl

theorem intPayload_of_lt {v : Nat} (h : v < 2 ^ 32) : intPayload v = .word (BitVec.ofNat 32 v) := by
  rw [intPayload, if_pos h]

theorem intPayload_pin (p : PinId) : intPayload p.toNat = .word (p.setWidth 32) := by
  rw [intPayload_of_lt (by omega), BitVec.ofNat_toNat]

theorem specified_known {known : Bool} (h : known = true) (v : Payload) (r : RegNo) (s : State) :
    specified known v r s = v := if_pos h

/-- Settles O50: `execRdreg` reads the register its number names, twice the same, and each number names its register. -/
theorem rdregReads : Obligations.RdregReads := by
  intro s r idle
  refine ⟨fun reserved => ?_, fun legal => ?_⟩
  · rw [legalReg_eq, Option.isSome_eq_false_iff, Option.isNone_iff_eq_none] at reserved
    show execRdreg r s = _
    rw [execRdreg_reserved idle reserved, raise_consumer, respondC, ← idle]
  · rw [legalReg_eq] at legal
    obtain ⟨reg, known⟩ := Option.isSome_iff_exists.mp legal
    have named {k : RegNo} {q : Reg} (e : r = k) (number : regOfNumber k = some q) : readReg s reg = readReg s q := by
      rw [Option.some.inj (known.symm.trans (e ▸ number))]
    have again := exec_rdreg (s := { s with cOut := s.cOut ++ [regResponse (readReg s reg)] }) idle known
    rw [readReg_cOut] at again
    have outside (h : s.phase ≠ .idle) : decide (s.phase ≠ .idle) = true := decide_eq_true h
    exact ⟨_, readReg s reg, exec_rdreg idle known, rfl, again,
      fun e => named e rfl,
      fun e lt => (named e rfl).trans (intPayload_of_lt lt),
      fun e lt => (named e rfl).trans (intPayload_of_lt lt),
      fun e lt => (named e rfl).trans (intPayload_of_lt lt),
      fun e lt => (named e rfl).trans (intPayload_of_lt lt),
      fun e p => (named e rfl).trans ((specified_known (outside p) ..).trans (intPayload_pin _)),
      fun e lt => (named e rfl).trans (intPayload_of_lt lt),
      fun e p => (named e rfl).trans (specified_known (outside p) ..),
      fun e => named e rfl,
      fun e => named e rfl,
      fun e valid => (named e rfl).trans (specified_known valid ..),
      fun e valid => (named e rfl).trans (specified_known valid ..)⟩

/-! ## STATUS -/

theorem getLsbD_bit (b : Bool) (i : Nat) : (bit b).getLsbD i = (decide (i = 0) && b) := by
  rw [bit, BitVec.getLsbD_ofBool]

/-- The layout of R38, at the width the pieces add up to. -/
theorem getLsbD_layout (r f e q t : Bool) (c : BitVec 2) (i : Nat) :
    (0#25 ++ bit r ++ bit f ++ bit e ++ bit q ++ bit t ++ c).getLsbD i =
      if i < 2 then c.getLsbD i else [t, q, e, f, r].getD (i - 2) false := by
  simp only [BitVec.getLsbD_append, getLsbD_bit]
  match i with
  | 0 | 1 | 2 | 3 | 4 | 5 | 6 => simp
  | i + 7 => simp

/-- The bits of `STATUS` (R38). -/
theorem statusWord_getLsbD (s : State) (i : Nat) :
    (statusWord s).getLsbD i =
      if i < 2 then s.phase.code.getLsbD i
      else [flagStrat s, flagQbias s, flagEmpty s, flagFull s, s.rvalid].getD (i - 2) false :=
  getLsbD_layout ..

/-- Settles O51: RDREG of number 0 is `exec_rdreg`, and the fields are bits of the layout. -/
theorem statusFields : Obligations.StatusFields := by
  intro s
  refine ⟨fun idle => exec_rdreg (r := .status) idle rfl, ?_, ?_, ?_, ?_, ?_, ?_, ?_⟩
  · have low : (statusWord s).extractLsb' 0 2 = s.phase.code := by
      refine BitVec.eq_of_getLsbD_eq fun i hi => ?_
      simp [statusWord_getLsbD, hi]
    rw [low]; cases s.phase <;> rfl
  · rw [statusWord_getLsbD]
    cases strat : s.strat <;> simp [flagStrat, stratCode, strat]
  · rw [statusWord_getLsbD]
    simp [flagQbias, and_assoc]
  · rw [statusWord_getLsbD]
    exact decide_eq_true_iff
  · rw [statusWord_getLsbD]
    exact decide_eq_true_iff
  · rw [statusWord_getLsbD]
    rfl
  · refine BitVec.eq_of_getLsbD_eq fun i hi => ?_
    have above : ¬ 7 + i < 2 := by omega
    have beyond : 7 + i - 2 = i + 5 := by omega
    rw [BitVec.getLsbD_extractLsb', statusWord_getLsbD, if_neg above, beyond]
    simp

/-! ## Steps -/

/-- An idle producer whose next command decodes has a micro-step enabled, and it is `exec` of that command (R36). -/
theorem agentStep_exec_producer {s : State} {cmd rest : List Word} {i : Instr} (idle : s.pseq = .idle)
    (fetch : fetchCommand s.pIn = some (cmd, rest)) (dec : decode s.cfg .producer cmd = .ok i) :
    enabled .producer s = true ∧ agentStep .producer s = exec i { s with pIn := rest } := by
  have can : enabled .producer s = true := by simp [enabled, canAccept, portIn, fetch, dec, idle]
  refine ⟨can, ?_⟩
  simp only [agentStep, can, if_true, producerStep, idle, takeCommand, portIn, fetch, accept, setPortIn, dec]

theorem agentStep_exec_consumer {s : State} {cmd rest : List Word} {i : Instr} (idle : s.cseq = .idle)
    (fetch : fetchCommand s.cIn = some (cmd, rest)) (dec : decode s.cfg .consumer cmd = .ok i)
    (ready : holdsForProducer i = true → s.pseq = .idle) :
    enabled .consumer s = true ∧ agentStep .consumer s = exec i { s with cIn := rest } := by
  have can : enabled .consumer s = true := by
    cases hold : holdsForProducer i <;> simp_all [enabled, canAccept, portIn]
  refine ⟨can, ?_⟩
  simp only [agentStep, can, if_true, consumerStep, idle, takeCommand, portIn, fetch, accept, setPortIn, dec]

/-- Settles O55: a turn of the idle agent is `exec` of its command, whether the schedule names it or it moves freely. -/
theorem stepRunsDecoded : Obligations.StepRunsDecoded := by
  intro s cmd rest i
  refine ⟨fun idle fetch dec => ⟨fun later sched => ?_, fun none other => ?_⟩,
    fun idle fetch dec ready => ⟨fun later sched => ?_, fun none other => ?_⟩⟩
  · obtain ⟨-, run⟩ := agentStep_exec_producer (s := { s with sched := later }) idle fetch dec
    simpa only [step, stepBy, sched] using run
  · obtain ⟨can, run⟩ := agentStep_exec_producer idle fetch dec
    simpa only [step, stepBy, none, freeStep, can, other] using run
  · obtain ⟨-, run⟩ := agentStep_exec_consumer (s := { s with sched := later }) idle fetch dec ready
    simpa only [step, stepBy, sched] using run
  · obtain ⟨can, run⟩ := agentStep_exec_consumer idle fetch dec ready
    simpa only [step, stepBy, none, freeStep, can, other] using run

end Sys2Proof.Machine
end

section
/-!
The ring as a queue (O17): what each agent's turn does to the list of live samples.
-/

namespace Sys2Proof.Machine

/-- Equal indices leave no live sample (R24). -/
theorem live_eq_nil {s : State} (empty : s.wr = s.rd) : live s = [] := by
  simp [live, liveCount, occupancy, empty]

/-- `P_PUBLISH` enters the latched sample as the youngest (R77 (a)). -/
theorem Inv.live_pPublish {s : State} (inv : Inv s) (seq : s.pseq = .publish) :
    live (pPublish s) = live s ++ [some s.pS] := by
  obtain ⟨pW, held, room⟩ := inv.sequencers.publish seq
  rw [pW] at held
  calc live (pPublish s)
      = live { s with wr := nextIndex s.cfg s.wr } := live_congr rfl rfl (congrArg (nextIndex s.cfg) pW) rfl
    _ = live s ++ [s.buf.read s.wr] := live_publish inv.counters.wr inv.counters.rd room
    _ = live s ++ [some s.pS] := by rw [held]

/-- The producer's other moves leave the live samples alone: `P_WRITE` writes the slot at `WR`, which is not live. -/
theorem ProducerMove.keeps_live {s t : State} (m : ProducerMove s t) (inv : Inv s) (seq : s.pseq ≠ .publish) :
    live t = live s := by
  cases m with
  | write writing =>
    obtain ⟨-, pW, -⟩ := inv.sequencers.write writing
    rw [pW]
    exact live_write inv.counters.wr inv.counters.rd s.pS
  | publish publishing => exact absurd publishing seq
  | _ => exact live_congr rfl rfl rfl rfl

theorem cPublish_ring (s : State) :
    (cPublish s).cfg = s.cfg ∧ (cPublish s).buf = s.buf ∧ (cPublish s).wr = s.wr ∧
      (cPublish s).rd = nextIndex s.cfg s.cR := by
  cases loop : s.cLoop
  · rw [cPublish_pop loop]; exact ⟨rfl, rfl, rfl, rfl⟩
  · rw [cPublish_loop loop]; exact ⟨rfl, rfl, rfl, rfl⟩

/-- `C_PUBLISH` takes the oldest sample, and `c_v` holds it (R77 (b)). -/
theorem Inv.live_cPublish {s : State} (inv : Inv s) (seq : s.cseq = .publish) :
    live s = some s.cV :: live (cPublish s) := by
  obtain ⟨cR, some_live, held⟩ := inv.sequencers.free seq
  obtain ⟨cfg, buf, wr, rd⟩ := cPublish_ring s
  rw [cR] at held rd
  have younger : live (cPublish s) = live { s with rd := nextIndex s.cfg s.rd } := live_congr cfg buf wr rd
  calc live s
      = s.buf.read s.rd :: live { s with rd := nextIndex s.cfg s.rd } :=
        live_free inv.counters.wr inv.counters.rd some_live
    _ = some s.cV :: live (cPublish s) := by rw [held, younger]

/-- The consumer moves `RD` at `C_PUBLISH` and in a successful INIT only (R23, R66). -/
theorem ConsumerMove.keeps_rd {s t : State} (m : ConsumerMove s t) (no : ¬ takesInit s) (seq : s.cseq ≠ .publish) :
    t.rd = s.rd := by
  cases m with
  | consume => simp
  | consumeInLoop => simp
  | init _ _ _ _ _ _ _ fetch dec idle producer built params =>
    exact (ConsumerMove.not_init no fetch dec idle producer built params).elim
  | popDone publishing => exact absurd publishing seq
  | popInLoop publishing => exact absurd publishing seq
  | reenter => rcases lEnter_cases s with e | e <;> simp [e]
  | _ => rfl

theorem ConsumerMove.keeps_live {s t : State} (m : ConsumerMove s t) (no : ¬ takesInit s) (seq : s.cseq ≠ .publish) :
    live t = live s := by
  obtain ⟨cfg, buf, -⟩ := m.frame
  obtain ⟨wr, -⟩ := m.keeps_ring no
  exact live_congr cfg buf wr (m.keeps_rd no seq)

/-- Settles O17: an agent about to publish moves one sample at its end of the queue, INIT empties it, and every other move
keeps the live samples. -/
theorem ringIsQueue : Obligations.RingIsQueue := by
  refine fun s t inv => ⟨fun run => ?_, fun run => ?_⟩
  · by_cases seq : s.pseq = .publish
    · cases (agentStep_publish seq).symm.trans run
      rw [if_pos seq]
      exact inv.live_pPublish seq
    · rw [if_neg seq, List.append_nil]
      exact (agentStep_producer run).keeps_live inv seq
  · by_cases seq : s.cseq = .publish
    · cases (agentStep_free seq).symm.trans run
      rw [if_pos seq]
      exact inv.live_cPublish seq
    · rw [if_neg seq]
      refine ⟨fun init => ?_, fun no => (agentStep_consumer run).keeps_live no seq⟩
      obtain ⟨wr, rd, -⟩ := takesInit_ring init run
      exact live_eq_nil (wr.trans rd.symm)

end Sys2Proof.Machine
end

section
/-!
Which micro-step a step is (O56), and the commands that wait for a busy producer (O25).
-/

namespace Sys2Proof.Machine

theorem step_unscheduled {s : State} (unscheduled : s.sched = []) : step s = freeStep s := by
  simp only [step, stepBy, unscheduled]

/-- With no schedule an agent that alone has a micro-step enabled moves (R236). -/
theorem freeStep_only {s : State} {a b : Agent} (ne : a ≠ b) (can : enabled a s = true) (other : enabled b s = false) :
    freeStep s = agentStep a s := by
  cases a <;> cases b
  · exact absurd rfl ne
  · simp only [freeStep, can, other]
  · simp only [freeStep, can, other]
  · exact absurd rfl ne

/-- With no schedule and both agents enabled, the arbiter is asked (log 7). -/
theorem freeStep_both {s : State} (producer : enabled .producer s = true) (consumer : enabled .consumer s = true) :
    freeStep s = agentStep (Config.arbiter s.turn) { s with turn := s.turn + 1 } := by
  simp only [freeStep, producer, consumer]

/-- With no schedule and no agent enabled, nothing happens (R244). -/
theorem freeStep_neither {s : State} (producer : enabled .producer s = false) (consumer : enabled .consumer s = false) :
    freeStep s = .next s :=
  freeStep_none (by simp only [freeAgent, producer, consumer])

/-- Settles O56: a scheduled step is its entry, an unscheduled one is `freeStep` by which agents are enabled. -/
theorem stepChoosesAgent : Obligations.StepChoosesAgent := by
  refine fun s => ⟨fun a later sched => ?_, fun w later sched => ?_, fun w later sched => ?_, fun unscheduled => ?_⟩
  · simp only [step, stepBy, sched]
  · simp only [step, stepBy, sched, setPortIn, portIn]
  · simp only [step, stepBy, sched, setPortIn, portIn]
  · rw [step_unscheduled unscheduled]
    exact ⟨fun _ _ => freeStep_only, fun producer consumer => ⟨_, freeStep_both producer consumer⟩, freeStep_neither⟩

/-- An idle consumer whose next command holds for the producer has nothing enabled while the producer is busy (R71). -/
theorem agentStep_held {s : State} {cmd rest : List Word} {i : Instr} (busy : s.pseq ≠ .idle) (idle : s.cseq = .idle)
    (fetch : fetchCommand s.cIn = some (cmd, rest)) (dec : decode s.cfg .consumer cmd = .ok i)
    (holds : holdsForProducer i = true) : agentStep .consumer s = .next s := by
  have blocked : enabled .consumer s = false := by
    simp [enabled, idle, canAccept, portIn, fetch, dec, holds, busy]
  simp [agentStep, blocked]

/-- Settles O25: INIT and STOP hold for the producer, and `exec` of each waits for it. -/
theorem heldForProducer : Obligations.HeldForProducer := by
  rintro s cmd rest i busy idle fetch dec (⟨pin, strat, f0bits, rfl⟩ | rfl)
  · exact ⟨agentStep_held busy idle fetch dec rfl, execInit_waits pin strat f0bits busy⟩
  · exact ⟨agentStep_held busy idle fetch dec rfl, execStop_waits busy⟩

end Sys2Proof.Machine
end

section
/-!
Words over a byte transport (O11).
-/

namespace Sys2Proof

/-- A word is its four bytes, the least significant one last (R61). -/
theorem bytes_append (w : Word) : (field w 24 8 ++ field w 16 8 ++ field w 8 8 ++ field w 0 8 : Word) = w := by
  apply BitVec.eq_of_toNat_eq
  simp only [append_toNat, field_toNat]
  omega

/-- The first four bytes of a stream are its first word (R61). -/
theorem wordsOfBytes_wordBytes_append (w : Word) (rest : List Byte) :
    wordsOfBytes (wordBytes w ++ rest) = w :: wordsOfBytes rest :=
  congrArg (· :: wordsOfBytes rest) (bytes_append w)

theorem wordsOfBytes_flatMap (ws : List Word) : wordsOfBytes (ws.flatMap wordBytes) = ws := by
  induction ws with
  | nil => rfl
  | cons w ws ih => rw [List.flatMap_cons, wordsOfBytes_wordBytes_append, ih]

/-- Settles O11: each word is joined again from its own four bytes. -/
theorem byteTransport : Obligations.ByteTransport := fun ws => ⟨wordsOfBytes_flatMap ws, fun _ => rfl⟩

end Sys2Proof
end

section
/-!
Commands and their words (R90 to R94): each direction of the round trip (O1, O2), the port a command belongs to (O6) and
its length (O4).
-/

namespace Sys2Proof

/-! ## Length -/

/-- An INIT header takes the next word with it (R90). -/
theorem fetchCommand_init {w : Word} (init : opcode w = 0x10#8) (payload : Word) (rest : List Word) :
    fetchCommand (w :: payload :: rest) = some ([w, payload], rest) := if_pos init

/-- An INIT header alone has not wholly arrived (R90, log 19). -/
theorem fetchCommand_lone_init {w : Word} (init : opcode w = 0x10#8) : fetchCommand [w] = none := if_pos init

/-- Every other first word is a whole command (R90). -/
theorem fetchCommand_single {w : Word} (other : opcode w ≠ 0x10#8) (rest : List Word) :
    fetchCommand (w :: rest) = some ([w], rest) := if_neg other

/-- Settles O4: the two branches of `fetchCommand`. -/
theorem commandLength : Obligations.CommandLength := fun _ ws =>
  ⟨fun init => ⟨fetchCommand_lone_init init, fun payload => fetchCommand_init init payload ws⟩,
    fun other => fetchCommand_single other ws⟩

/-- A command is cut off a port whole, whatever follows it. -/
theorem fetchCommand_encode (i : Instr) (rest : List Word) :
    fetchCommand (encode i ++ rest) = some (encode i, rest) := by
  cases i with
  | init pin strat f0bits => exact fetchCommand_init (opcode_formI _ _ _) f0bits rest
  | push x | consume x | tick x => exact fetchCommand_single (by rw [opcode_formS]; decide) rest
  | rdreg r => exact fetchCommand_single (by rw [opcode_formR]; decide) rest
  | pop | start | stop | loop => exact fetchCommand_single (by rw [opcode_formZ]; decide) rest

/-! ## Operands: what each format carries is read back -/

theorem sample_formS (o : BitVec 8) (x : Sample) : field (o ++ x) 0 24 = x :=
  BitVec.eq_of_toNat_eq (by rw [field_toNat, formS_toNat]; omega)

theorem reserved_formR (o : BitVec 8) (r : RegNo) : field (o ++ 0#16 ++ r) 8 16 = 0#16 :=
  BitVec.eq_of_toNat_eq (by rw [field_toNat, formR_toNat, BitVec.toNat_ofNat]; omega)

theorem reg_formR (o : BitVec 8) (r : RegNo) : field (o ++ 0#16 ++ r) 0 8 = r :=
  BitVec.eq_of_toNat_eq (by rw [field_toNat, formR_toNat]; omega)

theorem reserved_formI (o : BitVec 8) (b : BitVec 1) (p : PinId) : field (o ++ 0#15 ++ b ++ p) 9 15 = 0#15 :=
  BitVec.eq_of_toNat_eq (by rw [field_toNat, formI_toNat, BitVec.toNat_ofNat]; omega)

theorem strat_formI (o : BitVec 8) (b : BitVec 1) (p : PinId) : field (o ++ 0#15 ++ b ++ p) 8 1 = b :=
  BitVec.eq_of_toNat_eq (by rw [field_toNat, formI_toNat]; omega)

theorem pin_formI (o : BitVec 8) (b : BitVec 1) (p : PinId) : field (o ++ 0#15 ++ b ++ p) 0 8 = p :=
  BitVec.eq_of_toNat_eq (by rw [field_toNat, formI_toNat]; omega)

/-! The decoder of each format on a word of that format (R91). -/

theorem decodeS_formS {c : Config} {x : Sample} (fits : sampleFits c x = true) (o : BitVec 8) (mk : Sample → Instr) :
    decodeS c (o ++ x) mk = .ok (mk x) := by
  rw [decodeS, sample_formS, if_pos (of_decide_eq_true fits)]

theorem decodeZ_formZ (o : BitVec 8) (i : Instr) : decodeZ (o ++ 0#24) i = .ok i := if_pos (sample_formS o 0#24)

theorem decodeR_formR {r : RegNo} (legal : legalReg r = true) (o : BitVec 8) :
    decodeR (o ++ 0#16 ++ r) = .ok (.rdreg r) := by
  rw [decodeR, if_pos (reserved_formR o r), reg_formR, if_pos (legalReg_eq r ▸ legal)]

theorem decodeI_formI {c : Config} {p : PinId} (fits : pinFits c p = true) (o : BitVec 8) (strat : Strategy)
    (payload : Word) : decodeI c (o ++ 0#15 ++ stratBit strat ++ p) payload = .ok (.init p strat payload) := by
  rw [decodeI, reserved_formI, pin_formI, strat_formI, strategyOfBit_stratBit, if_pos ⟨rfl, of_decide_eq_true fits⟩]

/-! ## Encode, then decode -/

/-- Each opcode selects the decoder of its own format (R93). -/
theorem decodeForm_encode {c : Config} {i : Instr} (wf : i.wellFormed c = true) : decodeForm c (encode i) = .ok i := by
  cases i with
  | push x | consume x | tick x =>
    simp only [encode, decodeForm, opcode_formS]
    exact decodeS_formS wf _ _
  | pop | start | stop | loop =>
    simp only [encode, decodeForm, opcode_formZ]
    exact decodeZ_formZ _ _
  | init pin strat f0bits =>
    simp only [encode, decodeForm, opcode_formI]
    exact decodeI_formI wf _ _ _
  | rdreg r =>
    simp only [encode, decodeForm, opcode_formR]
    exact decodeR_formR wf _

theorem decode_encode {c : Config} {i : Instr} (wf : i.wellFormed c = true) : decode c (portOf i) (encode i) = .ok i :=
  decode_ok_iff.mpr ⟨decodeForm_encode wf, rfl⟩

/-- Settles O1: at its own port the words of a command decode to it, and they are cut off as one command. -/
theorem decodeEncode : Obligations.DecodeEncode := fun _ i _ wf => ⟨decode_encode wf, fetchCommand_encode i⟩

/-! ## Ports -/

/-- At the other port a well-formed command is refused (R94, R98 (c)). -/
theorem decode_encode_wrongPort {c : Config} {a : Agent} {i : Instr} (wf : i.wellFormed c = true)
    (wrong : portOf i ≠ a) :
    decode c a (encode i) = .error .wrongPort := by
  simp only [decode, decodeForm_encode wf, if_neg wrong]

theorem portOf_producer (i : Instr) : portOf i = .producer ↔ (∃ x, i = .push x) ∨ (∃ x, i = .tick x) := by
  cases i <;> simp [portOf]

/-- Settles O6: a well-formed command decodes at a port exactly if that is its own (`decode_ok_iff`). -/
theorem portRights : Obligations.PortRights := by
  refine fun c i _ wf => ⟨portOf_producer i, fun a => ⟨⟨fun ok => (decode_ok_iff.mp ok).2, ?_⟩,
    decode_encode_wrongPort wf⟩⟩
  rintro rfl
  exact decode_encode wf

/-! ## Decode, then encode: a word is rebuilt from the fields its format has (R91) -/

theorem formS_of_fields {w : Word} {o : BitVec 8} (op : opcode w = o) : (o ++ field w 0 24 : Word) = w := by
  subst op
  exact BitVec.eq_of_toNat_eq (by rw [formS_toNat, opcode_toNat, field_toNat]; omega)

theorem formR_of_fields {w : Word} {o : BitVec 8} (op : opcode w = o) (reserved : field w 8 16 = 0#16) :
    (o ++ 0#16 ++ field w 0 8 : Word) = w := by
  subst op
  have zero := congrArg BitVec.toNat reserved
  rw [field_toNat, BitVec.toNat_ofNat] at zero
  exact BitVec.eq_of_toNat_eq (by rw [formR_toNat, opcode_toNat, field_toNat]; omega)

theorem formI_of_fields {w : Word} {o : BitVec 8} (op : opcode w = o) (reserved : field w 9 15 = 0#15) :
    (o ++ 0#15 ++ field w 8 1 ++ field w 0 8 : Word) = w := by
  subst op
  have zero := congrArg BitVec.toNat reserved
  rw [field_toNat, BitVec.toNat_ofNat] at zero
  exact BitVec.eq_of_toNat_eq (by rw [formI_toNat, opcode_toNat, field_toNat, field_toNat]; omega)

theorem formZ_of_fields {w : Word} {o : BitVec 8} (op : opcode w = o) (reserved : field w 0 24 = 0#24) :
    (o ++ 0#24 : Word) = w := reserved ▸ formS_of_fields op

theorem encode_decodeForm {c : Config} {cmd : List Word} {i : Instr} (h : decodeForm c cmd = .ok i) :
    encode i = cmd := by
  have opcode_eq {w : Word} {o : BitVec 8} (op : (opcode w).toNat = o.toNat) : opcode w = o := BitVec.eq_of_toNat_eq op
  unfold decodeForm at h
  split at h
  · split at h
    · next op => obtain ⟨_, rfl⟩ := decodeS_ok h; exact congrArg ([·]) (formS_of_fields (opcode_eq op))
    · next op => obtain ⟨z, rfl⟩ := decodeZ_ok h; exact congrArg ([·]) (formZ_of_fields (opcode_eq op) z)
    · next op => obtain ⟨_, rfl⟩ := decodeS_ok h; exact congrArg ([·]) (formS_of_fields (opcode_eq op))
    · next op => obtain ⟨_, rfl⟩ := decodeS_ok h; exact congrArg ([·]) (formS_of_fields (opcode_eq op))
    · next op => obtain ⟨z, rfl⟩ := decodeZ_ok h; exact congrArg ([·]) (formZ_of_fields (opcode_eq op) z)
    · next op => obtain ⟨z, rfl⟩ := decodeZ_ok h; exact congrArg ([·]) (formZ_of_fields (opcode_eq op) z)
    · next op => obtain ⟨z, rfl⟩ := decodeZ_ok h; exact congrArg ([·]) (formZ_of_fields (opcode_eq op) z)
    · next op => obtain ⟨z, _, rfl⟩ := decodeR_ok h; exact congrArg ([·]) (formR_of_fields (opcode_eq op) z)
    · cases h
    · cases h
  · next w payload =>
    split at h
    · next op =>
      obtain ⟨z, _, rfl⟩ := decodeI_ok h
      rw [encode, stratBit_strategyOfBit, formI_of_fields op z]
    · cases h
  · cases h

/-- Settles O2: the words are rebuilt by `encode_decodeForm`; the port and the operands are what `decode` checked. -/
theorem encodeDecode : Obligations.EncodeDecode := by
  intro c a cmd i _ ok
  obtain ⟨form, port⟩ := decode_ok_iff.mp ok
  exact ⟨encode_decodeForm form, port, decode_wellFormed ok⟩

end Sys2Proof
end

section
/-!
The opcode table as the decoder's other form (O3): a row covers exactly the first words of its command.
-/

namespace Sys2Proof

/-! ## What the fixed bits of each format leave open (R91) -/

/-- A word whose bits from `k` on are an opcode carries a number below `2^k` under it. -/
theorem shifted_covers {k : Nat} (hk : k ≤ 24) {o : BitVec 8} {w : Word} :
    w &&& (BitVec.allOnes 32 <<< k) = o ++ 0#24 ↔ ∃ x : Sample, x.toNat < 2 ^ k ∧ w = o ++ x := by
  have split : 2 ^ 24 = 2 ^ (24 - k) * 2 ^ k := by rw [← Nat.pow_add, Nat.sub_add_cancel hk]
  have small : 2 ^ k ≤ 2 ^ 24 := Nat.pow_le_pow_right (by decide) hk
  rw [← BitVec.toNat_inj, mask_toNat w k (hk.trans (by decide)), formZ_toNat]
  constructor
  · intro fixed
    have rest := Nat.mod_lt w.toNat (Nat.two_pow_pos k)
    have sum := Nat.div_add_mod' w.toNat (2 ^ k)
    refine ⟨BitVec.ofNat 24 (w.toNat % 2 ^ k), ?_, BitVec.eq_of_toNat_eq ?_⟩
    · rwa [BitVec.toNat_ofNat, Nat.mod_eq_of_lt (rest.trans_le small)]
    · rw [formS_toNat, BitVec.toNat_ofNat, Nat.mod_eq_of_lt (rest.trans_le small), ← fixed, sum]
  · rintro ⟨x, fits, rfl⟩
    rw [formS_toNat, split, ← mul_assoc, add_comm, Nat.add_mul_div_right _ _ (Nat.two_pow_pos k),
      Nat.div_eq_of_lt fits, zero_add]

/-- Format S: a sample of `SAMPLE_BITS` bits (R92). -/
theorem maskS_covers {c : Config} {o : BitVec 8} {w : Word} :
    w &&& maskS c = o ++ 0#24 ↔ ∃ x, sampleFits c x = true ∧ w = o ++ x := by
  have fits_iff (x : Sample) : sampleFits c x = true ↔ x.toNat < 2 ^ min c.sampleBits 24 := by
    rw [sampleFits, decide_eq_true_iff]
    rcases le_total c.sampleBits 24 with le | le
    · rw [min_eq_left le]
    · have := Nat.pow_le_pow_right (n := 2) (by decide) le
      rw [min_eq_right le]
      omega
  simp only [maskS, shifted_covers (min_le_right _ _), fits_iff]

/-- Format Z: nothing. -/
theorem allOnes_covers {o : BitVec 8} {w : Word} : w &&& 0xFFFFFFFF#32 = o ++ 0#24 ↔ w = o ++ 0#24 := by
  rw [show 0xFFFFFFFF#32 = BitVec.allOnes 32 from rfl, BitVec.and_allOnes]

/-- Format R: a register number. -/
theorem maskR_covers {o : BitVec 8} {w : Word} : w &&& 0xFFFFFF00#32 = o ++ 0#24 ↔ ∃ r : RegNo, w = o ++ 0#16 ++ r := by
  rw [show 0xFFFFFF00#32 = BitVec.allOnes 32 <<< 8 from rfl, shifted_covers (by decide)]
  constructor
  · rintro ⟨x, small, rfl⟩
    refine ⟨field (o ++ x) 0 8, BitVec.eq_of_toNat_eq ?_⟩
    rw [formR_toNat, formS_toNat, field_toNat, formS_toNat]
    omega
  · rintro ⟨r, rfl⟩
    refine ⟨(0#16 ++ r : BitVec 24), ?_, BitVec.eq_of_toNat_eq ?_⟩
    · rw [append_toNat, BitVec.toNat_ofNat]
      omega
    · rw [formR_toNat, formS_toNat, append_toNat, BitVec.toNat_ofNat]
      omega

theorem toNat_lt_two_pow_iff {n : Nat} (x : BitVec n) (k : Nat) :
    x.toNat < 2 ^ k ↔ ∀ i, k ≤ i → x.getLsbD i = false :=
  ⟨fun lt _ hi => Nat.testBit_eq_false_of_lt (lt.trans_le (Nat.pow_le_pow_right (by decide) hi)),
    Nat.lt_pow_two_of_testBit x.toNat⟩

theorem getLsbD_pinMask (k i : Nat) :
    (BitVec.setWidth 32 (BitVec.allOnes 8 <<< k)).getLsbD i = decide (k ≤ i ∧ i < 8) := by
  simp only [BitVec.getLsbD_setWidth, BitVec.getLsbD_shiftLeft, BitVec.getLsbD_allOnes]
  grind

/-- The pin bits that an INIT header reserves are those above `PIN_BITS` (log 12). -/
theorem pinMask_clears {c : Config} {w : Word} :
    w &&& BitVec.setWidth 32 (BitVec.allOnes 8 <<< c.pinBits) = 0#32 ↔ pinFits c (field w 0 8) = true := by
  have pin (i : Nat) : (field w 0 8).getLsbD i = (decide (i < 8) && w.getLsbD i) := by
    rw [field, BitVec.getLsbD_extractLsb', zero_add]
  rw [pinFits, decide_eq_true_iff, toNat_lt_two_pow_iff]
  constructor
  · intro clear i hi
    have bit := congrArg (·.getLsbD i) clear
    simp only [BitVec.getLsbD_and, getLsbD_pinMask, BitVec.getLsbD_zero] at bit
    rw [pin]
    grind
  · intro clear
    refine BitVec.eq_of_getLsbD_eq fun i _ => ?_
    have bit := clear i
    rw [pin] at bit
    simp only [BitVec.getLsbD_and, getLsbD_pinMask, BitVec.getLsbD_zero]
    grind

theorem and_or_and_left {n : Nat} (w a b : BitVec n) : w &&& (a ||| b) &&& a = w &&& a := by
  ext i hi
  simp only [BitVec.getElem_and, BitVec.getElem_or]
  cases a[i] <;> simp

theorem and_or_and_right {n : Nat} (w a b : BitVec n) : w &&& (a ||| b) &&& b = w &&& b := by
  rw [BitVec.or_comm, and_or_and_left]

/-- The fixed bits of an INIT header are those of its upper part and the reserved pin bits. -/
theorem maskI_covers_iff {c : Config} {o : BitVec 8} {w : Word} :
    w &&& maskI c = o ++ 0#24 ↔
      w &&& (BitVec.allOnes 32 <<< 9) = o ++ 0#24 ∧ pinFits c (field w 0 8) = true := by
  set low := BitVec.setWidth 32 (BitVec.allOnes 8 <<< c.pinBits) with hlow
  have mask : maskI c = BitVec.allOnes 32 <<< 9 ||| low := rfl
  have high_pattern : (o ++ 0#24 : Word) &&& (BitVec.allOnes 32 <<< 9) = o ++ 0#24 :=
    (shifted_covers (by decide)).mpr ⟨0#24, by decide, rfl⟩
  have low_pattern : (o ++ 0#24 : Word) &&& low = 0#32 := by
    rw [pinMask_clears, pinFits, decide_eq_true_iff, field_toNat, formZ_toNat]
    have := Nat.two_pow_pos c.pinBits
    omega
  rw [mask, ← pinMask_clears, ← hlow]
  constructor
  · intro fixed
    exact ⟨by rw [← high_pattern, ← fixed, and_or_and_left], by rw [← low_pattern, ← fixed, and_or_and_right]⟩
  · rintro ⟨high, clear⟩
    rw [BitVec.and_or_distrib_left, high, clear, BitVec.or_zero]

/-- The header of format I: the strategy and a pin of `PIN_BITS` bits (R92, log 12). -/
theorem maskI_covers {c : Config} {o : BitVec 8} {w : Word} :
    w &&& maskI c = o ++ 0#24 ↔ ∃ strat p, pinFits c p = true ∧ w = o ++ 0#15 ++ stratBit strat ++ p := by
  rw [maskI_covers_iff, shifted_covers (by decide)]
  constructor
  · rintro ⟨⟨x, small, rfl⟩, fits⟩
    refine ⟨strategyOfBit (field (o ++ x) 8 1), _, fits, ?_⟩
    have clear : field (o ++ x) 9 15 = 0#15 :=
      BitVec.eq_of_toNat_eq (by rw [field_toNat, formS_toNat, BitVec.toNat_ofNat]; omega)
    rw [stratBit_strategyOfBit, formI_of_fields (opcode_formS o x) clear]
  · rintro ⟨strat, p, fits, rfl⟩
    refine ⟨⟨(0#15 ++ stratBit strat ++ p : BitVec 24), ?_, BitVec.eq_of_toNat_eq ?_⟩, by rwa [pin_formI]⟩
    · rw [append_toNat, append_toNat, BitVec.toNat_ofNat]
      omega
    · rw [formI_toNat, formS_toNat, append_toNat, append_toNat, BitVec.toNat_ofNat]
      omega

/-! ## Covered commands decode, and only they do -/

theorem TableRow.covers_iff_mask {row : TableRow} {w : Word} : row.covers w = true ↔ w &&& row.mask = row.pattern :=
  beq_iff_eq

/-- What `fetchCommand` cuts off is the first word, with the payload word of an INIT (R90). -/
theorem fetchCommand_some {w : Word} {ws cmd rest : List Word} (cut : fetchCommand (w :: ws) = some (cmd, rest)) :
    if opcode w = 0x10#8 then ∃ payload, cmd = [w, payload] else cmd = [w] := by
  split
  · next init =>
    cases ws with
    | nil => simp [fetchCommand_lone_init init] at cut
    | cons payload ws =>
      rw [fetchCommand_init init, Option.some.injEq, Prod.mk.injEq] at cut
      exact ⟨payload, cut.1.symm⟩
  · next other =>
    rw [fetchCommand_single other, Option.some.injEq, Prod.mk.injEq] at cut
    exact cut.1.symm

/-- The table admits a command at its row's port, and the decoder accepts it. -/
theorem decode_of_covers {c : Config} {row : TableRow} {w : Word} {ws cmd rest : List Word}
    (cut : fetchCommand (w :: ws) = some (cmd, rest)) (mem : row ∈ opcodeTable c) (covered : row.covers w = true)
    (legal : row.mnemonic = "RDREG" → legalReg (field w 0 8) = true) : ∃ i, decode c row.port cmd = .ok i := by
  have cmd_eq := fetchCommand_some cut
  have single {o : BitVec 8} (op : opcode w = o) (other : o ≠ 0x10#8) : cmd = [w] := by
    rwa [if_neg (op ▸ other)] at cmd_eq
  have accepts (i : Instr) (wf : i.wellFormed c = true) (words : cmd = encode i) :
      ∃ j, decode c (portOf i) cmd = .ok j :=
    ⟨i, words ▸ decode_encode wf⟩
  simp only [opcodeTable, List.mem_cons, List.not_mem_nil, or_false] at mem
  obtain rfl | rfl | rfl | rfl | rfl | rfl | rfl | rfl | rfl := mem <;> rw [TableRow.covers_iff_mask] at covered
  · obtain ⟨x, fits, rfl⟩ := maskS_covers (o := 0x01#8).mp covered
    exact accepts (.push x) fits (single (opcode_formS _ x) (by decide))
  · obtain rfl := allOnes_covers (o := 0x02#8).mp covered
    exact accepts .pop rfl (single (opcode_formZ _) (by decide))
  · obtain ⟨x, fits, rfl⟩ := maskS_covers (o := 0x03#8).mp covered
    exact accepts (.consume x) fits (single (opcode_formS _ x) (by decide))
  · obtain ⟨x, fits, rfl⟩ := maskS_covers (o := 0x04#8).mp covered
    exact accepts (.tick x) fits (single (opcode_formS _ x) (by decide))
  · obtain ⟨strat, p, fits, rfl⟩ := maskI_covers (o := 0x10#8).mp covered
    rw [if_pos (opcode_formI _ _ p)] at cmd_eq
    obtain ⟨payload, words⟩ := cmd_eq
    exact accepts (.init p strat payload) fits words
  · obtain rfl := allOnes_covers (o := 0x11#8).mp covered
    exact accepts .start rfl (single (opcode_formZ _) (by decide))
  · obtain rfl := allOnes_covers (o := 0x12#8).mp covered
    exact accepts .stop rfl (single (opcode_formZ _) (by decide))
  · obtain rfl := allOnes_covers (o := 0x13#8).mp covered
    exact accepts .loop rfl (single (opcode_formZ _) (by decide))
  · obtain ⟨r, rfl⟩ := maskR_covers (o := 0x20#8).mp covered
    have known := legal rfl
    rw [reg_formR] at known
    exact accepts (.rdreg r) known (single (opcode_formR _ r) (by decide))

/-- Every well-formed command has its row in the table. -/
theorem covers_encode {c : Config} {i : Instr} {w : Word} {ws : List Word} (wf : i.wellFormed c = true)
    (words : encode i = w :: ws) :
    ∃ row ∈ opcodeTable c, row.covers w = true ∧ row.port = portOf i ∧
      (row.mnemonic = "RDREG" → legalReg (field w 0 8) = true) := by
  have row (mnemonic : String) {mask pattern : Word} (mem : ⟨mnemonic, mask, pattern, portOf i⟩ ∈ opcodeTable c)
      (covered : w &&& mask = pattern) (legal : mnemonic = "RDREG" → legalReg (field w 0 8) = true) :
      ∃ row ∈ opcodeTable c, row.covers w = true ∧ row.port = portOf i ∧
        (row.mnemonic = "RDREG" → legalReg (field w 0 8) = true) :=
    ⟨_, mem, TableRow.covers_iff_mask.mpr covered, rfl, legal⟩
  cases i <;> cases words
  case push x => exact row "PUSH" (by simp [opcodeTable, portOf]) (maskS_covers.mpr ⟨x, wf, rfl⟩) (by simp)
  case pop => exact row "POP" (by simp [opcodeTable, portOf]) (allOnes_covers.mpr rfl) (by simp)
  case consume x => exact row "CONSUME" (by simp [opcodeTable, portOf]) (maskS_covers.mpr ⟨x, wf, rfl⟩) (by simp)
  case tick x => exact row "TICK" (by simp [opcodeTable, portOf]) (maskS_covers.mpr ⟨x, wf, rfl⟩) (by simp)
  case init p strat f0bits =>
    exact row "INIT" (by simp [opcodeTable, portOf]) (maskI_covers.mpr ⟨strat, p, wf, rfl⟩) (by simp)
  case start => exact row "START" (by simp [opcodeTable, portOf]) (allOnes_covers.mpr rfl) (by simp)
  case stop => exact row "STOP" (by simp [opcodeTable, portOf]) (allOnes_covers.mpr rfl) (by simp)
  case loop => exact row "LOOP" (by simp [opcodeTable, portOf]) (allOnes_covers.mpr rfl) (by simp)
  case rdreg r =>
    exact row "RDREG" (by simp [opcodeTable, portOf]) (maskR_covers.mpr ⟨r, rfl⟩) fun _ => by rwa [reg_formR]

/-- What a port cuts off begins with the first word that waits there. -/
theorem fetchCommand_head {w : Word} {ws cmd rest : List Word} (cut : fetchCommand (w :: ws) = some (cmd, rest)) :
    ∃ tail, cmd = w :: tail := by
  have cmd_eq := fetchCommand_some cut
  split at cmd_eq
  · exact cmd_eq.imp' ([·]) fun _ => id
  · exact ⟨[], cmd_eq⟩

theorem decode_error_iff {c : Config} {a : Agent} {cmd : List Word} :
    (∃ e, decode c a cmd = .error e) ↔ ¬ ∃ i, decode c a cmd = .ok i := by
  cases decode c a cmd <;> simp

/-- Settles O3: a decoded command is its own words (`encode_decodeForm`), which its row covers, and a covered command is
decoded. -/
theorem illegalExactly : Obligations.IllegalExactly := by
  intro c a w ws cmd rest _ cut
  rw [decode_error_iff, not_iff_not]
  constructor
  · rintro ⟨i, ok⟩
    obtain ⟨form, rfl⟩ := decode_ok_iff.mp ok
    obtain ⟨tail, words⟩ := fetchCommand_head cut
    exact covers_encode (decode_wellFormed ok) ((encode_decodeForm form).trans words)
  · rintro ⟨row, mem, covered, rfl, legal⟩
    exact decode_of_covers cut mem covered legal

end Sys2Proof
end

section
/-!
The bits of responses (O5), and the answer to an illegal command (O7).
-/

namespace Sys2Proof.Machine

/-! ## Responses at the ports (R95, R96) -/

/-- The first response word as a number: four fields (R95). -/
theorem Response.head_toNat (r : Response) :
    r.head.toNat = r.status.code.toNat * 2 ^ 28 + r.flag.toNat * 2 ^ 27 + (valueField r.value).toNat := by
  rw [Response.head, append_toNat, append_toNat, append_toNat, BitVec.toNat_ofNat, BitVec.toNat_ofBool]
  omega

theorem Response.head_status (r : Response) : r.head.extractLsb' 28 4 = r.status.code := by
  have flag := Bool.toNat_le r.flag
  refine BitVec.eq_of_toNat_eq ((field_toNat r.head 28 4).trans ?_)
  rw [Response.head_toNat]
  omega

theorem Response.head_flag (r : Response) : r.head.getLsbD 27 = r.flag := by
  have flag : r.head.toNat / 2 ^ 27 % 2 = r.flag.toNat := by
    have := Bool.toNat_lt r.flag
    rw [Response.head_toNat]
    omega
  rw [BitVec.getLsbD, Nat.testBit_eq_decide_div_mod_eq, flag]
  cases r.flag <;> rfl

theorem Response.head_reserved (r : Response) : r.head.extractLsb' 12 15 = 0#15 := by
  refine BitVec.eq_of_toNat_eq ((field_toNat r.head 12 15).trans ?_)
  rw [Response.head_toNat, BitVec.toNat_ofNat]
  omega

theorem Response.head_value (r : Response) : r.head.extractLsb' 0 12 = valueField r.value := by
  refine BitVec.eq_of_toNat_eq ((field_toNat r.head 0 12).trans ?_)
  rw [Response.head_toNat]
  omega

/-- `VALUE` holds a Sample of at most 12 bits (R95, R127). -/
theorem valueField_toNat {x : Sample} (small : x.toNat < 2 ^ 12) : (valueField x).toNat = x.toNat := by
  rw [valueField, if_pos small, BitVec.toNat_setWidth, Nat.mod_eq_of_lt small]

/-- The response words of an answer without payload (R102, R230). -/
theorem head_of_status (e : Status) : (Response.mk e false 0#24 []).head = e.code ++ 0#28 := by
  cases e <;> decide

/-- Settles O5: each worked command is the encoding of what it decodes to (`decode_encode`); the response layout is
`Response.head_toNat` field by field. -/
theorem workedEncodings : Obligations.WorkedEncodings := by
  have worked {i : Instr} (wf : i.wellFormed Config.reference = true) :
      decode Config.reference (portOf i) (encode i) = .ok i := decode_encode wf
  refine ⟨worked (i := .push 4095#24) rfl, worked (i := .pop) rfl, worked (i := .consume 2048#24) rfl,
    worked (i := .tick 0#24) rfl, worked (i := .init 7#8 .direct 0x40000000#32) rfl,
    decNum_normal (by decide) (by decide), worked (i := .start) rfl, worked (i := .stop) rfl, worked (i := .loop) rfl,
    worked (i := .rdreg 0#8) rfl, rfl, by decide, by decide, by decide, ?_, ?_⟩
  · intro e
    rw [head_of_status]
    cases e <;> rfl
  · intro r
    refine ⟨?_, r.head_flag, r.head_reserved, fun small => ?_, ?_⟩
    · rw [r.head_status]
      cases r.status <;> rfl
    · rw [r.head_value, valueField_toNat small]
    · refine congrArg (r.head :: ·) (List.map_congr_left fun p _ => ?_)
      cases p <;> rfl

/-! ## An illegal command (R98, R234) -/

/-- An idle agent whose next command is illegal answers it, before any micro-step (R234). -/
theorem agentStep_illegal_producer {s : State} {cmd rest : List Word} {e : DecodeError} (idle : s.pseq = .idle)
    (fetch : fetchCommand s.pIn = some (cmd, rest)) (dec : decode s.cfg .producer cmd = .error e) :
    agentStep .producer s = .next (raise .producer .illegalCommand { s with pIn := rest }) := by
  have can : enabled .producer s = true := by simp [enabled, canAccept, portIn, fetch, dec]
  simp only [agentStep, can, if_true, producerStep, idle, takeCommand, portIn, fetch, accept, setPortIn, dec]

theorem agentStep_illegal_consumer {s : State} {cmd rest : List Word} {e : DecodeError} (idle : s.cseq = .idle)
    (fetch : fetchCommand s.cIn = some (cmd, rest)) (dec : decode s.cfg .consumer cmd = .error e) :
    agentStep .consumer s = .next (raise .consumer .illegalCommand { s with cIn := rest }) := by
  have can : enabled .consumer s = true := by simp [enabled, canAccept, portIn, fetch, dec]
  simp only [agentStep, can, if_true, consumerStep, idle, takeCommand, portIn, fetch, accept, setPortIn, dec]

/-- Settles O7: raising an error at an idle agent writes its port and `draw` only. -/
theorem illegalAnswered : Obligations.IllegalAnswered := by
  refine fun s cmd rest e => ⟨fun idle fetch dec => ?_, fun idle fetch dec => ?_⟩
  · rw [agentStep_illegal_producer idle fetch dec, raise_producer, respondP, ← idle]
  · rw [agentStep_illegal_consumer idle fetch dec, raise_consumer, respondC, ← idle]

end Sys2Proof.Machine
end

section
/-!
The binary32 numbers of R97 as a grid: a finite word is a sign, a row `e` (its exponent) and `n` steps of `2^(e-149)`
from 0, and its bits below the sign are `e * 2^23 + n`. `dec_num` reads the word off this grid (O8).
-/

namespace Sys2Proof.Machine

/-- The real number `n` steps from 0 in row `e`. -/
noncomputable def gridValue (e n : Nat) : ℝ := n * 2 ^ ((e : ℤ) - 149)

/-- The row of a word: subnormals and the smallest normal numbers share row 0. -/
def gridRow (b : Word) : Nat := (b.extractLsb' 23 8).toNat - 1

/-- The place of a word in its row: the fraction, with the hidden bit of a normal number. -/
def gridStep (b : Word) : Nat :=
  (if (b.extractLsb' 23 8).toNat = 0 then 0 else 2 ^ 23) + (b.extractLsb' 0 23).toNat

/-- The sign of a word as a factor. -/
noncomputable def signOf (b : Word) : ℝ := if b.msb then -1 else 1

/-! ## The place of a word -/

theorem exponent_toNat (b : Word) : (b.extractLsb' 23 8).toNat = b.toNat / 2 ^ 23 % 2 ^ 8 := field_toNat b 23 8

theorem fraction_toNat (b : Word) : (b.extractLsb' 0 23).toNat = b.toNat % 2 ^ 23 := by
  rw [← Nat.div_one b.toNat]
  exact field_toNat b 0 23

theorem gridStep_lt (b : Word) : gridStep b < 2 ^ 24 := by
  rw [gridStep]
  split <;> omega

/-- Below a row other than 0 lie the rows before it. -/
theorem gridRow_eq_zero_or (b : Word) : gridRow b = 0 ∨ 2 ^ 23 ≤ gridStep b := by
  rw [gridRow, gridStep]
  split <;> omega

theorem gridRow_gridStep (b : Word) : gridRow b * 2 ^ 23 + gridStep b = b.toNat % 2 ^ 31 := by
  rw [gridRow, gridStep, exponent_toNat, fraction_toNat]
  split <;> omega

theorem gridValue_pos {n : Nat} (e : Nat) (pos : 0 < n) : 0 < gridValue e n := by
  have : 0 < (n : ℝ) := Nat.cast_pos.mpr pos
  rw [gridValue]
  positivity

@[simp] theorem gridValue_zero (e : Nat) : gridValue e 0 = 0 := by simp [gridValue]

/-- A power of two many steps make a power of two. -/
theorem gridValue_two_pow (e k : Nat) : gridValue e (2 ^ k) = 2 ^ ((e : ℤ) + k - 149) := by
  rw [gridValue, Nat.cast_pow, Nat.cast_ofNat, ← zpow_natCast, ← zpow_add₀ two_ne_zero]
  congr 1
  ring

/-- The end of a row is in the next one (R97: the order of the bits is the order of the numbers). -/
theorem gridValue_carry (e : Nat) : gridValue e (2 ^ 24) = gridValue (e + 1) (2 ^ 23) := by
  rw [gridValue_two_pow, gridValue_two_pow]
  exact congrArg ((2 : ℝ) ^ ·) (by omega)

/-! ## `dec_num` -/

theorem two_pow_sub_div (a b : Nat) : (2 : ℝ) ^ (a - b) / 2 ^ (b - a) = 2 ^ ((a : ℤ) - b) := by
  rcases le_total a b with le | le
  · rw [Nat.sub_eq_zero_of_le le, pow_zero, one_div, ← neg_sub, zpow_neg, ← Nat.cast_sub le, zpow_natCast]
  · rw [Nat.sub_eq_zero_of_le le, pow_zero, div_one, ← Nat.cast_sub le, zpow_natCast]

theorem decNum_eq_none_iff (b : Word) : decNum b = none ↔ (b.extractLsb' 23 8).toNat = 255 := by
  refine ⟨fun invalid => ?_, decNum_invalid⟩
  by_contra finite
  by_cases sub : (b.extractLsb' 23 8).toNat = 0
  · simp [decNum_subnormal sub] at invalid
  · simp [decNum_normal finite sub] at invalid

/-- A word that decodes to a number is finite (R97). -/
theorem exponent_of_decNum {b : Word} {q : Ratio} (h : decNum b = some q) : (b.extractLsb' 23 8).toNat ≠ 255 :=
  fun infinite => Option.some_ne_none q (h.symm.trans (decNum_invalid infinite))

/-- The number of a finite word is its place on the grid, with its sign. -/
theorem decNum_toReal {b : Word} {q : Ratio} (h : decNum b = some q) :
    q.toReal = signOf b * gridValue (gridRow b) (gridStep b) := by
  have value {steps E : Nat} (step : gridStep b = steps) (row : ((gridRow b : Nat) : ℤ) - 149 = (E : ℤ) - (150 : Nat)) :
      Ratio.toReal ⟨b.msb, steps * 2 ^ (E - 150), 2 ^ (150 - E)⟩ = signOf b * gridValue (gridRow b) (gridStep b) := by
    rw [Ratio.toReal, signOf, gridValue, step, row, ← two_pow_sub_div]
    push_cast
    ring
  have finite := exponent_of_decNum h
  by_cases sub : (b.extractLsb' 23 8).toNat = 0
  · obtain rfl := Option.some.inj ((decNum_subnormal sub).symm.trans h)
    have step : gridStep b = (b.extractLsb' 0 23).toNat := by rw [gridStep, if_pos sub, zero_add]
    have row : ((gridRow b : Nat) : ℤ) - 149 = ((1 : Nat) : ℤ) - (150 : Nat) := by rw [gridRow, sub]; norm_num
    simpa using value step row
  · obtain rfl := Option.some.inj ((decNum_normal finite sub).symm.trans h)
    exact value (by rw [gridStep, if_neg sub]) (by rw [gridRow]; omega)

/-- Settles O8: the grid of `decNum_toReal`, a normal number's row counted from its hidden bit. -/
theorem decNumValue : Obligations.DecNumValue := by
  refine fun b => ⟨decNum_eq_none_iff b, fun q h => ?_⟩
  rw [decNum_toReal h, signOf, gridValue, gridRow, gridStep]
  by_cases sub : (b.extractLsb' 23 8).toNat = 0
  · simp [sub]
  · have row : (((b.extractLsb' 23 8).toNat - 1 : Nat) : ℤ) - 149 = ((b.extractLsb' 23 8).toNat : ℤ) - 127 - 23 := by
      omega
    rw [if_neg sub, if_neg sub, row, zpow_sub₀ two_ne_zero]
    push_cast
    ring

end Sys2Proof.Machine
end

section
/-!
`enc_num` of R97 on the grid of `dec_num`: the row of a number, rounding in the row, and how the encoding is read back
(O9, O10).
-/

namespace Sys2Proof.Machine

/-! ## Rounding to an integer -/

/-- Halves round to the even integer, everything else to an integer less than a half away (R97). -/
theorem roundHalfEven_spec (y : ℝ) :
    |(roundHalfEven y : ℝ) - y| < 1 / 2 ∨ |(roundHalfEven y : ℝ) - y| = 1 / 2 ∧ roundHalfEven y % 2 = 0 := by
  have low := Int.floor_le y
  have high := Int.lt_floor_add_one y
  unfold roundHalfEven
  dsimp only
  split_ifs with below above even
  · left; rw [abs_lt]; constructor <;> linarith
  · left; push_cast; rw [abs_lt]; constructor <;> linarith
  · right; refine ⟨?_, even⟩; rw [abs_of_nonpos] <;> linarith
  · right; refine ⟨?_, by omega⟩; push_cast; rw [abs_of_nonneg] <;> linarith

theorem abs_roundHalfEven_sub_le (y : ℝ) : |(roundHalfEven y : ℝ) - y| ≤ 1 / 2 :=
  (roundHalfEven_spec y).elim le_of_lt fun half => half.1.le

/-- Another integer is a whole step away, so no nearer, and as near only at a half. -/
theorem roundHalfEven_nearest (y : ℝ) (k : ℤ) :
    |(roundHalfEven y : ℝ) - y| ≤ |(k : ℝ) - y| ∧
      (k ≠ roundHalfEven y → |(roundHalfEven y : ℝ) - y| = |(k : ℝ) - y| → roundHalfEven y % 2 = 0) := by
  by_cases same : k = roundHalfEven y
  · exact ⟨by rw [same], fun other => absurd same other⟩
  · have apart : (1 : ℝ) ≤ |(k : ℝ) - roundHalfEven y| := by
      exact_mod_cast Int.one_le_abs (sub_ne_zero.mpr same)
    have triangle : |(k : ℝ) - roundHalfEven y| ≤ |(k : ℝ) - y| + |(roundHalfEven y : ℝ) - y| := by
      rw [abs_sub_comm (roundHalfEven y : ℝ)]
      exact abs_sub_le _ _ _
    rcases roundHalfEven_spec y with less | ⟨half, even⟩
    · exact ⟨by linarith, fun _ tie => by linarith⟩
    · exact ⟨by linarith, fun _ _ => even⟩

theorem roundHalfEven_intCast (k : ℤ) : roundHalfEven (k : ℝ) = k := by
  simp [roundHalfEven]

theorem roundHalfEven_le {y : ℝ} {k : ℤ} (le : y ≤ k) : roundHalfEven y ≤ k := by
  have : (roundHalfEven y : ℝ) < (k + 1 : ℤ) := by
    push_cast
    linarith [(abs_le.mp (abs_roundHalfEven_sub_le y)).2]
  exact Int.lt_add_one_iff.mp (Int.cast_lt.mp this)

theorem le_roundHalfEven {y : ℝ} {k : ℤ} (le : (k : ℝ) ≤ y) : k ≤ roundHalfEven y := by
  have : (k : ℝ) < (roundHalfEven y + 1 : ℤ) := by
    push_cast
    linarith [(abs_le.mp (abs_roundHalfEven_sub_le y)).1]
  exact Int.lt_add_one_iff.mp (Int.cast_lt.mp this)

/-! ## The row of a positive number -/

/-- The row a positive number is rounded in. -/
noncomputable def rowOf (x : ℝ) : Nat := (gridExponent x + 126).toNat

/-- The number in steps of its row. -/
noncomputable def stepsOf (x : ℝ) : ℝ := x / 2 ^ ((rowOf x : ℤ) - 149)

theorem gridExponent_eq (x : ℝ) : gridExponent x = (rowOf x : ℤ) - 126 := by
  have : -126 ≤ gridExponent x := le_max_right _ _
  rw [rowOf]
  omega

theorem twoPow_eq (e : ℤ) : (twoPow e : ℝ) = 2 ^ e := by
  unfold twoPow
  split
  · next nonneg => rw [← zpow_natCast, Int.toNat_of_nonneg nonneg]
  · next neg => rw [one_div, ← zpow_natCast, ← zpow_neg, Int.toNat_of_nonneg (by omega), neg_neg]

/-- A row ends at its step `2^24`, and every row but 0 begins at its step `2^23`. -/
theorem rowOf_eq_iff {x : ℝ} (pos : 0 < x) (e : Nat) :
    rowOf x = e ↔ x < gridValue e (2 ^ 24) ∧ (e = 0 ∨ gridValue e (2 ^ 23) ≤ x) := by
  have upper := Int.lt_zpow_iff_log_lt (b := 2) (x := (e : ℤ) + 24 - 149) (by decide) pos
  have lower := Int.zpow_le_iff_le_log (b := 2) (x := (e : ℤ) + 23 - 149) (by decide) pos
  rw [Nat.cast_ofNat] at upper lower
  rw [gridValue_two_pow, gridValue_two_pow]
  push_cast
  rw [upper, lower, rowOf, gridExponent]
  omega

theorem roundHalfEven_stepsOf_nonneg {x : ℝ} (pos : 0 < x) : 0 ≤ roundHalfEven (stepsOf x) := by
  refine le_roundHalfEven ?_
  rw [stepsOf, Int.cast_zero]
  positivity

/-- The bits below the sign are the place on the grid. -/
theorem magnitudeBits_eq {x : ℝ} (pos : 0 < x) :
    magnitudeBits x = rowOf x * 2 ^ 23 + (roundHalfEven (stepsOf x)).toNat := by
  have steps : x / twoPow (gridExponent x - 23) = stepsOf x := by
    rw [twoPow_eq, stepsOf, gridExponent_eq]
    exact congrArg (x / 2 ^ ·) (by ring)
  have nonneg := roundHalfEven_stepsOf_nonneg pos
  rw [magnitudeBits, steps, gridExponent_eq]
  omega

/-! ## `enc_num` -/

theorem encNum_zero : encNum 0 = 0#32 := if_pos rfl

/-- A finite encoding is the magnitude bits and the sign, but 0 has no sign (R97, log 16). -/
theorem encNum_toNat {x : ℝ} (nonzero : x ≠ 0) (finite : magnitudeBits |x| < 0x7F800000) :
    (encNum x).toNat = magnitudeBits |x| + if x < 0 ∧ magnitudeBits |x| ≠ 0 then 2 ^ 31 else 0 := by
  unfold encNum encodeNum
  rw [if_neg nonzero]
  dsimp only
  by_cases zero : magnitudeBits |x| = 0
  · simp [zero]
  · by_cases neg : x < 0
    · rw [if_neg zero, if_pos finite, if_pos neg, if_pos ⟨neg, zero⟩, BitVec.toNat_ofNat]
      omega
    · rw [if_neg zero, if_pos finite, if_neg neg, if_neg (neg ·.1), BitVec.toNat_ofNat]
      omega

theorem toNat_eq_magnitude_add_sign (b : Word) : b.toNat = b.toNat % 2 ^ 31 + if b.msb then 2 ^ 31 else 0 := by
  rw [BitVec.msb_eq_decide]
  simp only [decide_eq_true_eq]
  split <;> omega

/-! ## Encoding a decoded number -/

theorem gridValue_le_gridValue {e n m : Nat} (le : n ≤ m) : gridValue e n ≤ gridValue e m :=
  mul_le_mul_of_nonneg_right (Nat.cast_le.mpr le) (by positivity)

theorem gridValue_lt_gridValue {e n m : Nat} (lt : n < m) : gridValue e n < gridValue e m :=
  mul_lt_mul_of_pos_right (Nat.cast_lt.mpr lt) (by positivity)

/-- A place of the grid is its own nearest one. -/
theorem magnitudeBits_gridValue {e n : Nat} (pos : 0 < n) (lt : n < 2 ^ 24) (low : e = 0 ∨ 2 ^ 23 ≤ n) :
    magnitudeBits (gridValue e n) = e * 2 ^ 23 + n := by
  have row : rowOf (gridValue e n) = e :=
    (rowOf_eq_iff (gridValue_pos e pos) e).mpr ⟨gridValue_lt_gridValue lt, low.imp_right gridValue_le_gridValue⟩
  have steps : stepsOf (gridValue e n) = ((n : ℤ) : ℝ) := by
    rw [stepsOf, row, gridValue, mul_div_cancel_right₀ _ (by positivity), Int.cast_natCast]
  rw [magnitudeBits_eq (gridValue_pos e pos), row, steps, roundHalfEven_intCast, Int.toNat_natCast]

/-- The bits below the sign of a finite word (R97). -/
theorem magnitude_lt {b : Word} {q : Ratio} (h : decNum b = some q) : b.toNat % 2 ^ 31 < 0x7F800000 := by
  have finite := exponent_of_decNum h
  rw [exponent_toNat] at finite
  omega

theorem Ratio.toReal_eq_zero_iff {q : Ratio} (den : 0 < q.den) : q.toReal = 0 ↔ q.num = 0 := by
  rw [Ratio.toReal, div_eq_zero_iff]
  split <;> simp [den.ne']

/-- Settles O9: the place of a word is its own nearest place (`magnitudeBits_gridValue`), and its sign is kept unless it
is a zero. -/
theorem encodeDecoded : Obligations.EncodeDecoded := by
  intro b q h
  have value := decNum_toReal h
  have zero_iff := Ratio.toReal_eq_zero_iff (decNum_den h)
  split
  · next zero => rw [zero_iff.mpr zero, encNum_zero]
  · next nonzero =>
    have step : 0 < gridStep b := by
      refine Nat.pos_of_ne_zero fun zero => nonzero (zero_iff.mp ?_)
      rw [value, zero, gridValue_zero, mul_zero]
    have pos := gridValue_pos (gridRow b) step
    have bits := magnitudeBits_gridValue step (gridStep_lt b) (gridRow_eq_zero_or b)
    have place := gridRow_gridStep b
    have abs_value : |q.toReal| = gridValue (gridRow b) (gridStep b) := by
      rw [value, signOf]
      split <;> simp [abs_of_pos pos]
    have sign : q.toReal < 0 ↔ b.msb = true := by
      rw [value, signOf]
      split <;> simp [*, pos.le]
    rw [← abs_value, place] at bits
    have signed : (q.toReal < 0 ∧ b.toNat % 2 ^ 31 ≠ 0) ↔ b.msb = true := by
      rw [sign, and_iff_left (by omega)]
    refine BitVec.eq_of_toNat_eq ?_
    rw [encNum_toNat (mt zero_iff.mp nonzero) (bits ▸ magnitude_lt h), bits]
    simp only [signed]
    exact (toNat_eq_magnitude_add_sign b).symm

end Sys2Proof.Machine
end

section
/-!
`enc_num` is the nearest binary32 number, ties to even (O10): in the row of the number the steps are the integers, and a
number of an earlier row lies below the row's first step.
-/

namespace Sys2Proof.Machine

/-! ## The step a positive number is rounded to -/

/-- The step of its row that a positive number is rounded to. -/
noncomputable def nearestStep (x : ℝ) : Nat := (roundHalfEven (stepsOf x)).toNat

/-- The number that a positive number is rounded to. -/
noncomputable def nearestValue (x : ℝ) : ℝ := gridValue (rowOf x) (nearestStep x)

theorem stepsOf_mul_unit (x : ℝ) : stepsOf x * 2 ^ ((rowOf x : ℤ) - 149) = x := div_mul_cancel₀ x (by positivity)

/-- `k` steps of the row of `x` reach beyond `x` if `x` is at most `k` steps from 0. -/
theorem stepsOf_le_iff (x : ℝ) (k : Nat) : stepsOf x ≤ k ↔ x ≤ gridValue (rowOf x) k := by
  rw [stepsOf, div_le_iff₀ (by positivity), gridValue]

theorem le_stepsOf_iff (x : ℝ) (k : Nat) : k ≤ stepsOf x ↔ gridValue (rowOf x) k ≤ x := by
  rw [stepsOf, le_div_iff₀ (by positivity), gridValue]

section
variable {x : ℝ} (pos : 0 < x)
include pos

theorem roundHalfEven_stepsOf : roundHalfEven (stepsOf x) = nearestStep x := by
  rw [nearestStep, Int.toNat_of_nonneg (roundHalfEven_stepsOf_nonneg pos)]

theorem nearestStep_le {k : Nat} (le : x ≤ gridValue (rowOf x) k) : nearestStep x ≤ k := by
  have := roundHalfEven_le (k := k) (by exact_mod_cast (stepsOf_le_iff x k).mpr le)
  rw [roundHalfEven_stepsOf pos] at this
  exact_mod_cast this

theorem le_nearestStep {k : Nat} (le : gridValue (rowOf x) k ≤ x) : k ≤ nearestStep x := by
  have := le_roundHalfEven (k := k) (by exact_mod_cast (le_stepsOf_iff x k).mpr le)
  rw [roundHalfEven_stepsOf pos] at this
  exact_mod_cast this

/-- Rounding stays in the row or goes to the first step of the next one. -/
theorem nearestStep_row : nearestStep x ≤ 2 ^ 24 ∧ (rowOf x = 0 ∨ 2 ^ 23 ≤ nearestStep x) := by
  obtain ⟨upper, lower⟩ := (rowOf_eq_iff pos _).mp rfl
  exact ⟨nearestStep_le pos upper.le, lower.imp_right (le_nearestStep pos)⟩

/-- A number no larger than the largest finite one is rounded to a finite one (R97). -/
theorem magnitude_finite (range : x ≤ (2 ^ 24 - 1) * 2 ^ 104) : rowOf x * 2 ^ 23 + nearestStep x < 0x7F800000 := by
  obtain ⟨top, -⟩ := nearestStep_row pos
  obtain ⟨-, lower⟩ := (rowOf_eq_iff pos _).mp rfl
  have row : rowOf x ≤ 253 := by
    rcases lower with zero | lower
    · omega
    · have : (2 : ℝ) ^ ((rowOf x : ℤ) + 23 - 149) < 2 ^ (128 : ℤ) := by
        rw [gridValue_two_pow] at lower
        refine (lower.trans range).trans_lt ?_
        norm_num
      have := (zpow_lt_zpow_iff_right₀ one_lt_two).mp this
      omega
  rcases Nat.lt_or_eq_of_le row with below | last
  · omega
  · have : nearestStep x ≤ 2 ^ 24 - 1 := by
      refine nearestStep_le pos (range.trans_eq ?_)
      rw [last, gridValue]
      norm_num
    omega

/-! ## Nearest -/

/-- Among whole steps of the row the rounded one is nearest, and at a tie its step is even. -/
theorem nearestValue_row (k : ℤ) :
    let v := (k : ℝ) * 2 ^ ((rowOf x : ℤ) - 149)
    |nearestValue x - x| ≤ |v - x| ∧ (v ≠ nearestValue x → |nearestValue x - x| = |v - x| → nearestStep x % 2 = 0) := by
  have unit : (0 : ℝ) < 2 ^ ((rowOf x : ℤ) - 149) := by positivity
  have distance (j : ℤ) : |j * 2 ^ ((rowOf x : ℤ) - 149) - x| = |j - stepsOf x| * 2 ^ ((rowOf x : ℤ) - 149) := by
    rw [← abs_of_pos unit, ← abs_mul, abs_of_pos unit, sub_mul, stepsOf_mul_unit]
  have value : nearestValue x = (nearestStep x : ℤ) * 2 ^ ((rowOf x : ℤ) - 149) := by
    rw [nearestValue, gridValue, Int.cast_natCast]
  obtain ⟨nearest, tie_even⟩ := roundHalfEven_nearest (stepsOf x) k
  rw [roundHalfEven_stepsOf pos] at nearest tie_even
  dsimp only
  rw [value, distance, distance]
  refine ⟨mul_le_mul_of_nonneg_right nearest unit.le, fun other tie => ?_⟩
  have even := tie_even (fun same => other (by rw [same])) (mul_right_cancel₀ unit.ne' tie)
  omega

end

/-- A place of the binary32 grid, of either sign and in any row. -/
def OnGrid (v : ℝ) : Prop := ∃ (k : ℤ) (e : Nat), |k| < 2 ^ 24 ∧ v = k * 2 ^ ((e : ℤ) - 149)

theorem OnGrid.neg {v : ℝ} (h : OnGrid v) : OnGrid (-v) := by
  obtain ⟨k, e, bound, rfl⟩ := h
  exact ⟨-k, e, by rwa [abs_neg], by push_cast; ring⟩

/-- Every finite word is a place of the grid (R97). -/
theorem onGrid_of_decNum {b : Word} {q : Ratio} (h : decNum b = some q) : OnGrid q.toReal := by
  have place : OnGrid (gridValue (gridRow b) (gridStep b)) :=
    ⟨gridStep b, gridRow b, by have := gridStep_lt b; rw [abs_of_nonneg] <;> omega, by rw [gridValue, Int.cast_natCast]⟩
  rw [decNum_toReal h, signOf]
  split
  · rw [neg_one_mul]; exact place.neg
  · rwa [one_mul]

/-- A place of an earlier row lies below the first step of a row. -/
theorem earlier_row_lt {k : ℤ} {e r : Nat} (bound : |k| < 2 ^ 24) (lt : e < r) :
    (k : ℝ) * 2 ^ ((e : ℤ) - 149) < gridValue r (2 ^ 23) := by
  have k_lt : (k : ℝ) < (2 ^ 24 : Nat) := by
    have := (abs_lt.mp bound).2
    exact_mod_cast this
  calc (k : ℝ) * 2 ^ ((e : ℤ) - 149) < gridValue e (2 ^ 24) := mul_lt_mul_of_pos_right k_lt (by positivity)
    _ = gridValue (e + 1) (2 ^ 23) := gridValue_carry e
    _ ≤ gridValue r (2 ^ 23) := by
      rw [gridValue_two_pow, gridValue_two_pow]
      exact zpow_le_zpow_right₀ one_le_two (by omega)

/-- No place of the grid is nearer to a positive number than the one it is rounded to, and at a tie that one is even. -/
theorem nearestValue_nearest {x v : ℝ} (pos : 0 < x) (h : OnGrid v) :
    |nearestValue x - x| ≤ |v - x| ∧ (v ≠ nearestValue x → |nearestValue x - x| = |v - x| → nearestStep x % 2 = 0) := by
  obtain ⟨k, e, bound, rfl⟩ := h
  rcases Nat.lt_or_ge e (rowOf x) with earlier | later
  · obtain ⟨-, zero | first⟩ := (rowOf_eq_iff pos _).mp rfl
    · omega
    · have below := earlier_row_lt bound earlier
      have nearest := (nearestValue_row pos (2 ^ 23)).1
      have farther : |nearestValue x - x| < |k * 2 ^ ((e : ℤ) - 149) - x| := by
        calc |nearestValue x - x| ≤ |gridValue (rowOf x) (2 ^ 23) - x| := by simpa [gridValue] using nearest
          _ = x - gridValue (rowOf x) (2 ^ 23) := by rw [abs_sub_comm, abs_of_nonneg (sub_nonneg.mpr first)]
          _ < x - k * 2 ^ ((e : ℤ) - 149) := by linarith
          _ ≤ |k * 2 ^ ((e : ℤ) - 149) - x| := by rw [abs_sub_comm]; exact le_abs_self _
      exact ⟨farther.le, fun _ tie => absurd tie farther.ne⟩
  · obtain ⟨d, rfl⟩ := Nat.exists_eq_add_of_le later
    have whole : (k : ℝ) * 2 ^ (((rowOf x + d : Nat) : ℤ) - 149) = (k * 2 ^ d : ℤ) * 2 ^ ((rowOf x : ℤ) - 149) := by
      have split : ((rowOf x + d : Nat) : ℤ) - 149 = d + ((rowOf x : ℤ) - 149) := by push_cast; ring
      rw [split, zpow_add₀ two_ne_zero, zpow_natCast]
      push_cast
      ring
    rw [whole]
    exact nearestValue_row pos _

/-! ## Reading an encoding back -/

/-- A finite word at a place of the grid decodes to it, also where the place is the end of a row. -/
theorem decNum_of_place {b : Word} {e n : Nat} (place : b.toNat % 2 ^ 31 = e * 2 ^ 23 + n) (top : n ≤ 2 ^ 24)
    (low : e = 0 ∨ 2 ^ 23 ≤ n) (finite : e * 2 ^ 23 + n < 0x7F800000) :
    ∃ q, decNum b = some q ∧ q.toReal = signOf b * gridValue e n := by
  have valid : decNum b ≠ none := by
    rw [ne_eq, decNum_eq_none_iff, exponent_toNat]
    omega
  obtain ⟨q, h⟩ := Option.ne_none_iff_exists'.mp valid
  refine ⟨q, h, ?_⟩
  have word := gridRow_gridStep b
  have step := gridStep_lt b
  have row := gridRow_eq_zero_or b
  rw [decNum_toReal h]
  rcases Nat.lt_or_eq_of_le top with inside | rfl
  · have same : gridRow b = e ∧ gridStep b = n := by omega
    rw [same.1, same.2]
  · have next : gridRow b = e + 1 ∧ gridStep b = 2 ^ 23 := by omega
    rw [next.1, next.2, gridValue_carry]

/-- What a number in the finite range is encoded as: the rounded one with the number's sign. -/
theorem decNum_encNum {x : ℝ} (nonzero : x ≠ 0) (range : |x| ≤ (2 ^ 24 - 1) * 2 ^ 104) :
    (∃ q, decNum (encNum x) = some q ∧ q.toReal = (if x < 0 then -1 else 1) * nearestValue |x|) ∧
      (encNum x).toNat % 2 = nearestStep |x| % 2 := by
  have pos := abs_pos.mpr nonzero
  have finite := magnitude_finite pos range
  have bits : magnitudeBits |x| = rowOf |x| * 2 ^ 23 + nearestStep |x| := magnitudeBits_eq pos
  have word := encNum_toNat nonzero (bits ▸ finite)
  rw [bits] at word
  have place : (encNum x).toNat % 2 ^ 31 = rowOf |x| * 2 ^ 23 + nearestStep |x| := by
    rw [word]
    split <;> omega
  obtain ⟨top, low⟩ := nearestStep_row pos
  obtain ⟨q, h, value⟩ := decNum_of_place place top low finite
  refine ⟨⟨q, h, value.trans ?_⟩, by rw [word]; split <;> omega⟩
  by_cases zero : nearestStep |x| = 0
  · simp [nearestValue, zero]
  · have sign : (encNum x).msb = true ↔ x < 0 := by
      rw [BitVec.msb_eq_decide, decide_eq_true_iff, word]
      by_cases neg : x < 0
      · simp only [neg, true_and, iff_true]
        split <;> omega
      · simp only [neg, false_and, if_false, iff_false]
        omega
    simp only [signOf, sign, nearestValue]

/-- Settles O10: for `x ≠ 0` the sign is taken off, which keeps every distance; the rest is
`nearestValue_nearest`. -/
theorem encodeNearest : Obligations.EncodeNearest := by
  intro x range
  by_cases zero : x = 0
  · subst zero
    obtain ⟨q, h, value⟩ := decNum_of_place (b := 0#32) (e := 0) (n := 0) rfl (by decide) (.inl rfl) (by decide)
    rw [gridValue_zero, mul_zero] at value
    rw [encNum_zero]
    exact ⟨q, h, fun b' q' _ => ⟨by simp [value], fun _ _ => rfl⟩⟩
  · obtain ⟨⟨q, h, value⟩, parity⟩ := decNum_encNum zero range
    refine ⟨q, h, fun b' q' h' => ?_⟩
    rw [value, parity]
    have nearest {v : ℝ} := nearestValue_nearest (v := v) (abs_pos.mpr zero)
    by_cases neg : x < 0
    · have mirror (v : ℝ) : |v - x| = |(-v) - (|x|)| := by
        rw [abs_of_neg neg, ← abs_neg]
        congr 1
        ring
      rw [if_pos neg, mirror, mirror, neg_one_mul, neg_neg]
      obtain ⟨le, tie_even⟩ := nearest (onGrid_of_decNum h').neg
      exact ⟨le, fun other => tie_even (mt neg_eq_iff_eq_neg.mp other)⟩
    · rw [if_neg neg, one_mul, abs_of_nonneg (not_lt.mp neg)] at *
      exact nearest (onGrid_of_decNum h')

end Sys2Proof.Machine
end

section
/-!
PUSH and TICK, undisturbed: the micro-steps (O12), the whole command (O13), and how many PUSHes a ring accepts (O18).
-/

namespace Sys2Proof.Machine

/-- Settles O12: the equations of `execPush`, `execTick`, `pWrite` and `pPublish`, each micro-step's state written out. -/
theorem pushMicroSteps : Obligations.PushMicroSteps := by
  refine fun s x => ⟨rfl, rfl, rfl, rfl, fun idle => ⟨?accept, fun phase => ?tick, fun phase => ?ignore⟩,
    fun seq full => ?drop, fun seq room => ?write, fun seq => ?publish⟩
  case accept => exact ⟨_, execPush_ready x idle⟩
  case tick => exact ⟨_, execTick_running x idle phase⟩
  case ignore =>
    have answers : exec (.tick x) s = .next (respondP (okFlag false) s) := execTick_stopped x idle phase
    rw [answers, respondP, ← idle]
    exact ⟨_, rfl⟩
  case drop =>
    rw [agentStep_write seq, pWrite_of_full full]
    exact ⟨_, rfl⟩
  case write =>
    rw [agentStep_write seq, pWrite_of_room room]
    exact ⟨_, rfl, rfl, Memory.read_write_same _ _ _, fun i other => Memory.read_write_other _ _ other⟩
  case publish => exact ⟨_, agentStep_publish seq⟩

/-- `s` after a PUSH of `x` that finds room and is not disturbed (R120). -/
def afterPush (x : Sample) (s : State) : State :=
  { s with
    buf := s.buf.write s.wr x, wr := nextIndex s.cfg s.wr, pS := x, pR := s.rd, pW := s.wr
    pOut := s.pOut ++ [okFlag true], draw := s.draw + 3 }

/-- `s` after a PUSH of `x` that finds the ring full and is not disturbed (R120, R123). -/
def afterDrop (x : Sample) (s : State) : State :=
  { s with
    dropcnt := (s.dropcnt + 1) % 2 ^ s.cfg.dropBits, pS := x, pR := s.rd, pW := s.wr
    pOut := s.pOut ++ [okFlag false], draw := s.draw + 2 }

variable {s : State}

/-- `P_WRITE` and `P_PUBLISH` after a `P_LOAD` that saw room. -/
theorem agentRun_afterPush (x : Sample) (idle : s.pseq = .idle) (room : nextIndex s.cfg s.wr ≠ s.rd) :
    agentRun .producer 2 (pLoad x s) = .next (afterPush x s) := by
  rw [agentRun_next (agentStep_write rfl), pWrite_of_room (s := pLoad x s) room, agentRun_next (agentStep_publish rfl),
    agentRun_zero, afterPush, idle]
  rfl

/-- `P_WRITE` after a `P_LOAD` that saw the ring full. -/
theorem agentRun_afterDrop (x : Sample) (idle : s.pseq = .idle) (full : nextIndex s.cfg s.wr = s.rd) :
    agentRun .producer 1 (pLoad x s) = .next (afterDrop x s) := by
  rw [agentRun_next (agentStep_write rfl), pWrite_of_full (s := pLoad x s) full, agentRun_zero, afterDrop, idle]
  rfl

/-- Settles O13: PUSH, and TICK while Running, begin with the same `P_LOAD`, and the rest is `agentRun_afterPush` or
`agentRun_afterDrop`. -/
theorem pushUndisturbed : Obligations.PushUndisturbed := by
  intro s x i pushes idle
  have load : exec i s = .next (pLoad x s) := by
    rcases pushes with rfl | ⟨rfl, phase⟩
    · exact execPush_ready x idle
    · exact execTick_running x idle phase
  exact ⟨fun room => ⟨_, _, load, agentRun_afterPush x idle room, rfl, Memory.read_write_same _ _ _,
      fun j other => Memory.read_write_other _ _ other⟩,
    fun full => ⟨_, load, agentRun_afterDrop x idle full⟩⟩

/-! ## Several PUSHes -/

/-- An accepted PUSH makes its sample the youngest live one (R77 (a)). -/
theorem live_afterPush (h : CountersOk s) (x : Sample) (room : liveCount s + 1 < s.cfg.cap) :
    live (afterPush x s) = live s ++ [some x] :=
  calc live (afterPush x s)
      = live { s with buf := s.buf.write s.wr x, wr := nextIndex s.cfg s.wr } := live_congr rfl rfl rfl rfl
    _ = live { s with buf := s.buf.write s.wr x } ++ [(s.buf.write s.wr x).read s.wr] :=
        live_publish (s := { s with buf := s.buf.write s.wr x }) h.wr h.rd room
    _ = live s ++ [some x] := by rw [live_write h.wr h.rd, Memory.read_write_same]

theorem CountersOk.afterPush (h : CountersOk s) (x : Sample) : CountersOk (afterPush x s) :=
  { h with wr := nextIndex_lt h.cfg _ }

theorem CountersOk.afterDrop (h : CountersOk s) (x : Sample) : CountersOk (afterDrop x s) :=
  { h with dropcnt := Nat.mod_lt _ (Nat.two_pow_pos _) }

theorem commandRun_push_room (x : Sample) (is : List Instr) (idle : s.pseq = .idle)
    (room : nextIndex s.cfg s.wr ≠ s.rd) :
    commandRun .producer 2 (.push x :: is) s = commandRun .producer 2 is (afterPush x s) :=
  commandRun_cons (execPush_ready x idle) (agentRun_afterPush x idle room)

/-- A dropped PUSH takes one further micro-step; the second turn passes, as no command waits (R244). -/
theorem commandRun_push_full (x : Sample) (is : List Instr) (idle : s.pseq = .idle) (noWords : s.pIn = [])
    (full : nextIndex s.cfg s.wr = s.rd) :
    commandRun .producer 2 (.push x :: is) s = commandRun .producer 2 is (afterDrop x s) := by
  have pass : agentStep .producer (afterDrop x s) = .next (afterDrop x s) :=
    agentStep_nothing idle (congrArg fetchCommand noWords)
  have run : agentRun .producer (1 + 1) (pLoad x s) = .next (afterDrop x s) := by
    rw [agentRun_add (agentRun_afterDrop x idle full), agentRun_next pass, agentRun_zero]
  exact commandRun_cons (execPush_ready x idle) run

/-- R125 for a ring with `room` free places: so many PUSHes are accepted, in order, and the others dropped. -/
theorem commandRun_pushes (xs : List Sample) {room : Nat} (h : CountersOk s) (idle : s.pseq = .idle)
    (noWords : s.pIn = []) (places : liveCount s + room + 1 = s.cfg.cap) :
    ∃ t, commandRun .producer 2 (xs.map Instr.push) s = .next t ∧
      live t = live s ++ (xs.take room).map some ∧
      t.pOut = s.pOut ++ List.replicate (min xs.length room) (okFlag true)
        ++ List.replicate (xs.length - room) (okFlag false) ∧
      t.dropcnt = (s.dropcnt + (xs.length - room)) % 2 ^ s.cfg.dropBits := by
  induction xs generalizing s room with
  | nil => exact ⟨s, rfl, by simp, by simp, by simp [Nat.mod_eq_of_lt h.dropcnt]⟩
  | cons x xs ih =>
    have full_iff : nextIndex s.cfg s.wr = s.rd ↔ liveCount s + 1 = s.cfg.cap := nextIndex_eq_iff_full h.wr h.rd
    cases room with
    | zero =>
      have full : nextIndex s.cfg s.wr = s.rd := full_iff.mpr places
      obtain ⟨t, run, live_t, pOut, dropcnt⟩ := ih (room := 0) (h.afterDrop x) idle noWords places
      refine ⟨t, (commandRun_push_full x _ idle noWords full).trans run, live_t, ?_, ?_⟩
      · simpa [List.replicate_succ, afterDrop] using pOut
      · rw [dropcnt, afterDrop, Nat.mod_add_mod]
        congr 1
        simp only [List.length_cons]
        omega
    | succ room =>
      have more : live (afterPush x s) = live s ++ [some x] := live_afterPush h x (by omega)
      have count : liveCount (afterPush x s) = liveCount s + 1 := by
        rw [← live_length, more, List.length_append, live_length]
        rfl
      have some_room : nextIndex s.cfg s.wr ≠ s.rd := mt full_iff.mp (by omega)
      have fewer : liveCount (afterPush x s) + room + 1 = s.cfg.cap := by omega
      obtain ⟨t, run, live_t, pOut, dropcnt⟩ := ih (h.afterPush x) idle noWords fewer
      refine ⟨t, (commandRun_push_room x _ idle some_room).trans run, ?_, ?_, ?_⟩
      · simpa [more] using live_t
      · simpa [List.replicate_succ, afterPush] using pOut
      · simpa [afterPush] using dropcnt

/-- Settles O18: an empty ring has room for `C - 1` samples. -/
theorem countingLaw : Obligations.CountingLaw := by
  intro s xs inv idle noWords empty _
  have none_live : liveCount s = 0 := by rw [← live_length, empty, List.length_nil]
  have cap : 2 ≤ s.cfg.cap := inv.counters.cfg.2.1
  simpa [empty] using commandRun_pushes xs inv.counters idle noWords (room := s.cfg.cap - 1) (by omega)

end Sys2Proof.Machine
end

section
/-!
POP, undisturbed: the micro-steps (O14), the whole command (O15), and the order in which POPs return samples (O19).
-/

namespace Sys2Proof.Machine

/-- A slot that has been written yields what it holds (R121). -/
theorem readSlot_of_read {s : State} {i : Nat} {v : Sample} (held : s.buf.read i = some v) : readSlot s i = v := by
  rw [readSlot, held]

/-- Settles O14: the equations of `execPop`, `cRead` and `cPublish`, each micro-step's state written out. -/
theorem popMicroSteps : Obligations.PopMicroSteps := by
  refine fun s => ⟨rfl, rfl, fun idle => ⟨_, execPop_ready idle⟩, fun seq => ⟨_, agentStep_load seq⟩,
    fun seq empty pop => ?_, fun seq empty loop => ?_, fun seq some_seen => ?_, fun seq pop => ?_, fun seq loop => ?_⟩
  · rw [agentStep_read seq, cRead_empty empty pop]
    exact ⟨_, rfl⟩
  · rw [agentStep_read seq, cRead_drained empty loop]
    exact ⟨_, rfl⟩
  · rw [agentStep_read seq, cRead_take some_seen]
    exact ⟨_, _, rfl, fun x => readSlot_of_read⟩
  · rw [agentStep_free seq, cPublish_pop pop]
    exact ⟨_, rfl⟩
  · rw [agentStep_free seq, cPublish_loop loop]
    exact ⟨_, rfl⟩

/-- `s` after the first micro-step of a POP (R36, R121). -/
def popLoad (s : State) : State := cLoad { s with cLoop := false }

/-- `s` after a POP that returns `v` and is not disturbed (R121). -/
def afterPop (v : Sample) (s : State) : State :=
  { s with
    rd := nextIndex s.cfg s.rd, cW := s.wr, cR := s.rd, cV := v, cLoop := false
    cOut := s.cOut ++ [popped v], draw := s.draw + 3 }

/-- `s` after a POP that finds the ring empty and is not disturbed (R121). -/
def afterEmptyPop (s : State) : State :=
  { s with cW := s.wr, cR := s.rd, cLoop := false, cOut := s.cOut ++ [okFlag false], draw := s.draw + 2 }

variable {s : State}

theorem exec_pop (idle : s.cseq = .idle) : exec .pop s = .next (popLoad s) := execPop_ready idle

/-- `C_READ` and `C_PUBLISH` after a `C_LOAD` that saw a sample. -/
theorem agentRun_afterPop (idle : s.cseq = .idle) (some_live : s.wr ≠ s.rd) :
    ∃ v, agentRun .consumer 2 (popLoad s) = .next (afterPop v s) ∧ ∀ x, s.buf.read s.rd = some x → v = x := by
  refine ⟨readSlot (popLoad s) s.rd, ?_, fun x held => readSlot_of_read held⟩
  rw [agentRun_next (agentStep_read rfl), cRead_take (s := popLoad s) some_live, agentRun_next (agentStep_free rfl),
    cPublish_pop (by rfl), agentRun_zero, afterPop, idle]
  rfl

/-- `C_READ` after a `C_LOAD` that saw the ring empty. -/
theorem agentRun_afterEmptyPop (idle : s.cseq = .idle) (empty : s.wr = s.rd) :
    agentRun .consumer 1 (popLoad s) = .next (afterEmptyPop s) := by
  rw [agentRun_next (agentStep_read rfl), cRead_empty (s := popLoad s) empty rfl, agentRun_zero, afterEmptyPop, idle]
  rfl

/-- Settles O15: after `C_LOAD` the rest is `agentRun_afterPop` or `agentRun_afterEmptyPop`. -/
theorem popReturnsOldest : Obligations.PopReturnsOldest := by
  refine fun s idle => ⟨fun some_live => ?_, fun empty => ⟨_, exec_pop idle, agentRun_afterEmptyPop idle empty⟩⟩
  obtain ⟨v, run, oldest⟩ := agentRun_afterPop idle some_live
  exact ⟨_, v, exec_pop idle, run, oldest⟩

/-! ## Several POPs -/

theorem CountersOk.afterPop (h : CountersOk s) (v : Sample) : CountersOk (afterPop v s) :=
  { h with rd := nextIndex_lt h.cfg _ }

theorem CountersOk.afterEmptyPop (h : CountersOk s) : CountersOk (afterEmptyPop s) := { h with }

/-- A POP from a ring with a live sample returns the oldest one and leaves the others (R77 (b)). -/
theorem commandRun_pop_oldest (h : CountersOk s) (is : List Instr) (idle : s.cseq = .idle) {x : Sample}
    {rest : List (Option Sample)} (oldest : live s = some x :: rest) :
    commandRun .consumer 2 (.pop :: is) s = commandRun .consumer 2 is (afterPop x s) ∧ live (afterPop x s) = rest := by
  have count : 0 < liveCount s := by rw [← live_length, oldest]; exact Nat.succ_pos _
  have some_live : s.wr ≠ s.rd := (occupancy_eq_zero h.wr h.rd).not.mp (Nat.ne_of_gt count)
  obtain ⟨held, younger⟩ := List.cons.inj ((live_free h.wr h.rd count).symm.trans oldest)
  obtain ⟨v, run, reads⟩ := agentRun_afterPop idle some_live
  obtain rfl := reads x held
  exact ⟨commandRun_cons (exec_pop idle) run, (live_congr rfl rfl rfl rfl).trans younger⟩

/-- A POP from an empty ring takes one further micro-step; the second turn passes, as no command waits (R244). -/
theorem commandRun_pop_empty (is : List Instr) (idle : s.cseq = .idle) (noWords : s.cIn = []) (empty : s.wr = s.rd) :
    commandRun .consumer 2 (.pop :: is) s = commandRun .consumer 2 is (afterEmptyPop s) := by
  have pass : agentStep .consumer (afterEmptyPop s) = .next (afterEmptyPop s) :=
    agentStep_nothing idle (congrArg fetchCommand noWords)
  have run : agentRun .consumer (1 + 1) (popLoad s) = .next (afterEmptyPop s) := by
    rw [agentRun_add (agentRun_afterEmptyPop idle empty), agentRun_next pass, agentRun_zero]
  exact commandRun_cons (exec_pop idle) run

/-- R126 by the number of POPs: each takes the head of the list of live samples, if there is one. -/
theorem commandRun_pops (m : Nat) {xs : List Sample} (h : CountersOk s) (idle : s.cseq = .idle) (noWords : s.cIn = [])
    (samples : live s = xs.map some) :
    ∃ t, commandRun .consumer 2 (List.replicate m Instr.pop) s = .next t ∧
      t.cOut = s.cOut ++ (xs.take m).map popped ++ List.replicate (m - xs.length) (okFlag false) ∧
      live t = (xs.drop m).map some := by
  induction m generalizing s xs with
  | zero => exact ⟨s, rfl, by simp, by simpa using samples⟩
  | succ m ih =>
    rw [List.replicate_succ]
    cases xs with
    | nil =>
      have none_live : liveCount s = 0 := by rw [← live_length, samples]; rfl
      have empty : s.wr = s.rd := (occupancy_eq_zero h.wr h.rd).mp none_live
      obtain ⟨t, run, cOut, live_t⟩ := ih (xs := []) h.afterEmptyPop idle noWords (live_eq_nil empty)
      refine ⟨t, (commandRun_pop_empty _ idle noWords empty).trans run, ?_, by simpa using live_t⟩
      simpa [List.replicate_succ, afterEmptyPop] using cOut
    | cons x xs =>
      obtain ⟨pop, younger⟩ := commandRun_pop_oldest h (List.replicate m .pop) idle samples
      obtain ⟨t, run, cOut, live_t⟩ := ih (h.afterPop x) idle noWords younger
      refine ⟨t, pop.trans run, ?_, live_t⟩
      simpa [afterPop] using cOut

/-- Settles O19: `commandRun_pops` from a state that meets `Inv`. -/
theorem fifoLaw : Obligations.FifoLaw := fun _ _ m inv => commandRun_pops m inv.counters

end Sys2Proof.Machine
end

section
/-!
The trig source: SINE and COSINE of the table strategy (O29, O32, O33) and of the direct one (O30), and when the two agree
(O31).
-/

namespace Sys2Proof.Machine

/-! ## The table of a trig source (R141) -/

/-- `2π·k / l` is `2π·(k mod l) / l` but for whole turns. -/
theorem sin_two_pi_mod_div (k : Nat) {l : Nat} (pos : 0 < l) :
    Real.sin (2 * Real.pi * (k % l : ℕ) / l) = Real.sin (2 * Real.pi * k / l) := by
  have nonzero : (l : ℝ) ≠ 0 := Nat.cast_ne_zero.mpr pos.ne'
  have split : (k : ℝ) = (k % l : ℕ) + l * (k / l : ℕ) := mod_cast (Nat.mod_add_div k l).symm
  rw [← Real.sin_add_nat_mul_two_pi _ (k / l), split]
  congr 1
  field_simp

/-- A quarter period rounded down is short of a quarter turn by `π·(l mod 4) / (2l)` (R146). -/
theorem sin_quarter_later (n : Nat) {l : Nat} (pos : 0 < l) :
    Real.sin (2 * Real.pi * (n + l / 4 : ℕ) / l) =
      Real.cos (2 * Real.pi * n / l - Real.pi * (l % 4 : ℕ) / (2 * l)) := by
  have nonzero : (l : ℝ) ≠ 0 := Nat.cast_ne_zero.mpr pos.ne'
  have split : ((l % 4 : ℕ) : ℝ) = l - 4 * (l / 4 : ℕ) := eq_sub_of_add_eq (mod_cast Nat.mod_add_div l 4)
  rw [← Real.sin_add_pi_div_two, split]
  congr 1
  push_cast
  field_simp
  ring

section Table

variable {s : State} (trig : TrigOk s) (phase : s.phase ≠ .idle) (strat : s.strat = .table)
include trig phase strat

theorem TrigOk.four_le_len : 4 ≤ s.len := by
  obtain ⟨q, -, -, -, source⟩ := trig phase
  rw [strat] at source
  obtain ⟨-, lmin, -⟩ := source
  exact lmin

theorem TrigOk.len_pos : 0 < s.len := Nat.lt_of_lt_of_le (by decide) (trig.four_le_len phase strat)

/-- Every index a caller can form is that of a built entry (R62, R142, R143). -/
theorem TrigOk.read_mod (i : Nat) : s.table.read (i % s.len) = some (tableEntry s.len (i % s.len)) := by
  have inside := Nat.mod_lt i (trig.len_pos phase strat)
  obtain ⟨q, -, -, -, source⟩ := trig phase
  rw [strat] at source
  obtain ⟨-, -, entries⟩ := source
  exact entries _ inside

theorem readTable_mod_toReal (i : Nat) : (readTable s (i % s.len)).toReal = Real.sin (2 * Real.pi * i / s.len) := by
  rw [readTable_of_read (trig.read_mod phase strat i), tableEntry_toReal, sin_two_pi_mod_div i (trig.len_pos phase strat)]

/-- SINE of the table strategy goes round once in `L` samples (R142, R147). -/
theorem sine_table_toReal (n : Nat) : (sine s n).toReal = Real.sin (2 * Real.pi * n / s.len) := by
  rw [sine_table strat, readTable_mod_toReal trig phase strat]

/-- COSINE of the table strategy lags by the bias of R146. -/
theorem cosine_table_toReal (n : Nat) :
    (cosine s n).toReal = Real.cos (2 * Real.pi * n / s.len - Real.pi * (s.len % 4 : ℕ) / (2 * s.len)) := by
  rw [cosine_table strat, readTable_mod_toReal trig phase strat, sin_quarter_later n (trig.len_pos phase strat)]

/-- `L = floor(FS / F0)` (R141), of the number `F0` is. -/
theorem TrigOk.len_eq_floor : s.len = ⌊(s.cfg.fs : ℝ) / s.f0.toReal⌋₊ := by
  obtain ⟨q, positive, -, f0, source⟩ := trig phase
  rw [strat] at source
  obtain ⟨len, -, -⟩ := source
  have value : s.f0.toReal = (q.num : ℝ) / q.den := by
    rw [f0, Ratio.toNum, toReal_div, toReal_ofNat, toReal_ofNat]
  rw [len, tableLength, value, div_div_eq_mul_div, ← Nat.cast_mul, Nat.floor_div_eq_div]

/-- The period of the table is at most that of the configured frequency (R147). -/
theorem TrigOk.len_le_ratio : (s.len : ℝ) ≤ (s.cfg.fs : ℝ) / s.f0.toReal := by
  have pos := trig.len_pos phase strat
  rw [trig.len_eq_floor phase strat] at pos ⊢
  exact Nat.floor_le (Nat.pos_of_floor_pos pos).le

/-- `FS / F0` is whole only as `L` (R147). -/
theorem TrigOk.len_eq_of_ratio_eq {m : Nat} (whole : (s.cfg.fs : ℝ) / s.f0.toReal = m) : s.len = m := by
  rw [trig.len_eq_floor phase strat, whole, Nat.floor_natCast]

end Table

/-- Settles O29: each index reads a built entry. -/
theorem tableTrig : Obligations.TableTrig := by
  intro s n inv phase strat
  have entry := inv.trig.read_mod phase strat
  rw [sine_table strat, cosine_table strat, readTable_of_read (entry n), readTable_of_read (entry (n + s.len / 4))]
  exact ⟨entry _, entry _, tableEntry_toReal _ _, tableEntry_toReal _ _⟩

/-- Settles O30: both are taken of `directAngle`. -/
theorem directTrig : Obligations.DirectTrig := by
  intro s n strat
  rw [sine_direct strat, cosine_direct strat, toReal_sin, toReal_cos, directAngle_toReal]
  exact ⟨rfl, rfl⟩

/-! ## The bias of the quarter-period cosine (R146) -/

theorem quarterBias_eq_zero_iff {l : Nat} (pos : 0 < l) : Real.pi * (l % 4 : ℕ) / (2 * l) = 0 ↔ l % 4 = 0 := by
  simp [Real.pi_ne_zero, pos.ne']

theorem flagQbias_table {s : State} (phase : s.phase ≠ .idle) (strat : s.strat = .table) :
    flagQbias s = true ↔ s.len % 4 ≠ 0 := by
  simp [flagQbias, phase, strat]

/-- Settles O32: `cosine_table_toReal`, and QBIAS is the test that the bias is not 0. -/
theorem quarterPeriodBias : Obligations.QuarterPeriodBias := by
  intro s n inv phase strat
  refine ⟨cosine_table_toReal inv.trig phase strat n, ?_⟩
  rw [flagQbias_table phase strat, Ne, Ne, quarterBias_eq_zero_iff (inv.trig.len_pos phase strat)]

/-! ## The table's frequency (R147) -/

/-- Settles O33: `L` is `FS / F0` rounded down, and `FS / F0` itself when that is whole. -/
theorem tableFrequency : Obligations.TableFrequency := by
  intro s n inv phase strat
  have len : (0 : ℝ) < s.len := Nat.cast_pos.mpr (inv.trig.len_pos phase strat)
  have period := inv.trig.len_le_ratio phase strat
  obtain ⟨fs_pos, -⟩ := inv.counters.cfg
  have fs : (0 : ℝ) < s.cfg.fs := Nat.cast_pos.mpr fs_pos
  have f0 : 0 < s.f0.toReal := (div_pos_iff_of_pos_left fs).mp (len.trans_le period)
  refine ⟨?_, (le_div_comm₀ len f0).mp period, fun exact_f0 => ⟨s.len, ?_⟩, fun ⟨m, whole⟩ => ?_⟩
  · rw [sine_table_toReal inv.trig phase strat]
    congr 1
    field_simp
  · rw [exact_f0, mul_div_cancel₀ _ len.ne']
  · have ratio : (s.cfg.fs : ℝ) / s.f0.toReal = m := (div_eq_iff f0.ne').mpr whole
    rw [inv.trig.len_eq_of_ratio_eq phase strat ratio, ← ratio, div_div_cancel₀ fs.ne']

/-! ## When the strategies agree (R145) -/

/-- The reference angle of the direct strategy, as a part of the `FS / F0` samples of one period. -/
theorem directAngle_eq_div_ratio (s : State) (n : Nat) :
    (directAngle s n).toReal = 2 * Real.pi * n / (s.cfg.fs / s.f0.toReal) := by
  rw [directAngle_toReal, div_div_eq_mul_div, mul_right_comm]

/-- The bias is at most half a turn, where cosines tell angles apart. -/
theorem quarterBias_mem {l : Nat} (four_le : 4 ≤ l) : Real.pi * (l % 4 : ℕ) / (2 * l) ∈ Set.Icc 0 Real.pi := by
  have pos : (0 : ℝ) < l := Nat.cast_pos.mpr (Nat.lt_of_lt_of_le (by decide) four_le)
  have rest : ((l % 4 : ℕ) : ℝ) ≤ 2 * l :=
    mod_cast (Nat.mod_le l 4).trans (Nat.le_mul_of_pos_left l two_pos)
  exact ⟨by positivity, (div_le_iff₀ (by positivity)).mpr (mul_le_mul_of_nonneg_left rest Real.pi_pos.le)⟩

/-- One step of a period of at least four samples is at most a quarter turn, where sines tell angles apart. -/
theorem two_pi_div_mem {x : ℝ} (four_le : 4 ≤ x) : 2 * Real.pi / x ∈ Set.Icc (-(Real.pi / 2)) (Real.pi / 2) := by
  have pos : 0 < x := four_pos.trans_le four_le
  have step : 0 ≤ 2 * Real.pi / x := by positivity
  refine ⟨by linarith [Real.pi_pos], (div_le_iff₀ pos).mpr ?_⟩
  calc 2 * Real.pi = Real.pi / 2 * 4 := by ring
    _ ≤ Real.pi / 2 * x := mul_le_mul_of_nonneg_left four_le Real.pi_div_two_pos.le

/-- References of periods `l` and `x` that agree at 0 leave no bias, and those that agree at 1 have one period. -/
theorem period_eq_of_references_eq {l : Nat} {x : ℝ} (four_le : 4 ≤ l) (le : l ≤ x)
    (cos_zero : Real.cos (Real.pi * (l % 4 : ℕ) / (2 * l)) = 1)
    (sin_one : Real.sin (2 * Real.pi / l) = Real.sin (2 * Real.pi / x)) : x = l ∧ l % 4 = 0 := by
  have four_le' : (4 : ℝ) ≤ l := Nat.ofNat_le_cast.mpr four_le
  have bias : Real.pi * (l % 4 : ℕ) / (2 * l) = 0 :=
    Real.injOn_cos (quarterBias_mem four_le) (Set.left_mem_Icc.mpr Real.pi_pos.le) (cos_zero.trans Real.cos_zero.symm)
  have step : 2 * Real.pi / l = 2 * Real.pi / x :=
    Real.injOn_sin (two_pi_div_mem four_le') (two_pi_div_mem (four_le'.trans le)) sin_one
  rw [div_eq_mul_inv, div_eq_mul_inv] at step
  exact ⟨(inv_injective (mul_left_cancel₀ Real.two_pi_pos.ne' step)).symm,
    (quarterBias_eq_zero_iff (Nat.lt_of_lt_of_le (by decide) four_le)).mp bias⟩

/-- Settles O31: agreement at 0 and 1 gives the period and no bias, which give the same angle at every index. -/
theorem strategiesAgree : Obligations.StrategiesAgree := by
  intro s t inv phase strat direct cfg f0
  have four_le := inv.trig.four_le_len phase strat
  simp only [sine_table_toReal inv.trig phase strat, cosine_table_toReal inv.trig phase strat, sine_direct direct,
    cosine_direct direct, toReal_sin, toReal_cos, directAngle_eq_div_ratio, cfg, f0]
  constructor
  · intro agree
    have cos_zero := (agree 0).2
    have sin_one := (agree 1).1
    simp only [Nat.cast_zero, mul_zero, zero_div, zero_sub, Real.cos_neg, Real.cos_zero] at cos_zero
    simp only [Nat.cast_one, mul_one] at sin_one
    obtain ⟨period, whole⟩ :=
      period_eq_of_references_eq four_le (inv.trig.len_le_ratio phase strat) cos_zero sin_one
    exact ⟨s.len / 4, by rw [period, Nat.mul_div_cancel' (Nat.dvd_of_mod_eq_zero whole)]⟩
  · rintro ⟨m, ratio⟩ n
    have no_bias : Real.pi * (s.len % 4 : ℕ) / (2 * s.len) = 0 :=
      (quarterBias_eq_zero_iff (inv.trig.len_pos phase strat)).mpr
        (by rw [inv.trig.len_eq_of_ratio_eq phase strat ratio, Nat.mul_mod_right])
    rw [no_bias, sub_zero, ratio, inv.trig.len_eq_of_ratio_eq phase strat ratio]
    exact ⟨rfl, rfl⟩

end Sys2Proof.Machine
end

section
/-!
The commands of the sampler: START (O23) and STOP (O24) in each phase, TICKs after a STOP (O26), and the bound on the
micro-steps of PUSH and TICK (O22).
-/

namespace Sys2Proof.Machine

/-! ## Answers -/

/-- An idle consumer that answers writes its port and `draw` only. -/
theorem respondC_of_idle {s : State} (idle : s.cseq = .idle) (r : Response) :
    respondC r s = { s with cOut := s.cOut ++ [r], draw := s.draw + 1 } := by
  rw [respondC, ← idle]

/-- An idle producer that answers writes its port and `draw` only. -/
theorem respondP_of_idle {s : State} (idle : s.pseq = .idle) (r : Response) :
    respondP r s = { s with pOut := s.pOut ++ [r], draw := s.draw + 1 } := by
  rw [respondP, ← idle]

/-! ## START and STOP -/

/-- Settles O23: the three equations of `execStart`, an idle consumer's answer written out. -/
theorem startEffect : Obligations.StartEffect := by
  refine ⟨rfl, rfl, fun s idle => ⟨s.draw + 1, ?_⟩⟩
  show execStart s = _
  split
  · next phase => rw [execStart_idle idle phase, raise_consumer, respondC_of_idle idle]
  · next phase => rw [execStart_configured idle phase, respondC_of_idle (by exact idle)]; rfl
  · next phase => rw [execStart_running idle phase, respondC_of_idle idle]

theorem exec_stop_running {s : State} (idle : s.cseq = .idle) (producer : s.pseq = .idle) (phase : s.phase = .running) :
    exec .stop s = .next { s with
      phase := .configured, signals := s.signals ++ [.timerDisarm], cOut := s.cOut ++ [okFlag false]
      draw := s.draw + 1 } := by
  rw [exec, execStop_running idle producer phase, respondC_of_idle (by exact idle)]
  rfl

theorem exec_stop_stopped {s : State} (idle : s.cseq = .idle) (producer : s.pseq = .idle) (phase : s.phase ≠ .running) :
    exec .stop s = .next { s with cOut := s.cOut ++ [okFlag false], draw := s.draw + 1 } := by
  rw [exec, execStop_stopped idle producer phase, respondC_of_idle idle]

/-- A STOP leaves the block stopped, its agents idle and one answer more (R161). -/
theorem stopped_of_exec_stop {s t : State} (idle : s.cseq = .idle) (producer : s.pseq = .idle)
    (run : exec .stop s = .next t) :
    t.cseq = .idle ∧ t.pseq = .idle ∧ t.phase ≠ .running ∧ t.cOut = s.cOut ++ [okFlag false] ∧
      t.draw = s.draw + 1 := by
  by_cases phase : s.phase = .running
  · cases (exec_stop_running idle producer phase).symm.trans run
    exact ⟨idle, producer, nofun, rfl, rfl⟩
  · cases (exec_stop_stopped idle producer phase).symm.trans run
    exact ⟨idle, producer, phase, rfl, rfl⟩

/-- Settles O24: the equations of STOP in each phase; after one the block is stopped, and a STOP there only answers. -/
theorem stopEffect : Obligations.StopEffect := by
  refine fun s idle producer => ⟨?_, fun t run => ?_⟩
  · split
    · next phase => exact exec_stop_running idle producer phase
    · next phase => exact exec_stop_stopped idle producer (by simp [phase])
    · next phase => exact exec_stop_stopped idle producer (by simp [phase])
  · obtain ⟨idle, producer, stopped, cOut, draw⟩ := stopped_of_exec_stop idle producer run
    rw [exec_stop_stopped idle producer stopped, cOut, draw, List.append_assoc]
    rfl

/-! ## The rank of the producer -/

/-- A PUSH or a TICK is accepted by `P_LOAD`, or ignored and answered at once (R120, R162). -/
theorem accepted_sample {s t : State} {x : Sample} (idle : s.pseq = .idle)
    (run : exec (.push x) s = .next t ∨ exec (.tick x) s = .next t) :
    t = pLoad x s ∨ t = respondP (okFlag false) s := by
  rcases run with run | run
  · cases (execPush_ready x idle).symm.trans run
    exact .inl rfl
  · by_cases phase : s.phase = .running
    · cases (execTick_running x idle phase).symm.trans run
      exact .inl rfl
    · cases (execTick_stopped x idle phase).symm.trans run
      exact .inr rfl

theorem agentStep_reload {s : State} (seq : s.pseq = .load) : agentStep .producer s = .next (pLoad s.pS s) := by
  simp [agentStep, enabled, seq, producerStep]

/-- `P_WRITE` ends the command, or leaves it `P_PUBLISH` (R120). -/
theorem pWrite_pseq (s : State) : (pWrite s).pseq = .idle ∨ (pWrite s).pseq = .publish := by
  by_cases full : nextIndex s.cfg s.pW = s.pR
  · exact .inl (by rw [pWrite_of_full full]; rfl)
  · exact .inr (by rw [pWrite_of_room full]; rfl)

/-- A busy producer always has a micro-step, which brings the end of its command nearer (R74). -/
theorem producerRank_decreases {s : State} (busy : s.pseq ≠ .idle) :
    ∃ u, agentStep .producer s = .next u ∧ producerRank u.pseq < producerRank s.pseq := by
  cases seq : s.pseq with
  | idle => exact absurd seq busy
  | load => exact ⟨_, agentStep_reload seq, Nat.lt_succ_self 2⟩
  | write =>
    refine ⟨_, agentStep_write seq, ?_⟩
    rcases pWrite_pseq s with e | e <;> rw [e] <;> decide
  | publish => exact ⟨_, agentStep_publish seq, Nat.zero_lt_one⟩

/-- Settles O22: `accepted_sample` gives the two micro-steps to go, `producerRank_decreases` the decrease, and the consumer
does not write `PSEQ` (`ConsumerMove.frame`). -/
theorem producerWaitFree : Obligations.ProducerWaitFree := by
  refine fun s t => ⟨fun x idle run => ?_, producerRank_decreases, fun run => ?_⟩
  · rcases accepted_sample idle run with rfl | rfl
    · exact Nat.le_refl 2
    · exact Nat.zero_le 2
  · obtain ⟨-, -, pseq, -⟩ := (agentStep_consumer run).frame
    rw [pseq]

/-! ## TICKs after a STOP -/

/-- At the producer port a word with TICK's opcode decodes to nothing but a TICK (R93). -/
theorem tick_of_opcode {c : Config} {w : Word} {i : Instr} (op : opcode w = 0x04#8)
    (ok : decode c .producer [w] = .ok i) : ∃ x, i = .tick x := by
  rcases decode_producer ok with ⟨x, rfl⟩ | tick
  · have words : [0x01#8 ++ x] = [w] := encode_decodeForm (decode_ok_iff.mp ok).1
    rw [← List.singleton_inj.mp words, opcode_formS] at op
    exact absurd op (by decide)
  · exact tick

/-- What an idle producer does with a TICK while the block is not Running, its sample fitting or not: it answers (R162,
R234). -/
theorem agentStep_stopped_tick {s : State} {w : Word} {ws : List Word} (stopped : s.phase ≠ .running)
    (idle : s.pseq = .idle) (words : s.pIn = w :: ws) (op : opcode w = 0x04#8) :
    ∃ r, agentStep .producer s = .next (respondP r { s with pIn := ws }) := by
  have fetch : fetchCommand s.pIn = some ([w], ws) := by
    rw [words]
    exact fetchCommand_single (by rw [op]; decide) ws
  cases dec : decode s.cfg .producer [w] with
  | error e => exact ⟨_, agentStep_illegal_producer idle fetch dec⟩
  | ok i =>
    obtain ⟨x, rfl⟩ := tick_of_opcode op dec
    obtain ⟨-, run⟩ := agentStep_exec_producer idle fetch dec
    exact ⟨okFlag false, run.trans (execTick_stopped (s := { s with pIn := ws }) x idle stopped)⟩

/-- Settles O26: with no word waiting the turn passes, and a TICK is answered (`agentStep_stopped_tick`). -/
theorem stoppedTicksWriteNothing : Obligations.StoppedTicksWriteNothing := by
  intro s t stopped idle ticks run
  cases words : s.pIn with
  | nil =>
    cases (agentStep_nothing (a := .producer) idle (congrArg fetchCommand words)).symm.trans run
    exact ⟨rfl, rfl, rfl, rfl, stopped, idle, ticks⟩
  | cons w ws =>
    rw [words] at ticks
    obtain ⟨op, later⟩ := List.forall_mem_cons.mp ticks
    obtain ⟨r, answers⟩ := agentStep_stopped_tick stopped idle words op
    cases answers.symm.trans run
    exact ⟨rfl, rfl, rfl, rfl, stopped, rfl, later⟩

end Sys2Proof.Machine
end

section
/-!
The lifecycle state machine (O27): what each command does at idle agents, in every phase.
-/

namespace Sys2Proof.Machine

theorem getLast?_status_append (out : List Response) (r : Response) :
    ((out ++ [r]).map (·.status)).getLast? = some r.status := by
  rw [List.map_append]
  exact List.getLast?_concat

/-- `t` is `s` but for an answer of status `e` on the consumer port: a no-op, or an error (R164, R237). -/
def OnlyAnswers (e : Status) (s t : State) : Prop :=
  t = { s with cOut := t.cOut, draw := t.draw } ∧ (t.cOut.map (·.status)).getLast? = some e

theorem OnlyAnswers.respondC {s : State} (idle : s.cseq = .idle) (r : Response) :
    OnlyAnswers r.status s (respondC r s) :=
  ⟨by rw [respondC_of_idle idle], getLast?_status_append s.cOut r⟩

variable {s t : State}

/-- INIT's checks pass: the session starts afresh and a running timer is disarmed (R164, R200). -/
theorem lifecycle_init_ok {pin : PinId} {strat : Strategy} {f0bits : Word} (idle : s.cseq = .idle)
    (producer : s.pseq = .idle) (run : exec (.init pin strat f0bits) s = .next t)
    (params : (initParams s.cfg strat f0bits).isSome = true) (built : builtIn s.cfg strat = true) :
    t.phase = .configured ∧ (t.cOut.map (·.status)).getLast? = some .ok ∧
      t.wr = 0 ∧ t.rd = 0 ∧ t.n = 0 ∧ t.rvalid = false ∧
      (s.phase = .running → Signal.timerDisarm ∈ t.signals.drop s.signals.length) := by
  obtain ⟨⟨q, l⟩, passed⟩ := Option.isSome_iff_exists.mp params
  cases (execInit_ok pin strat f0bits idle producer built passed).symm.trans run
  exact ⟨rfl, getLast?_status_append .., rfl, rfl, rfl, rfl, fun running => by simp [running]⟩

/-- INIT's checks fail: the session stays (R164, R231). -/
theorem lifecycle_init_fails {pin : PinId} {strat : Strategy} {f0bits : Word} (idle : s.cseq = .idle)
    (producer : s.pseq = .idle) (run : exec (.init pin strat f0bits) s = .next t)
    (params : initParams s.cfg strat f0bits = none) : OnlyAnswers .configError s t := by
  cases (execInit_fails pin strat f0bits idle producer params).symm.trans run
  exact .respondC idle _

theorem lifecycle_start (idle : s.cseq = .idle) (run : exec .start s = .next t) :
    (s.phase = .idle → OnlyAnswers .usageError s t) ∧
      (s.phase = .configured → t.phase = .running ∧ (t.cOut.map (·.status)).getLast? = some .ok) ∧
      (s.phase = .running → OnlyAnswers .ok s t) := by
  refine ⟨fun phase => ?_, fun phase => ?_, fun phase => ?_⟩
  · cases (execStart_idle idle phase).symm.trans run
    exact .respondC idle _
  · cases (execStart_configured idle phase).symm.trans run
    exact ⟨rfl, getLast?_status_append ..⟩
  · cases (execStart_running idle phase).symm.trans run
    exact .respondC idle _

theorem lifecycle_stop (idle : s.cseq = .idle) (producer : s.pseq = .idle) (run : exec .stop s = .next t) :
    (t.cOut.map (·.status)).getLast? = some .ok ∧ (s.phase = .running → t.phase = .configured) ∧
      (s.phase ≠ .running → t = { s with cOut := t.cOut, draw := t.draw }) := by
  by_cases phase : s.phase = .running
  · cases (exec_stop_running idle producer phase).symm.trans run
    exact ⟨getLast?_status_append .., fun _ => rfl, fun stopped => absurd phase stopped⟩
  · cases (exec_stop_stopped idle producer phase).symm.trans run
    exact ⟨getLast?_status_append .., fun running => absurd running phase, fun _ => rfl⟩

theorem lifecycle_loop (idle : s.cseq = .idle) (run : exec .loop s = .next t) :
    t.phase = s.phase ∧ (s.phase = .idle → (t.cOut.map (·.status)).getLast? = some .usageError) ∧
      (s.phase ≠ .idle → t.cOut = s.cOut ∧ t.cseq = .load) := by
  cases (execLoop_ready idle).symm.trans run
  by_cases phase : s.phase = .idle
  · rw [lEnter_idle phase]
    exact ⟨rfl, fun _ => getLast?_status_append .., fun outside => absurd phase outside⟩
  · rw [lEnter_ready phase]
    exact ⟨rfl, fun inside => absurd inside phase, fun _ => ⟨rfl, rfl⟩⟩

theorem lifecycle_consume {x : Sample} (idle : s.cseq = .idle) (run : exec (.consume x) s = .next t) :
    t.phase = s.phase ∧
      (t.cOut.map (·.status)).getLast? = some (if s.phase = .idle then .usageError else .ok) := by
  by_cases phase : s.phase = .idle
  · cases (execConsume_idle x idle phase).symm.trans run
    rw [if_pos phase]
    exact ⟨rfl, getLast?_status_append ..⟩
  · cases (execConsume_ready x idle phase).symm.trans run
    rw [if_neg phase]
    exact ⟨by simp, getLast?_status_append ..⟩

theorem lifecycle_tick {x : Sample} (producer : s.pseq = .idle) (run : exec (.tick x) s = .next t) :
    t.phase = s.phase ∧ (s.phase = .running → exec (.push x) s = .next t) ∧
      (s.phase ≠ .running →
        t = { s with pOut := t.pOut, draw := t.draw } ∧ (t.pOut.map (·.status)).getLast? = some .ok) := by
  by_cases phase : s.phase = .running
  · cases (execTick_running x producer phase).symm.trans run
    exact ⟨rfl, fun _ => execPush_ready x producer, fun stopped => absurd phase stopped⟩
  · cases (execTick_stopped x producer phase).symm.trans run
    exact ⟨rfl, fun running => absurd running phase,
      fun _ => ⟨by rw [respondP_of_idle producer], getLast?_status_append ..⟩⟩

theorem lifecycle_rdreg {r : RegNo} (idle : s.cseq = .idle) (run : exec (.rdreg r) s = .next t) :
    t.phase = s.phase ∧ (legalReg r = true → (t.cOut.map (·.status)).getLast? = some .ok) := by
  cases known : regOfNumber r with
  | none =>
    cases (execRdreg_reserved idle known).symm.trans run
    exact ⟨rfl, fun legal => by simp [legalReg_eq, known] at legal⟩
  | some reg =>
    cases (execRdreg_legal idle known).symm.trans run
    exact ⟨rfl, fun _ => getLast?_status_append ..⟩

/-- Settles O27: the row of each command. -/
theorem lifecycleTable : Obligations.LifecycleTable := by
  intro s t i idle producer run
  cases i with
  | init pin strat f0bits =>
    exact ⟨lifecycle_init_ok idle producer run, lifecycle_init_fails idle producer run⟩
  | start =>
    obtain ⟨whenIdle, whenConfigured, whenRunning⟩ := lifecycle_start idle run
    dsimp only
    split
    · next phase => exact whenIdle phase
    · next phase => exact whenConfigured phase
    · next phase => exact whenRunning phase
  | stop => exact lifecycle_stop idle producer run
  | loop => exact lifecycle_loop idle run
  | consume x => exact lifecycle_consume idle run
  | push x =>
    cases (execPush_ready x producer).symm.trans run
    exact ⟨rfl, rfl, rfl⟩
  | tick x => exact lifecycle_tick producer run
  | pop =>
    cases (execPop_ready idle).symm.trans run
    exact ⟨rfl, rfl, rfl⟩
  | rdreg r => exact lifecycle_rdreg idle run

end Sys2Proof.Machine
end

section
/-!
The orthogonality sums of R185: `W` samples of a reference that makes a whole number of turns among them.
-/

namespace Sys2Proof.Machine

/-- The reference angle `2π·f·n / W` of R185. -/
noncomputable def turnAngle (f w n : ℕ) : ℝ := 2 * Real.pi * f * n / w

theorem turnAngle_two_mul (f w n : ℕ) : turnAngle (2 * f) w n = 2 * turnAngle f w n := by
  rw [turnAngle, turnAngle]
  push_cast
  ring

/-- The `W` points of the unit circle sum to 0: they are the powers of a `W`-th root of unity other than 1. -/
theorem sum_exp_turnAngle {f w : ℕ} (part : ¬ w ∣ f) :
    ∑ k : Fin w, Complex.exp (turnAngle f w k * Complex.I) = 0 := by
  rcases Nat.eq_zero_or_pos w with rfl | pos
  · exact Fin.sum_univ_zero _
  have primitive := Complex.isPrimitiveRoot_exp w pos.ne'
  have point (k : ℕ) : Complex.exp (turnAngle f w k * Complex.I) =
      (Complex.exp (2 * Real.pi * Complex.I / w) ^ f) ^ k := by
    rw [← pow_mul, ← Complex.exp_nat_mul, turnAngle]
    congr 1
    push_cast
    ring
  have not_one : Complex.exp (2 * Real.pi * Complex.I / w) ^ f ≠ 1 := mt (primitive.pow_eq_one_iff_dvd f).mp part
  rw [Finset.sum_congr rfl fun (k : Fin w) _ => point k, Fin.sum_univ_eq_sum_range, geom_sum_eq not_one,
    pow_right_comm, primitive.pow_eq_one, one_pow, sub_self, zero_div]

theorem sum_cos_turnAngle_add {f w : ℕ} (part : ¬ w ∣ f) (φ : ℝ) : ∑ k : Fin w, Real.cos (turnAngle f w k + φ) = 0 := by
  have point (k : Fin w) : Real.cos (turnAngle f w k + φ) =
      (Complex.exp (turnAngle f w k * Complex.I) * Complex.exp (φ * Complex.I)).re := by
    rw [← Complex.exp_add, ← add_mul, ← Complex.ofReal_add, Complex.exp_ofReal_mul_I_re]
  rw [Finset.sum_congr rfl fun k _ => point k, ← Complex.re_sum, ← Finset.sum_mul, sum_exp_turnAngle part, zero_mul,
    Complex.zero_re]

theorem sum_sin_turnAngle_add {f w : ℕ} (part : ¬ w ∣ f) (φ : ℝ) : ∑ k : Fin w, Real.sin (turnAngle f w k + φ) = 0 := by
  have quarter := sum_cos_turnAngle_add part (φ - Real.pi / 2)
  simpa only [← add_sub_assoc, Real.cos_sub_pi_div_two] using quarter

theorem sum_cos_turnAngle {f w : ℕ} (part : ¬ w ∣ f) : ∑ k : Fin w, Real.cos (turnAngle f w k) = 0 := by
  simpa only [add_zero] using sum_cos_turnAngle_add part 0

theorem sum_sin_turnAngle {f w : ℕ} (part : ¬ w ∣ f) : ∑ k : Fin w, Real.sin (turnAngle f w k) = 0 := by
  simpa only [add_zero] using sum_sin_turnAngle_add part 0

section Sinusoid

variable {f w : ℕ} (part : ¬ w ∣ 2 * f) (d a φ : ℝ)
include part

theorem not_dvd_of_not_dvd_two_mul : ¬ w ∣ f := fun whole => part (whole.mul_left 2)

/-- `SUMI = (A·W/2)·sin φ` (R185). -/
theorem sum_sinusoid_mul_cos :
    ∑ k : Fin w, (d + a * Real.sin (turnAngle f w k + φ)) * Real.cos (turnAngle f w k) = a / 2 * w * Real.sin φ := by
  have product (k : Fin w) : (d + a * Real.sin (turnAngle f w k + φ)) * Real.cos (turnAngle f w k) =
      d * Real.cos (turnAngle f w k) + a / 2 * (Real.sin φ + Real.sin (turnAngle (2 * f) w k + φ)) := by
    have sum := Real.two_mul_sin_mul_cos (turnAngle f w k + φ) (turnAngle f w k)
    rw [add_sub_cancel_left, add_right_comm, ← two_mul, ← turnAngle_two_mul] at sum
    linear_combination a / 2 * sum
  rw [Finset.sum_congr rfl fun k _ => product k, Finset.sum_add_distrib, ← Finset.mul_sum, ← Finset.mul_sum,
    Finset.sum_add_distrib, sum_cos_turnAngle (not_dvd_of_not_dvd_two_mul part), sum_sin_turnAngle_add part,
    Fin.sum_const, nsmul_eq_mul]
  ring

/-- `SUMQ = (A·W/2)·cos φ` (R185). -/
theorem sum_sinusoid_mul_sin :
    ∑ k : Fin w, (d + a * Real.sin (turnAngle f w k + φ)) * Real.sin (turnAngle f w k) = a / 2 * w * Real.cos φ := by
  have product (k : Fin w) : (d + a * Real.sin (turnAngle f w k + φ)) * Real.sin (turnAngle f w k) =
      d * Real.sin (turnAngle f w k) + a / 2 * (Real.cos φ - Real.cos (turnAngle (2 * f) w k + φ)) := by
    have sum := Real.two_mul_sin_mul_sin (turnAngle f w k + φ) (turnAngle f w k)
    rw [add_sub_cancel_left, add_right_comm, ← two_mul, ← turnAngle_two_mul] at sum
    linear_combination a / 2 * sum
  rw [Finset.sum_congr rfl fun k _ => product k, Finset.sum_add_distrib, ← Finset.mul_sum, ← Finset.mul_sum,
    Finset.sum_sub_distrib, sum_sin_turnAngle (not_dvd_of_not_dvd_two_mul part), sum_cos_turnAngle_add part,
    Fin.sum_const, nsmul_eq_mul]
  ring

end Sinusoid

end Sys2Proof.Machine
end

section
/-!
CONSUME: one sample (O34, O38), the angle a completed window leaves (O37), and runs of CONSUMEs (O35).
-/

namespace Sys2Proof.Machine

/-! ## What a completed window leaves -/

/-- `t` holds the result of a window of `w` samples with sums `i` and `q`, and starts the next one (R181 to R183). -/
structure Reports (w : ℕ) (i q : ℝ) (t : State) : Prop where
  rvalid : t.rvalid = true
  n : t.n = 0
  sumI : t.sumI.toReal = 0
  sumQ : t.sumQ.toReal = 0
  angle : t.angle.toReal = atan2Real i q * 180 / Real.pi
  ampl : t.ampl.toReal = hypotReal i q / w

theorem completeWindow_reports (s : State) :
    Reports s.cfg.window s.sumI.toReal s.sumQ.toReal (completeWindow s) :=
  ⟨rfl, rfl, toReal_zero, toReal_zero, angleDeg_toReal _ _, amplitude_toReal _ _ _⟩

/-- R184: sums that are both 0. -/
theorem Reports.of_zero {w : ℕ} {t : State} (h : Reports w 0 0 t) : t.angle.toReal = 0 ∧ t.ampl.toReal = 0 := by
  rw [h.angle, h.ampl]
  constructor
  · rw [show atan2Real 0 0 = 0 from Complex.arg_zero, zero_mul, zero_div]
  · rw [hypotReal, zero_pow two_ne_zero, add_zero, Real.sqrt_zero, zero_div]

/-- The ray of the angle `t`, in degrees. -/
theorem atan2Real_ray {y x r t : ℝ} (hr : 0 < r) (hlow : -Real.pi < t) (hhigh : t ≤ Real.pi)
    (hy : y = r * Real.sin t) (hx : x = r * Real.cos t) : atan2Real y x * 180 / Real.pi = t * 180 / Real.pi := by
  rw [hy, hx, atan2Real_mul_sin_mul_cos hr hlow hhigh]

/-- Settles O37: the range of `atan2Real`, and each axis is the ray of its angle. -/
theorem angleConvention : Obligations.AngleConvention := by
  intro s
  have pi := Real.pi_pos
  obtain ⟨low, high⟩ := angleDeg_range s.sumI s.sumQ
  rw [(completeWindow_reports s).angle]
  rw [angleDeg_toReal] at low high
  refine ⟨rfl, low, high, fun i q => ?_, fun i q => ?_, fun i q => ?_, fun i q => ?_⟩
  · rw [atan2Real_ray (t := 0) q (by linarith) pi.le (by simp [i]) (by simp)]
    simp
  · rw [atan2Real_ray (t := Real.pi / 2) i (by linarith) (by linarith) (by simp) (by simp [q])]
    field_simp
    norm_num
  · rw [atan2Real_ray (t := Real.pi) (neg_pos.mpr q) (by linarith) le_rfl (by simp [i]) (by simp)]
    field_simp
  · rw [atan2Real_ray (t := -(Real.pi / 2)) (neg_pos.mpr i) (by linarith) (by linarith) (by simp) (by simp [q])]
    field_simp
    norm_num

/-! ## One CONSUME -/

section One

variable {s : State} (x : Sample) (idle : s.cseq = .idle) (phase : s.phase ≠ .idle)
include idle phase

theorem exec_consume_open (inside : s.n + 1 ≠ s.cfg.window) :
    exec (.consume x) s = .next (respondC (okFlag false) (accumulate x s)) := by
  rw [exec, execConsume_ready x idle phase, consumeSample_open x inside, windowCloses, decide_eq_false inside]

theorem exec_consume_close (ends : s.n + 1 = s.cfg.window) :
    exec (.consume x) s = .next (respondC (okFlag true) (completeWindow (accumulate x s))) := by
  rw [exec, execConsume_ready x idle phase, consumeSample_close x ends, windowCloses, decide_eq_true ends]

end One

/-- The window that `x` completes is that of the sums with its two products (R180, R181). -/
theorem completeWindow_accumulate_reports (x : Sample) (s : State) :
    Reports s.cfg.window (s.sumI.toReal + x.toNat * (cosine s s.n).toReal)
      (s.sumQ.toReal + x.toNat * (sine s s.n).toReal) (completeWindow (accumulate x s)) :=
  completeWindow_reports (accumulate x s)

/-- Settles O34: the equations of `execConsume`, an idle consumer's answer written out. -/
theorem consumeEffect : Obligations.ConsumeEffect := by
  refine fun s x idle => ⟨rfl, rfl, fun phase => ⟨s.draw + 1, ?_⟩, fun phase inside => ?_, fun phase ends => ?_⟩
  · rw [exec, execConsume_idle x idle phase, raise_consumer, respondC_of_idle idle]
  · refine ⟨_, exec_consume_open x idle phase inside, ?_, rfl, rfl⟩
    rw [respondC_of_idle (by exact idle)]
    rfl
  · obtain ⟨-, -, sumI, sumQ, angle, ampl⟩ := completeWindow_accumulate_reports x s
    refine ⟨_, exec_consume_close x idle phase ends, ?_, sumI, sumQ, angle, ampl⟩
    rw [respondC_of_idle (by exact idle)]
    rfl

/-- Settles O38: the window completed has both sums 0 (`Reports.of_zero`). -/
theorem zeroSums : Obligations.ZeroSums := by
  intro s x idle phase ends sumI sumQ
  have reports := completeWindow_accumulate_reports x s
  rw [sumI, sumQ] at reports
  obtain ⟨angle, ampl⟩ := reports.of_zero
  exact ⟨_, exec_consume_close x idle phase ends, angle, ampl, reports.rvalid⟩

/-! ## Several CONSUMEs -/

/-- What CONSUMEs of the samples `xs` do to the demodulator. -/
def consumeAll (xs : List Sample) (s : State) : State := xs.foldl (fun s x => consumeSample x s) s

theorem consumeAll_cons (x : Sample) (xs : List Sample) (s : State) :
    consumeAll (x :: xs) s = consumeAll xs (consumeSample x s) := rfl

/-- `s` after its consumer has answered: what answers write (`respondC_eq_answered`). -/
def answered (out : List Response) (d : Nat) (s : State) : State := { s with cOut := out, draw := d }

theorem respondC_eq_answered {s : State} (idle : s.cseq = .idle) (r : Response) :
    respondC r s = answered (s.cOut ++ [r]) (s.draw + 1) s := respondC_of_idle idle r

theorem TrigOk.consumeSample {s : State} (trig : TrigOk s) (x : Sample) : TrigOk (consumeSample x s) := by
  simpa [TrigOk] using trig

section Answers

variable {s : State} (trig : TrigOk s) (phase : s.phase ≠ .idle) (out : List Response) (d : Nat)
include trig phase

/-- With a trig source built, no unspecified number is read, so that `draw` does not matter (R62). -/
theorem readTable_answered (strat : s.strat = .table) (i : Nat) :
    readTable (answered out d s) (i % s.len) = readTable s (i % s.len) := by
  have entry := trig.read_mod phase strat i
  rw [readTable_of_read entry, readTable_of_read (s := answered out d s) entry]

theorem cosine_answered (n : Nat) : cosine (answered out d s) n = cosine s n := by
  cases strat : s.strat with
  | direct => rw [cosine_direct strat, cosine_direct (s := answered out d s) strat]; rfl
  | table =>
    rw [cosine_table strat, cosine_table (s := answered out d s) strat]
    exact readTable_answered trig phase out d strat _

theorem sine_answered (n : Nat) : sine (answered out d s) n = sine s n := by
  cases strat : s.strat with
  | direct => rw [sine_direct strat, sine_direct (s := answered out d s) strat]; rfl
  | table =>
    rw [sine_table strat, sine_table (s := answered out d s) strat]
    exact readTable_answered trig phase out d strat _

theorem accumulate_answered (x : Sample) : accumulate x (answered out d s) = answered out d (accumulate x s) := by
  rw [accumulate, cosine_answered trig phase, sine_answered trig phase]
  rfl

theorem consumeSample_answered (x : Sample) :
    consumeSample x (answered out d s) = answered out d (consumeSample x s) := by
  by_cases ends : s.n + 1 = s.cfg.window
  · rw [consumeSample_close x ends, consumeSample_close (s := answered out d s) x ends, accumulate_answered trig phase]
    rfl
  · rw [consumeSample_open x ends, consumeSample_open (s := answered out d s) x ends, accumulate_answered trig phase]

theorem consumeAll_answered (xs : List Sample) :
    consumeAll xs (answered out d s) = answered out d (consumeAll xs s) := by
  induction xs generalizing s with
  | nil => rfl
  | cons x xs ih =>
    rw [consumeAll_cons, consumeAll_cons, consumeSample_answered trig phase]
    exact ih (trig.consumeSample x) (by simpa using phase)

end Answers

/-- `N` counts modulo `W` (R30, R181). -/
theorem consumeSample_n_mod (x : Sample) {s : State} (lt : s.n < s.cfg.window) :
    (consumeSample x s).n = (s.n + 1) % s.cfg.window := by
  by_cases ends : s.n + 1 = s.cfg.window
  · rw [consumeSample_close x ends, ends, Nat.mod_self]
    rfl
  · rw [consumeSample_open x ends, Nat.mod_eq_of_lt (by omega)]
    rfl

theorem consumeAll_n (xs : List Sample) {s : State} (lt : s.n < s.cfg.window) :
    (consumeAll xs s).n = (s.n + xs.length) % s.cfg.window := by
  induction xs generalizing s with
  | nil => exact (Nat.mod_eq_of_lt lt).symm
  | cons x xs ih =>
    have rest := ih (s := consumeSample x s) (by simpa using consumeSample_n_lt x lt)
    rw [consumeAll_cons, rest, consumeSample_n_mod x lt, consumeSample_cfg, Nat.mod_add_mod, List.length_cons,
      add_assoc, Nat.add_comm 1]

theorem windowCloses_eq_mod {s : State} (lt : s.n < s.cfg.window) :
    windowCloses s = decide ((s.n + 1) % s.cfg.window = 0) := by
  rw [windowCloses, decide_eq_decide]
  constructor
  · intro ends
    rw [ends, Nat.mod_self]
  · intro multiple
    exact Nat.le_antisymm lt (Nat.le_of_dvd s.n.succ_pos (Nat.dvd_of_mod_eq_zero multiple))

/-- The answers to `m` CONSUMEs that find the counter at `n` (R181). -/
def readies (w n m : ℕ) : List Response := (List.range m).map fun k => okFlag (decide ((n + k + 1) % w = 0))

theorem readies_succ (w n m : ℕ) :
    readies w n (m + 1) = okFlag (decide ((n + 1) % w = 0)) :: readies w ((n + 1) % w) m := by
  have later (k : ℕ) : ((n + 1) % w + k + 1) % w = (n + k.succ + 1) % w := by
    rw [add_assoc, Nat.mod_add_mod, Nat.succ_eq_add_one, ← add_assoc, ← add_assoc, add_right_comm n 1 k]
  simp only [readies, List.range_succ_eq_map, List.map_cons, List.map_map, Function.comp_def, later, add_zero]

/-- A run of CONSUMEs is `consumeAll`, but for the answers. -/
theorem commandRun_consumes (xs : List Sample) {s : State} (inv : Inv s) (idle : s.cseq = .idle)
    (phase : s.phase ≠ .idle) :
    ∃ d, commandRun .consumer 0 (xs.map Instr.consume) s =
      .next (answered (s.cOut ++ readies s.cfg.window s.n xs.length) d (consumeAll xs s)) := by
  induction xs generalizing s with
  | nil => exact ⟨s.draw, by rw [show readies _ _ [].length = [] from rfl, List.append_nil]; rfl⟩
  | cons x xs ih =>
    have lt := inv.counters.n
    have first : exec (.consume x) s = .next (respondC (okFlag (windowCloses s)) (consumeSample x s)) :=
      execConsume_ready x idle phase
    have phase' : (consumeSample x s).phase ≠ .idle := by simpa using phase
    obtain ⟨d, rest⟩ := ih (inv.consume x (okFlag (windowCloses s))) rfl phase'
    rw [respondC_cOut, respondC_cfg, respondC_n, consumeSample_cOut, consumeSample_cfg, consumeSample_n_mod x lt,
      List.append_assoc, List.singleton_append, windowCloses_eq_mod lt, ← readies_succ] at rest
    refine ⟨d, (commandRun_cons first (agentRun_zero _ _)).trans ?_⟩
    rw [windowCloses_eq_mod lt, rest, respondC_eq_answered (by simpa using idle),
      consumeAll_answered (inv.trig.consumeSample x) phase']
    rfl

/-- Settles O35: `N` counts modulo `W`, and the answer is ready when it comes round. -/
theorem readyEveryWindow : Obligations.ReadyEveryWindow := by
  intro s xs inv idle phase
  obtain ⟨d, run⟩ := commandRun_consumes xs inv idle phase
  exact ⟨_, run, consumeAll_n xs inv.counters.n, rfl⟩

end Sys2Proof.Machine
end

section
/-!
A whole window: its sums are correlations of the samples with the reference (O39), to which a constant adds nothing
(O40) and which measure a sinusoid (O41).
-/

namespace Sys2Proof.Machine

/-! ## The sums of a window -/

/-- The samples `xs` against a reference `r` from index `n` on: the sum of the products (R180). -/
noncomputable def correlation (r : ℕ → ℝ) (n : ℕ) (xs : List Sample) : ℝ :=
  ∑ k : Fin xs.length, ((xs.get k).toNat : ℝ) * r (n + k)

theorem correlation_singleton (r : ℕ → ℝ) (n : ℕ) (x : Sample) : correlation r n [x] = x.toNat * r n :=
  Fin.sum_univ_one _

theorem correlation_cons (r : ℕ → ℝ) (n : ℕ) (x : Sample) (xs : List Sample) :
    correlation r n (x :: xs) = x.toNat * r n + correlation r (n + 1) xs := by
  simp only [correlation, add_assoc, add_comm 1]
  exact Fin.sum_univ_succ _

/-- A window that starts with its reference has the plain sum of products. -/
theorem correlation_zero (r : ℕ → ℝ) (xs : List Sample) :
    correlation r 0 xs = ∑ k : Fin xs.length, ((xs.get k).toNat : ℝ) * r k := by
  simp only [correlation, zero_add]

/-- What COSINE returns, by index. -/
noncomputable def cosineRef (s : State) (k : ℕ) : ℝ := (cosine s k).toReal

/-- What SINE returns, by index. -/
noncomputable def sineRef (s : State) (k : ℕ) : ℝ := (sine s k).toReal

/-- Samples that end a window complete it with their correlations added to the sums (R180, R181). -/
theorem consumeAll_reports {xs : List Sample} {s : State} (some_left : xs ≠ [])
    (ends : s.n + xs.length = s.cfg.window) :
    Reports s.cfg.window (s.sumI.toReal + correlation (cosineRef s) s.n xs)
      (s.sumQ.toReal + correlation (sineRef s) s.n xs) (consumeAll xs s) := by
  induction xs generalizing s with
  | nil => exact absurd rfl some_left
  | cons x xs ih =>
    rw [consumeAll_cons]
    by_cases last : xs = []
    · subst last
      rw [correlation_singleton, correlation_singleton, consumeSample_close x ends]
      exact completeWindow_accumulate_reports x s
    · have inside : s.n + 1 + xs.length = s.cfg.window := by rw [← ends, List.length_cons, add_assoc, add_comm 1]
      have more : 0 < xs.length := List.length_pos_of_ne_nil last
      rw [correlation_cons, correlation_cons, ← add_assoc, ← add_assoc, consumeSample_open x (by omega)]
      exact ih (s := accumulate x s) last inside

theorem Reports.answered {w : ℕ} {i q : ℝ} {t : State} (h : Reports w i q t) (out : List Response) (d : Nat) :
    Reports w i q (answered out d t) := { h with }

/-- A run of `W` CONSUMEs from the start of a window. -/
theorem commandRun_window {s : State} {xs : List Sample} (inv : Inv s) (idle : s.cseq = .idle) (phase : s.phase ≠ .idle)
    (n : s.n = 0) (sumI : s.sumI.toReal = 0) (sumQ : s.sumQ.toReal = 0) (length : xs.length = s.cfg.window) :
    ∃ t, commandRun .consumer 0 (xs.map Instr.consume) s = .next t ∧
      Reports s.cfg.window (correlation (cosineRef s) 0 xs) (correlation (sineRef s) 0 xs) t := by
  obtain ⟨d, run⟩ := commandRun_consumes xs inv idle phase
  have some_left : xs ≠ [] := List.ne_nil_of_length_pos (by rw [length]; exact Nat.zero_lt_of_lt inv.counters.n)
  have reports := consumeAll_reports some_left (by rw [n, zero_add, length])
  rw [sumI, sumQ, zero_add, zero_add, n] at reports
  exact ⟨_, run, reports.answered _ d⟩

/-- Settles O39: the references of the direct strategy are those of the Fourier bin at `F0` (`directAngle_toReal`). -/
theorem windowIsFourierBin : Obligations.WindowIsFourierBin := by
  intro s xs inv idle phase strat n sumI sumQ length
  obtain ⟨t, run, reports⟩ := commandRun_window inv idle phase n sumI sumQ length
  simp only [correlation_zero, cosineRef, sineRef, cosine_direct strat, sine_direct strat, toReal_cos, toReal_sin,
    directAngle_toReal] at reports
  obtain ⟨rvalid, n', sumI', sumQ', angle, ampl⟩ := reports
  exact ⟨t, run, rvalid, n', sumI', sumQ', angle, ampl⟩

/-! ## Whole cycles (R185) -/

/-- The cosine of a reference that makes `f` turns in `w` samples (R185). -/
noncomputable def cosTurns (f w k : ℕ) : ℝ := Real.cos (turnAngle f w k)

/-- The sine of that reference. -/
noncomputable def sinTurns (f w k : ℕ) : ℝ := Real.sin (turnAngle f w k)

/-- The references of either strategy, when they make `f` whole turns in a window. -/
theorem wholeCycles_references {s : State} {f : ℕ} (trig : TrigOk s) (phase : s.phase ≠ .idle)
    (window : 0 < s.cfg.window) (whole : wholeCycles s f) :
    cosineRef s = cosTurns f s.cfg.window ∧ sineRef s = sinTurns f s.cfg.window := by
  rw [funext_iff, funext_iff, ← forall_and]
  intro k
  unfold wholeCycles at whole
  rw [cosineRef, sineRef, cosTurns, sinTurns]
  cases strat : s.strat with
  | direct =>
    rw [strat] at whole
    have f0 : s.f0.toReal = f := whole
    rw [cosine_direct strat, sine_direct strat, toReal_cos, toReal_sin, directAngle_toReal, f0]
    exact ⟨rfl, rfl⟩
  | table =>
    rw [strat] at whole
    obtain ⟨turns, quarters⟩ : s.len * f = s.cfg.window ∧ s.len % 4 = 0 := whole
    have some_turns : (f : ℝ) ≠ 0 := Nat.cast_ne_zero.mpr (Nat.pos_of_mul_pos_left (turns ▸ window)).ne'
    have angle : 2 * Real.pi * k / s.len = turnAngle f s.cfg.window k := by
      rw [turnAngle, ← turns, Nat.cast_mul, mul_right_comm (2 * Real.pi), mul_div_mul_right _ _ some_turns]
    rw [cosine_table_toReal trig phase strat, sine_table_toReal trig phase strat, quarters, angle, Nat.cast_zero,
      mul_zero, zero_div, sub_zero]
    exact ⟨rfl, rfl⟩

/-- A run of `W` CONSUMEs from the start of a window of whole cycles. -/
theorem commandRun_wholeCycles {s : State} {xs : List Sample} {f : ℕ} (inv : Inv s) (idle : s.cseq = .idle)
    (phase : s.phase ≠ .idle) (whole : wholeCycles s f) (n : s.n = 0) (sumI : s.sumI.toReal = 0)
    (sumQ : s.sumQ.toReal = 0) (length : xs.length = s.cfg.window) :
    ∃ t, commandRun .consumer 0 (xs.map Instr.consume) s = .next t ∧
      Reports s.cfg.window (correlation (cosTurns f s.cfg.window) 0 xs) (correlation (sinTurns f s.cfg.window) 0 xs)
        t := by
  obtain ⟨cos, sin⟩ := wholeCycles_references inv.trig phase (Nat.zero_lt_of_lt inv.counters.n) whole
  rw [← cos, ← sin]
  exact commandRun_window inv idle phase n sumI sumQ length

/-- Equal samples correlate with a reference as its sum does. -/
theorem correlation_const {w : ℕ} {d : Sample} {xs : List Sample} (length : xs.length = w) (equal : ∀ x ∈ xs, x = d)
    {r : ℕ → ℝ} (sum : ∑ k : Fin w, r k = 0) : correlation r 0 xs = 0 := by
  subst length
  rw [correlation_zero, Finset.sum_congr rfl fun k _ => by rw [equal _ (xs.get_mem k)], ← Finset.mul_sum, sum, mul_zero]

/-- Settles O40: the references sum to 0 (`sum_cos_turnAngle`), so both sums are 0 (`Reports.of_zero`). -/
theorem constantInputRejected : Obligations.ConstantInputRejected := by
  intro s d f inv idle phase whole n sumI sumQ part
  have length : (List.replicate s.cfg.window d).length = s.cfg.window := List.length_replicate
  have equal : ∀ x ∈ List.replicate s.cfg.window d, x = d := fun x => List.eq_of_mem_replicate
  obtain ⟨t, run, reports⟩ := commandRun_wholeCycles inv idle phase whole n sumI sumQ length
  rw [List.map_replicate] at run
  have i : correlation (cosTurns f s.cfg.window) 0 (List.replicate s.cfg.window d) = 0 :=
    correlation_const length equal (sum_cos_turnAngle part)
  have q : correlation (sinTurns f s.cfg.window) 0 (List.replicate s.cfg.window d) = 0 :=
    correlation_const length equal (sum_sin_turnAngle part)
  rw [i, q] at reports
  exact ⟨t, run, reports.rvalid, reports.of_zero⟩

/-- Samples of a sinusoid have the sums of R185. -/
theorem correlation_sinusoid {f w : ℕ} {xs : List Sample} {d a φ : ℝ} (length : xs.length = w) (part : ¬ w ∣ 2 * f)
    (samples : ∀ k : Fin xs.length, ((xs.get k).toNat : ℝ) = d + a * Real.sin (turnAngle f w k + φ)) :
    correlation (cosTurns f w) 0 xs = a / 2 * w * Real.sin φ ∧
      correlation (sinTurns f w) 0 xs = a / 2 * w * Real.cos φ := by
  subst length
  simp only [correlation_zero, samples]
  exact ⟨sum_sinusoid_mul_cos part d a φ, sum_sinusoid_mul_sin part d a φ⟩

theorem hypotReal_ray {r : ℝ} (nonneg : 0 ≤ r) (t : ℝ) : hypotReal (r * Real.sin t) (r * Real.cos t) = r := by
  rw [hypotReal, mul_pow, mul_pow, ← mul_add, Real.sin_sq_add_cos_sq, mul_one, Real.sqrt_sq nonneg]

/-- Settles O41: the sums of `correlation_sinusoid` are the point of the ray of `φ` at the distance `a·W/2`. -/
theorem sinusoidMeasured : Obligations.SinusoidMeasured := by
  intro s xs f d a φ inv idle phase whole n sumI sumQ part pos low high length samples
  obtain ⟨t, run, reports⟩ := commandRun_wholeCycles inv idle phase whole n sumI sumQ length
  obtain ⟨i, q⟩ := correlation_sinusoid length part samples
  rw [i, q] at reports
  have window : (0 : ℝ) < s.cfg.window := Nat.cast_pos.mpr (Nat.zero_lt_of_lt inv.counters.n)
  have radius : 0 < a / 2 * s.cfg.window := mul_pos (half_pos pos) window
  refine ⟨t, run, reports.rvalid, ?_, ?_⟩
  · rw [reports.angle, atan2Real_ray radius low high rfl rfl]
  · rw [reports.ampl, hypotReal_ray radius.le, mul_div_cancel_right₀ _ window.ne']

end Sys2Proof.Machine
end

section
/-!
The accuracy required of a number system, met by the exact reals (O42): the sums of V1's samples are those of a sinusoid
but for the rounding of the samples, and the strategies have the same sums.
-/

namespace Sys2Proof.Machine

/-! ## The sums of the synthetic samples -/

theorem initParams_fifty (strat : Strategy) :
    initParams Config.reference strat 0x42480000#32 =
      some (fiftyHz, match strat with | .table => 100 | .direct => 0) := by
  cases strat <;> decide

theorem sessionAt50_inv (strat : Strategy) : Inv (sessionAt50 strat) :=
  (resetOf_inv (c := Config.reference) (by decide)).configure rfl rfl (initParams_fifty strat) (by decide)

theorem sessionAt50_wholeCycles (strat : Strategy) : wholeCycles (sessionAt50 strat) 50 := by
  cases strat with
  | table => exact ⟨rfl, rfl⟩
  | direct =>
    show fiftyHz.toNum.toReal = (50 : ℕ)
    simp only [fiftyHz, Ratio.toNum, toReal_div, toReal_ofNat]
    norm_num

/-- The samples of V1 and V2. -/
noncomputable def syntheticSamples (amp deg : ℝ) : List Sample := (List.range 5000).map (syntheticSample amp deg)

theorem syntheticSamples_length (amp deg : ℝ) : (syntheticSamples amp deg).length = 5000 := by
  rw [syntheticSamples, List.length_map, List.length_range]

/-- Both strategies report the window of the same two sums (R145). -/
theorem afterWindow_reports (strat : Strategy) (amp deg : ℝ) :
    Reports 5000 (correlation (cosTurns 50 5000) 0 (syntheticSamples amp deg))
      (correlation (sinTurns 50 5000) 0 (syntheticSamples amp deg)) (afterWindow strat amp deg) := by
  have inv := sessionAt50_inv strat
  have length := syntheticSamples_length amp deg
  have some_left : syntheticSamples amp deg ≠ [] := List.ne_nil_of_length_pos (by rw [length]; exact Nat.zero_lt_succ _)
  have window : (sessionAt50 strat).cfg.window = 5000 := congrArg Config.window (configure_cfg _ _ _ _ _)
  have sumI : (sessionAt50 strat).sumI.toReal = 0 := toReal_zero
  have sumQ : (sessionAt50 strat).sumQ.toReal = 0 := toReal_zero
  have n : (sessionAt50 strat).n = 0 := rfl
  obtain ⟨cos, sin⟩ := wholeCycles_references inv.trig nofun (Nat.zero_lt_of_lt inv.counters.n)
    (sessionAt50_wholeCycles strat)
  have reports := consumeAll_reports some_left (s := sessionAt50 strat) (by rw [n, zero_add, length, window])
  rw [sumI, sumQ, zero_add, zero_add, n, cos, sin, window] at reports
  exact reports

/-! ## The rounding of the samples -/

/-- V1's input before the rounding: the sinusoid of R185 with phase 0. -/
noncomputable def inputOfV1 (n : ℕ) : ℝ := 2048 + 1000 * Real.sin (turnAngle 50 5000 n + 0)

theorem abs_syntheticSample_sub_le (n : ℕ) :
    |((syntheticSample 1000 0 n).toNat : ℝ) - inputOfV1 n| ≤ 1 / 2 := by
  have angle : 2 * Real.pi * 50 * n / 5000 + 0 * Real.pi / 180 = turnAngle 50 5000 n + 0 := by
    rw [turnAngle]
    push_cast
    ring
  have low := Real.neg_one_le_sin (turnAngle 50 5000 n + 0)
  have high := Real.sin_le_one (turnAngle 50 5000 n + 0)
  rw [syntheticSample, inputOfV1, angle]
  generalize turnAngle 50 5000 n + 0 = θ at *
  have nonneg : 0 ≤ roundHalfEven (2048 + 1000 * Real.sin θ) := le_roundHalfEven (by push_cast; linarith)
  have small : roundHalfEven (2048 + 1000 * Real.sin θ) ≤ 4095 := roundHalfEven_le (by push_cast; linarith)
  have value := abs_roundHalfEven_sub_le (2048 + 1000 * Real.sin θ)
  rw [BitVec.toNat_ofNat, Nat.mod_eq_of_lt (by omega)]
  rwa [← Int.toNat_of_nonneg nonneg, Int.cast_natCast] at value

/-- Samples half a unit off at most have a sum half their number off at most. -/
theorem abs_correlation_sub_le {w : ℕ} {xs : List Sample} (length : xs.length = w) (y : ℕ → ℝ) {r : ℕ → ℝ}
    (near : ∀ k : Fin xs.length, |((xs.get k).toNat : ℝ) - y k| ≤ 1 / 2) (bound : ∀ k, |r k| ≤ 1) :
    |correlation r 0 xs - ∑ k : Fin w, y k * r k| ≤ w / 2 := by
  subst length
  rw [correlation_zero, ← Finset.sum_sub_distrib]
  have term (k : Fin xs.length) : |((xs.get k).toNat : ℝ) * r k - y k * r k| ≤ 1 / 2 := by
    rw [← sub_mul, abs_mul, ← mul_one (1 / 2 : ℝ)]
    exact mul_le_mul (near k) (bound k) (abs_nonneg _) (by norm_num)
  calc |∑ k : Fin xs.length, (((xs.get k).toNat : ℝ) * r k - y k * r k)|
      ≤ ∑ k : Fin xs.length, |((xs.get k).toNat : ℝ) * r k - y k * r k| := Finset.abs_sum_le_sum_abs _ _
    _ ≤ ∑ _k : Fin xs.length, (1 / 2 : ℝ) := Finset.sum_le_sum fun k _ => term k
    _ = (xs.length : ℝ) / 2 := by rw [Fin.sum_const, nsmul_eq_mul, mul_one_div]

/-- The sums of V1, up to the rounding of its 5000 samples. -/
theorem abs_syntheticSums_sub_le :
    |correlation (cosTurns 50 5000) 0 (syntheticSamples 1000 0)| ≤ 2500 ∧
      |correlation (sinTurns 50 5000) 0 (syntheticSamples 1000 0) - 2500000| ≤ 2500 := by
  have part : ¬ 5000 ∣ 2 * 50 := by decide
  have near (k : Fin (syntheticSamples 1000 0).length) :
      |(((syntheticSamples 1000 0).get k).toNat : ℝ) - inputOfV1 k| ≤ 1 / 2 := by
    have sample : (syntheticSamples 1000 0).get k = syntheticSample 1000 0 k := by
      rw [List.get_eq_getElem]
      simp [syntheticSamples]
    rw [sample]
    exact abs_syntheticSample_sub_le k
  have length := syntheticSamples_length 1000 0
  have i := abs_correlation_sub_le length inputOfV1 near fun k => Real.abs_cos_le_one (turnAngle 50 5000 k)
  have q := abs_correlation_sub_le length inputOfV1 near fun k => Real.abs_sin_le_one (turnAngle 50 5000 k)
  simp only [inputOfV1] at i q
  rw [sum_sinusoid_mul_cos part, Real.sin_zero, mul_zero, sub_zero] at i
  rw [sum_sinusoid_mul_sin part, Real.cos_zero] at q
  norm_num at i q
  exact ⟨i, q⟩

/-! ## The angle and the amplitude of sums near the abscissa -/

/-- A point right of the ordinate axis is at most `90·|y| / hypot` degrees off the abscissa: on a quarter turn the chord
is below the sine. -/
theorem abs_atan2Real_degrees_le {y x : ℝ} (right : 0 < x) :
    |atan2Real y x * 180 / Real.pi| ≤ 90 * (|y| / hypotReal y x) := by
  have quarter : |atan2Real y x| ≤ Real.pi / 2 := Complex.abs_arg_le_pi_div_two_iff.mpr right.le
  have chord := Real.mul_abs_le_abs_sin quarter
  have sin : Real.sin (atan2Real y x) = y / hypotReal y x := by
    rw [atan2Real, Complex.sin_arg, norm_mk_eq_hypotReal]
  rw [sin, abs_div, abs_of_pos (hypotReal_pos (.inr right.ne'))] at chord
  calc |atan2Real y x * 180 / Real.pi|
      = 90 * (2 / Real.pi * |atan2Real y x|) := by
        rw [abs_div, abs_mul, abs_of_pos Real.pi_pos, abs_of_pos (by norm_num : (0 : ℝ) < 180)]
        ring
    _ ≤ 90 * (|y| / hypotReal y x) := mul_le_mul_of_nonneg_left chord (by norm_num)

/-- Sums that are those of V1 but for 2500 give an amplitude and an angle within the bands of V3. -/
theorem bands_of_sums {i q : ℝ} (hi : |i| ≤ 2500) (hq : |q - 2500000| ≤ 2500) :
    |hypotReal i q / 5000 - 500| ≤ 5 ∧ |atan2Real i q * 180 / Real.pi| ≤ 2 := by
  obtain ⟨i_low, i_high⟩ := abs_le.mp hi
  obtain ⟨q_low, q_high⟩ := abs_le.mp hq
  have low : 2497500 ≤ hypotReal i q := Real.le_sqrt_of_sq_le (by nlinarith)
  have high : hypotReal i q ≤ 2525000 := Real.sqrt_le_iff.mpr ⟨by norm_num, by nlinarith⟩
  constructor
  · rw [abs_le]
    constructor <;> linarith
  · have ratio : |i| / hypotReal i q ≤ 2500 / 2497500 := div_le_div₀ (by norm_num) hi (by norm_num) low
    linarith [abs_atan2Real_degrees_le (y := i) (x := q) (by linarith)]

/-- The value of an expression in the reference number system, as `MeetsTolerances` writes it (R5). -/
theorem id_eval_real (x : NumExpr) : id (x.eval NumSys.real Config.freeReal) = x.toReal := rfl

/-- Settles O42: V1 is `bands_of_sums`; the strategies report one and the same result, so their differences are 0. -/
theorem tolerancesMet : Obligations.TolerancesMet := by
  intro band nonneg
  obtain ⟨i, q⟩ := abs_syntheticSums_sub_le
  obtain ⟨ampl, angle⟩ := bands_of_sums i q
  have sameAmpl (amp deg : ℝ) :
      (afterWindow .table amp deg).ampl.toReal = (afterWindow .direct amp deg).ampl.toReal := by
    rw [(afterWindow_reports .table amp deg).ampl, (afterWindow_reports .direct amp deg).ampl]
  have sameAngle (amp deg : ℝ) :
      (afterWindow .table amp deg).angle.toReal = (afterWindow .direct amp deg).angle.toReal := by
    rw [(afterWindow_reports .table amp deg).angle, (afterWindow_reports .direct amp deg).angle]
  have relative (v : ℝ) : 0 ≤ 1 / 1000 * |v| := mul_nonneg (by norm_num) (abs_nonneg v)
  refine ⟨fun strat => ?_, fun strat => ?_, fun (amp, deg) _ => ?_, fun (amp, deg) _ => ⟨0, ?_⟩⟩
  · rw [id_eval_real, (afterWindow_reports strat 1000 0).ampl]
    exact ampl
  · rw [id_eval_real, (afterWindow_reports strat 1000 0).angle]
    exact angle
  · rw [id_eval_real, id_eval_real, sameAmpl, sub_self, abs_zero]
    exact relative _
  · rw [id_eval_real, id_eval_real, sameAngle, sub_self, Int.cast_zero, mul_zero, sub_zero, abs_zero]
    split
    · exact nonneg
    · exact relative _

end Sys2Proof.Machine
end

section
/-!
INIT (R200): when its operand checks fail, in terms of real numbers (O43), and what it then does and does not (O44, O45).
-/

namespace Sys2Proof.Machine

/-! ## The checks -/

/-- The sign test of `Ratio` is that of the number (R97). -/
theorem Ratio.positive_iff {q : Ratio} (den : 0 < q.den) : q.positive = true ↔ 0 < q.toReal := by
  have den' : (0 : ℝ) < q.den := Nat.cast_pos.mpr den
  cases sign : q.neg with
  | false => simp [Ratio.positive, Ratio.toReal, sign, div_pos_iff_of_pos_right den']
  | true =>
    have nonpos : ¬ 0 < -(q.num : ℝ) / q.den :=
      not_lt.mpr (div_nonpos_of_nonpos_of_nonneg (neg_nonpos.mpr q.num.cast_nonneg) den'.le)
    simpa [Ratio.positive, Ratio.toReal, sign] using nonpos

/-- `tableLength` is R13 (f)'s floor of the real quotient. -/
theorem tableLength_eq_floor (c : Config) {q : Ratio} (positive : q.positive = true) :
    (tableLength c q : ℤ) = ⌊(c.fs : ℝ) / q.toReal⌋ := by
  have value : q.toReal = (q.num : ℝ) / q.den := (Ratio.toNum_toReal positive).symm
  have quotient : (c.fs : ℝ) / q.toReal = ((c.fs * q.den : ℕ) : ℝ) / (q.num : ℕ) := by
    rw [value, div_div_eq_mul_div, Nat.cast_mul]
  rw [quotient, ← Int.natCast_floor_eq_floor (by positivity), Nat.floor_div_eq_div, tableLength]

/-- An `L` outside `LMIN .. LMAX`, as R200 says it. -/
theorem tableLength_outside_iff (c : Config) {q : Ratio} (positive : q.positive = true) :
    ¬ (Config.lmin ≤ tableLength c q ∧ tableLength c q ≤ c.lmax) ↔
      ⌊(c.fs : ℝ) / q.toReal⌋ < 4 ∨ (c.lmax : ℤ) < ⌊(c.fs : ℝ) / q.toReal⌋ := by
  rw [← tableLength_eq_floor c positive, Config.lmin]
  omega

theorem initParams_none_iff (c : Config) (strat : Strategy) (f0bits : Word) :
    initParams c strat f0bits = none ↔
      ∀ q, decNum f0bits = some q →
        q.toReal ≤ 0 ∨ strat = .table ∧
          (⌊(c.fs : ℝ) / q.toReal⌋ < 4 ∨ (c.lmax : ℤ) < ⌊(c.fs : ℝ) / q.toReal⌋) := by
  rw [initParams, checkFrequency_none]
  refine forall₂_congr fun q dec => ?_
  have sign := Ratio.positive_iff (decNum_den dec)
  by_cases positive : q.positive = true
  · have pos := sign.mp positive
    simp [positive, pos.not_ge, ← tableLength_outside_iff c positive]
  · have nonpos := not_lt.mp (sign.not.mp positive)
    simp [positive, nonpos]

/-- Settles O43: `initParams_none_iff` in each strategy, and what the checks grant (`checkFrequency_some`). -/
theorem initChecks : Obligations.InitChecks := by
  refine fun c f0bits => ⟨?_, ?_, fun strat q l passed => ?_⟩
  · simpa using initParams_none_iff c .direct f0bits
  · simpa using initParams_none_iff c .table f0bits
  · obtain ⟨dec, positive, table, direct⟩ := checkFrequency_some passed
    refine ⟨dec, (Ratio.positive_iff (decNum_den dec)).mp positive, Ratio.toNum_toReal positive, ?_⟩
    cases strat with
    | table =>
      obtain ⟨length, -⟩ := table rfl
      rw [length, tableLength_eq_floor c positive]
    | direct => rw [direct rfl, Nat.cast_zero]

/-! ## The command -/

/-- A successful INIT writes the session's registers and nothing else (R200). -/
theorem configure_frame (pin : PinId) (strat : Strategy) (q : Ratio) (l : Nat) (s : State) :
    configure pin strat q l s = { s with
      pin := pin, f0 := q.toNum, strat := strat, len := (configure pin strat q l s).len
      table := (configure pin strat q l s).table, wr := 0, rd := 0
      sumI := NumExpr.zero, sumQ := NumExpr.zero, n := 0, rvalid := false, dropcnt := 0, phase := .configured
      signals := (configure pin strat q l s).signals } := by
  by_cases running : s.phase = .running
  · cases strat <;> simp only [configure, disarm_running running] <;> rfl
  · cases strat <;> simp only [configure, disarm_stopped running] <;> rfl

/-- Settles O44: `configure_frame` with the signals and the table of the laws of `configure`. -/
theorem initEffect : Obligations.InitEffect := by
  intro s pin strat f0bits q l idle producer built passed
  obtain ⟨-, -, -, direct⟩ := checkFrequency_some passed
  refine ⟨_, execInit_ok pin strat f0bits idle producer built passed, ?_, fun h => ?_, fun h => ?_⟩
  · have len : (configure pin strat q l s).len = l := by
      cases strat with
      | table => rfl
      | direct => exact (direct rfl).symm
    rw [respondC_of_idle (by simpa using idle), configure_frame, configure_signals, len]
  · subst h
    simp
  · subst h
    intro k
    simp only [respondC_table, configure_table, Memory.read_fill]
    exact ⟨fun inside => ⟨_, if_pos inside, tableEntry_toReal l k⟩, fun beyond => if_neg (by omega)⟩

theorem unbuiltStatus_cases (c : Config) (strat : Strategy) :
    unbuiltStatus c strat = .configError ∨ unbuiltStatus c strat = .illegalCommand := by
  unfold unbuiltStatus
  split
  · exact .inr rfl
  · exact .inl rfl

/-- An idle consumer that raises an error writes its port and `draw` only (R237). -/
theorem raise_of_idle {s : State} (idle : s.cseq = .idle) (e : Status) :
    raise .consumer e s = { s with cOut := s.cOut ++ [errorResponse e], draw := s.draw + 1 } := respondC_of_idle idle _

/-- Settles O45: either way INIT raises an error. -/
theorem initFails : Obligations.InitFails := by
  refine fun s pin strat f0bits idle producer => ⟨fun failed => ?_, fun passed unbuilt => ?_⟩
  · rw [exec, execInit_fails pin strat f0bits idle producer failed, raise_of_idle idle]
    rfl
  · obtain ⟨⟨q, l⟩, passed⟩ := Option.isSome_iff_exists.mp passed
    refine ⟨unbuiltStatus s.cfg strat, unbuiltStatus_cases s.cfg strat, ?_⟩
    rw [exec, execInit_notBuilt pin strat f0bits idle producer unbuilt passed, raise_of_idle idle]
    rfl

end Sys2Proof.Machine
end

section
/-!
LOOP (R201): its micro-steps (O47), and that with the producer not moving it is CONSUMEs of the buffered samples (O48).
-/

namespace Sys2Proof.Machine

/-! ## What a CONSUME neither reads nor writes -/

/-- A CONSUME writes the demodulator only (R180, R181). -/
theorem consumeSample_frame (x : Sample) (s : State) :
    consumeSample x s = { s with
      sumI := (consumeSample x s).sumI, sumQ := (consumeSample x s).sumQ, n := (consumeSample x s).n
      angle := (consumeSample x s).angle, ampl := (consumeSample x s).ampl, rvalid := (consumeSample x s).rvalid } := by
  by_cases ends : s.n + 1 = s.cfg.window
  · rw [consumeSample_close x ends]; rfl
  · rw [consumeSample_open x ends]; rfl

/-- The demodulator of `v` in the block of `s`. -/
def withDemodulator (v s : State) : State :=
  { s with sumI := v.sumI, sumQ := v.sumQ, n := v.n, angle := v.angle, ampl := v.ampl, rvalid := v.rvalid }

theorem consumeAll_frame (xs : List Sample) (s : State) : consumeAll xs s = withDemodulator (consumeAll xs s) s := by
  induction xs generalizing s with
  | nil => rfl
  | cons x xs ih => rw [consumeAll_cons, ih, consumeSample_frame]; rfl

/-- `s` with the consumer's side of `c`: its sequencer and latches, `RD`, its answers, and `draw`. -/
def withConsumer (c s : State) : State :=
  { s with
    rd := c.rd, cseq := c.cseq, cW := c.cW, cR := c.cR, cV := c.cV, cGot := c.cGot, cLoop := c.cLoop, cOut := c.cOut
    draw := c.draw }

theorem consumeSample_withConsumer (c : State) {s : State} (trig : TrigOk s) (phase : s.phase ≠ .idle) (x : Sample) :
    consumeSample x (withConsumer c s) = withConsumer c (consumeSample x s) := by
  have unread : consumeSample x (withConsumer c s) = withConsumer c (consumeSample x (answered c.cOut c.draw s)) := by
    by_cases ends : s.n + 1 = s.cfg.window
    · rw [consumeSample_close (s := withConsumer c s) x ends,
        consumeSample_close (s := answered c.cOut c.draw s) x ends]
      rfl
    · rw [consumeSample_open (s := withConsumer c s) x ends, consumeSample_open (s := answered c.cOut c.draw s) x ends]
      rfl
  rw [unread, consumeSample_answered trig phase]
  rfl

theorem consumeAll_withConsumer (c : State) (xs : List Sample) {s : State} (trig : TrigOk s) (phase : s.phase ≠ .idle) :
    consumeAll xs (withConsumer c s) = withConsumer c (consumeAll xs s) := by
  induction xs generalizing s with
  | nil => rfl
  | cons x xs ih =>
    rw [consumeAll_cons, consumeAll_cons, consumeSample_withConsumer c trig phase]
    exact ih (trig.consumeSample x) (by simpa using phase)

/-! ## The micro-steps -/

/-- `s` after a LOOP has been accepted (R201). -/
def loopEntered (s : State) : State := gotoC .load { s with cGot := false, cLoop := true }

theorem exec_loop {s : State} (idle : s.cseq = .idle) (phase : s.phase ≠ .idle) :
    exec .loop s = .next (loopEntered s) := by
  rw [exec, execLoop_ready idle, lEnter_ready phase, loopEntered]

/-- Settles O47: the equations of `lEnter`, `lConsume` and `lDone`. -/
theorem loopMicroSteps : Obligations.LoopMicroSteps := by
  refine fun s => ⟨fun idle phase => ?_, fun idle phase => ?_, fun seq phase => ?_, fun seq => ?_⟩
  · rw [exec, execLoop_ready idle, lEnter_idle phase, raise_consumer, respondC_of_idle idle]
  · exact exec_loop idle phase
  · refine ⟨_, _, agentStep_consume seq, execConsume_ready (s := { s with cseq := .idle }) s.cV rfl phase, ?_⟩
    rw [lConsume_ready phase, windowCloses]
    by_cases ends : s.n + 1 = s.cfg.window
    · rw [consumeSample_close s.cV ends, consumeSample_close (s := { s with cseq := .idle }) s.cV ends]
      rfl
    · rw [consumeSample_open s.cV ends, consumeSample_open (s := { s with cseq := .idle }) s.cV ends]
      rfl
  · rw [agentStep_done seq]
    rfl

/-! ## The run -/

/-- Turns of one agent keep the invariant. -/
theorem agentRun_inv {a : Agent} (k : Nat) {s t : State} (inv : Inv s) (run : agentRun a k s = .next t) : Inv t := by
  induction k generalizing s with
  | zero => cases run; exact inv
  | succ k ih =>
    rw [agentRun] at run
    split at run
    · next u step =>
      refine ih ?_ run
      cases a with
      | producer => exact (agentStep_producer step).inv inv
      | consumer => exact (agentStep_consumer step).inv inv
    · cases run
    · cases run

/-- The answers of `readies`, as booleans. -/
def readyFlags (w n m : ℕ) : List Bool := (List.range m).map fun k => decide ((n + k + 1) % w = 0)

theorem map_okFlag_readyFlags (w n m : ℕ) : (readyFlags w n m).map okFlag = readies w n m := List.map_map

theorem okFlag_injective : Function.Injective okFlag := fun _ _ same => congrArg Response.flag same

theorem readyFlags_succ (w n m : ℕ) :
    readyFlags w n (m + 1) = decide ((n + 1) % w = 0) :: readyFlags w ((n + 1) % w) m := by
  apply List.map_injective_iff.mpr okFlag_injective
  rw [map_okFlag_readyFlags, readies_succ, List.map_cons, map_okFlag_readyFlags]

section Run

variable {t : State}

/-- The consumer of a LOOP that has taken `x` out of the ring and is about to CONSUME it. -/
def taken (x : Sample) (t : State) : State :=
  { t with rd := nextIndex t.cfg t.rd, cseq := .consume, cW := t.wr, cR := t.rd, cV := x, draw := t.draw + 3 }

/-- That consumer after the CONSUME. -/
def iterated (x : Sample) (t : State) : State :=
  { taken x t with cseq := .load, cGot := t.cGot || windowCloses t, draw := t.draw + 4 }

theorem Inv.loop_of_load (inv : Inv t) (seq : t.cseq = .load) : t.cLoop = true ∧ t.phase ≠ .idle :=
  have loop := inv.sequencers.inLoop (.inl seq)
  ⟨loop, inv.sequencers.loopPhase (by simp [seq]) loop⟩

/-- The four micro-steps of an iteration take the oldest sample and CONSUME it. -/
theorem agentRun_iteration (inv : Inv t) (seq : t.cseq = .load) {x : Sample} {younger : List (Option Sample)}
    (oldest : live t = some x :: younger) :
    agentRun .consumer 4 t = .next (withConsumer (iterated x t) (consumeSample x t)) ∧
      live (withConsumer (iterated x t) (consumeSample x t)) = younger := by
  obtain ⟨loop, phase⟩ := inv.loop_of_load seq
  have count : 0 < liveCount t := by rw [← live_length, oldest]; exact Nat.succ_pos _
  have some_live : t.wr ≠ t.rd := (occupancy_eq_zero inv.counters.wr inv.counters.rd).not.mp (Nat.ne_of_gt count)
  obtain ⟨held, rest⟩ := List.cons.inj ((live_free inv.counters.wr inv.counters.rd count).symm.trans oldest)
  have oldest_read : readSlot (cLoad t) t.rd = x := readSlot_of_read held
  have take : agentRun .consumer 3 t = .next (taken x t) := by
    rw [agentRun_next (agentStep_load seq), agentRun_next (agentStep_read rfl), cRead_take (s := cLoad t) some_live,
      agentRun_next (agentStep_free rfl), cPublish_loop (by exact loop), agentRun_zero, ← oldest_read]
    rfl
  have consume : lConsume (taken x t) = withConsumer (iterated x t) (consumeSample x t) := by
    rw [lConsume_ready (s := taken x t) phase]
    show gotoC .load { consumeSample x (withConsumer (taken x t) t) with cGot := _ } = _
    rw [consumeSample_withConsumer _ inv.trig phase]
    rfl
  have released : live (withConsumer (iterated x t) (consumeSample x t)) =
      live { t with rd := nextIndex t.cfg t.rd } :=
    live_congr (consumeSample_cfg x t) (consumeSample_buf x t) (consumeSample_wr x t) rfl
  refine ⟨(agentRun_add take 1).trans ?_, released.trans rest⟩
  rw [agentRun_next (agentStep_consume rfl), consume, agentRun_zero]

/-- `c` is the consumer after a LOOP from `t`, whose ring held `xs`. -/
structure LoopEnded (xs : List Sample) (t c : State) : Prop where
  rd : c.rd = t.wr
  cseq : c.cseq = .idle
  cGot : c.cGot = (t.cGot || (readyFlags t.cfg.window t.n xs.length).any id)
  cLoop : c.cLoop = false
  cOut : c.cOut = t.cOut ++ [loopResponse { consumeAll xs t with cGot := c.cGot }]

/-- On an empty ring LOOP ends with its third micro-step. -/
theorem agentRun_drained (inv : Inv t) (seq : t.cseq = .load) (empty : t.wr = t.rd) :
    ∃ c, agentRun .consumer 3 t = .next (withConsumer c t) ∧ LoopEnded [] t c := by
  obtain ⟨loop, -⟩ := inv.loop_of_load seq
  refine ⟨lDone (gotoC .done (cLoad t)), ?_, empty.symm, rfl, (Bool.or_false _).symm, rfl, rfl⟩
  rw [agentRun_next (agentStep_load seq), agentRun_next (agentStep_read rfl), cRead_drained (s := cLoad t) empty loop,
    agentRun_next (agentStep_done rfl), agentRun_zero]
  rfl

/-- R201 by the number of buffered samples: an iteration for each, and then the answer. -/
theorem agentRun_loop (xs : List Sample) (inv : Inv t) (seq : t.cseq = .load) (samples : live t = xs.map some) :
    ∃ c, agentRun .consumer (4 * xs.length + 3) t = .next (withConsumer c (consumeAll xs t)) ∧ LoopEnded xs t c := by
  induction xs generalizing t with
  | nil =>
    have none_live : liveCount t = 0 := by rw [← live_length, samples]; rfl
    exact agentRun_drained inv seq ((occupancy_eq_zero inv.counters.wr inv.counters.rd).mp none_live)
  | cons x xs ih =>
    obtain ⟨first, younger⟩ := agentRun_iteration inv seq samples
    obtain ⟨c, rest, ended⟩ := ih (agentRun_inv 4 inv first) rfl younger
    obtain ⟨-, phase⟩ := inv.loop_of_load seq
    have all : consumeAll xs (withConsumer (iterated x t) (consumeSample x t)) =
        withConsumer (iterated x t) (consumeAll (x :: xs) t) :=
      consumeAll_withConsumer _ xs (inv.trig.consumeSample x) (by simpa using phase)
    refine ⟨c, ?_, ?_, ended.cseq, ?_, ended.cLoop, ?_⟩
    · rw [List.length_cons, show 4 * (xs.length + 1) + 3 = 4 + (4 * xs.length + 3) by omega, agentRun_add first, rest, all]
      rfl
    · exact ended.rd.trans (consumeSample_wr x t)
    · have got := ended.cGot
      simp only [withConsumer, consumeSample_cfg, consumeSample_n_mod x inv.counters.n] at got
      rw [got, List.length_cons, readyFlags_succ, List.any_cons, iterated, windowCloses_eq_mod inv.counters.n,
        Bool.or_assoc]
      rfl
    · rw [ended.cOut, all]
      rfl

end Run

theorem Inv.loopEntered {s : State} (inv : Inv s) (phase : s.phase ≠ .idle) : Inv (loopEntered s) := by
  refine (inv.idleConsumer s.cIn s.cW s.cR s.cV false true).gotoC ?_
  constructor <;> simp [phase]

/-- LOOP's entry writes the consumer's side only, so that CONSUMEs there do to the demodulator what they do in `s`. -/
theorem consumeAll_loopEntered (xs : List Sample) {s : State} (inv : Inv s) (phase : s.phase ≠ .idle) :
    consumeAll xs (loopEntered s) = withDemodulator (consumeAll xs s) (loopEntered s) :=
  calc consumeAll xs (loopEntered s)
      = withConsumer (loopEntered s) (consumeAll xs s) := consumeAll_withConsumer (loopEntered s) xs inv.trig phase
    _ = withConsumer (loopEntered s) (withDemodulator (consumeAll xs s) s) := by rw [← consumeAll_frame]
    _ = withDemodulator (consumeAll xs s) (loopEntered s) := rfl

/-- Settles O48: `agentRun_loop` from LOOP's entry and `commandRun_consumes`, both of the same `consumeAll`. -/
theorem loopIsConsumes : Obligations.LoopIsConsumes := by
  intro s xs inv idle phase samples
  obtain ⟨d, consumes⟩ := commandRun_consumes xs inv idle phase
  obtain ⟨c, run, rd, cseq, cGot, cLoop, cOut⟩ := agentRun_loop xs (inv.loopEntered phase) rfl samples
  rw [consumeAll_loopEntered xs inv phase] at run cOut
  refine ⟨_, _, _, readyFlags s.cfg.window s.n xs.length, exec_loop idle phase, run, consumes, ?_, ?_⟩
  · rw [map_okFlag_readyFlags]
    rfl
  · have got : c.cGot = (readyFlags s.cfg.window s.n xs.length).any id := cGot
    rw [withConsumer, rd, cseq, cLoop, cOut, got, ← idle]
    rfl

end Sys2Proof.Machine
end

section
/-!
No step stops, and no command is dropped unanswered (O57): every turn answers a next state, and moves each command from
waiting to in progress to answered.
-/

namespace Sys2Proof.Machine

/-! ## Every step answers a next state -/

/-- Neither a fault nor a refusal (R237). -/
def Answers (o : Host.Outcome State Fault Refusal) : Prop := ∃ t, o = .next t

theorem Answers.next (t : State) : Answers (.next t) := ⟨t, rfl⟩

theorem Answers.ite {c : Prop} [Decidable c] {yes no : Host.Outcome State Fault Refusal} (hyes : Answers yes)
    (hno : Answers no) : Answers (if c then yes else no) := by
  split
  · exact hyes
  · exact hno

theorem exec_answers (i : Instr) (s : State) : Answers (exec i s) := by
  cases i with
  | push | pop | loop => exact .ite (.next _) (.next _)
  | consume | tick => exact .ite (.ite (.next _) (.next _)) (.next _)
  | start | stop =>
    refine .ite ?_ (.next _)
    cases s.phase <;> exact .next _
  | init pin strat f0bits =>
    refine .ite ?_ (.next _)
    cases initParams s.cfg strat f0bits with
    | none => exact .next _
    | some => exact .ite (.next _) (.next _)
  | rdreg reg =>
    refine .ite ?_ (.next _)
    cases regOfNumber reg <;> exact .next _

theorem takeCommand_answers (a : Agent) (s : State) : Answers (takeCommand a s) := by
  unfold takeCommand
  split
  · exact .next _
  · unfold accept
    split
    · exact .next _
    · exact exec_answers _ _

theorem agentStep_answers (a : Agent) (s : State) : Answers (agentStep a s) := by
  refine .ite ?_ (.next _)
  cases a with
  | producer =>
    show Answers (producerStep s)
    cases seq : s.pseq with
    | idle => simpa only [producerStep, seq] using takeCommand_answers .producer s
    | load | write | publish => simp only [producerStep, seq]; exact .next _
  | consumer =>
    show Answers (consumerStep s)
    cases seq : s.cseq with
    | idle => simpa only [consumerStep, seq] using takeCommand_answers .consumer s
    | load | read | publish | enter | consume | done => simp only [consumerStep, seq]; exact .next _

theorem step_answers (s : State) : Answers (step s) := by
  cases turn : turnOf s with
  | some a =>
    obtain ⟨t, run⟩ := step_turnOf turn
    rw [run]
    exact agentStep_answers a _
  | none =>
    rcases step_noTurn turn with ⟨-, run⟩ | ⟨_, _, _, -, run⟩ | ⟨_, -, run⟩ <;> exact ⟨_, run⟩

/-! ## No command is dropped -/

/-- A command cut off a port is one of those that wait there (R90). -/
theorem commandCount_fetch {ws cmd rest : List Word} (cut : fetchCommand ws = some (cmd, rest)) :
    commandCount ws = commandCount rest + 1 := by
  match ws with
  | [] => cases cut
  | [w] =>
    by_cases init : opcode w = 0x10#8
    · rw [fetchCommand_lone_init init] at cut
      cases cut
    · cases (fetchCommand_single init []).symm.trans cut
      exact if_neg init
  | w :: p :: later =>
    by_cases init : opcode w = 0x10#8
    · cases (fetchCommand_init init p later).symm.trans cut
      exact if_pos init
    · cases (fetchCommand_single init (p :: later)).symm.trans cut
      exact if_neg init

theorem Takes.count {a : Agent} {s : State} {rest : List Word} (takes : Takes a s rest) :
    commandCount (portIn a s) = commandCount rest + 1 := by
  obtain ⟨cmd, cut⟩ := takes
  exact commandCount_fetch cut

/-- A move takes a command off the port and begins or answers it, goes on with the one in progress, or answers that
one. -/
theorem ProducerMove.keeps_commands {s t : State} (m : ProducerMove s t) (p : Agent) :
    commandsAt p t = commandsAt p s := by
  cases p with
  | consumer => rw [m.frame]; rfl
  | producer =>
    cases m with
    | wait => rfl
    | reject rest idle takes | ignore rest idle _ takes =>
      have waiting : commandCount s.pIn = commandCount rest + 1 := takes.count
      simp +arith [commandsAt, idle, waiting]
    | load x rest idle fits takes =>
      have waiting : commandCount s.pIn = commandCount rest + 1 := takes.count
      simp [commandsAt, idle, waiting, pLoad]
    | reload seq => simp [commandsAt, seq, pLoad]
    | drop seq | publish seq => simp +arith [commandsAt, seq, pPublish]
    | write seq => simp [commandsAt, seq]

/-- As for the producer; the other port is framed. -/
theorem ConsumerMove.keeps_commands {s t : State} (m : ConsumerMove s t) (p : Agent) :
    commandsAt p t = commandsAt p s := by
  cases p with
  | producer =>
    obtain ⟨-, -, pseq, -, -, -, pIn, pOut, -, -⟩ := m.frame
    rw [commandsAt, commandsAt, pseq, pIn, pOut]
  | consumer =>
    cases m with
    | wait => rfl
    | reject rest _ idle takes | consume _ rest idle _ _ takes | noop rest idle takes | start rest idle _ takes
    | stop rest idle _ _ takes | read _ _ rest idle _ takes =>
      have waiting : commandCount s.cIn = commandCount rest + 1 := takes.count
      simp +arith [commandsAt, idle, waiting, answerRead]
    | init _ _ _ _ _ cmd rest cut _ idle =>
      have waiting : commandCount s.cIn = commandCount rest + 1 := commandCount_fetch cut
      simp +arith [commandsAt, idle, waiting]
    | pop rest idle takes | enterLoop rest idle _ takes =>
      have waiting : commandCount s.cIn = commandCount rest + 1 := takes.count
      simp [commandsAt, idle, waiting, cLoad]
    | load seq | drained seq | take seq | popInLoop seq | consumeInLoop seq => simp [commandsAt, seq, cLoad]
    | empty seq | popDone seq | consumeIdle seq | done seq => simp +arith [commandsAt, seq, lDone]
    | reenter seq => rcases lEnter_cases s with e | e <;> simp +arith [commandsAt, seq, e]

theorem agentStep_keeps_commands {a : Agent} {s t : State} (run : agentStep a s = .next t) (p : Agent) :
    commandsAt p t = commandsAt p s := by
  cases a with
  | producer => exact (agentStep_producer run).keeps_commands p
  | consumer => exact (agentStep_consumer run).keeps_commands p

/-- Only the reset input abandons a command (R260). -/
theorem agentStep_keeps_lost {a : Agent} {s t : State} (run : agentStep a s = .next t) : t.lost = s.lost := by
  cases a with
  | producer => rw [(agentStep_producer run).frame]
  | consumer =>
    cases agentStep_consumer run with
    | consume | consumeInLoop | init => simp
    | reenter => rcases lEnter_cases s with e | e <;> simp [e]
    | _ => rfl

/-- The reset input counts the commands it abandons (R260, R275, log 17). -/
theorem hardReset_commands (s : State) :
    commandsAt .producer (hardReset s) + commandsAt .consumer (hardReset s) + (hardReset s).lost =
      commandsAt .producer s + commandsAt .consumer s + s.lost := by
  simp only [commandsAt, hardReset, State.resetOf, if_true]
  omega

/-- Settles O57: a step is an agent's turn, the reset input, the arrival of a word, or nothing (`step_noTurn`). -/
theorem stepNeverStops : Obligations.StepNeverStops := by
  refine fun s => ⟨step_answers s, fun a p t run => agentStep_keeps_commands run p, fun t run noArrival => ?_⟩
  cases turn : turnOf s with
  | some a =>
    obtain ⟨n, same⟩ := step_turnOf turn
    have run : agentStep a { s with sched := s.sched.tail, turn := n } = .next t := same.symm.trans run
    rw [agentStep_keeps_commands run, agentStep_keeps_commands run, agentStep_keeps_lost run]
    rfl
  | none =>
    rcases step_noTurn turn with ⟨-, same⟩ | ⟨a, w, later, arrival, -⟩ | ⟨later, -, same⟩
    · cases same.symm.trans run
      rfl
    · exact absurd arrival (noArrival a w later)
    · cases same.symm.trans run
      exact hardReset_commands { s with sched := later }

end Sys2Proof.Machine
end

section
/-!
The errors of commands at idle agents: which commands raise one, and which one. CONFIG_ERROR (O46, R231) and USAGE_ERROR
(O52, R232) are read off that.
-/

namespace Sys2Proof.Machine

/-- The error a command raises at idle agents, and `none` if it raises none (R231 to R233, log 11). -/
def errorOf (s : State) : Instr → Option Status
  | .init _ strat f0bits =>
    match initParams s.cfg strat f0bits with
    | none => some .configError
    | some _ => if builtIn s.cfg strat then none else some (unbuiltStatus s.cfg strat)
  | .consume _ | .start | .loop => if s.phase = .idle then some .usageError else none
  | .rdreg reg => if regOfNumber reg = none then some .illegalCommand else none
  | .push _ | .pop | .tick _ | .stop => none

/-- A port that had answered `out` has answered nothing since, or one OK. -/
def AddsNoError (out out' : List Response) : Prop := out' = out ∨ ∃ r, r.status = .ok ∧ out' = out ++ [r]

theorem AddsNoError.refl (out : List Response) : AddsNoError out out := .inl rfl

theorem AddsNoError.ok (out : List Response) (flag : Bool) : AddsNoError out (out ++ [okFlag flag]) :=
  .inr ⟨okFlag flag, rfl, rfl⟩

theorem AddsNoError.ne_append_error {out out' : List Response} (h : AddsNoError out out') {e : Status}
    (error : e ≠ .ok) : out' ≠ out ++ [errorResponse e] := by
  rintro rfl
  obtain same | ⟨r, ok, same⟩ := h
  · simp at same
  · cases List.singleton_injective (List.append_cancel_left same)
    exact error ok

variable {s t : State} {i : Instr} {e : Status}

/-- A command with an error raises it (R237). -/
theorem exec_of_errorOf (idle : s.cseq = .idle) (producer : s.pseq = .idle) (raises : errorOf s i = some e) :
    exec i s = .next (raise .consumer e s) := by
  cases i with
  | init pin strat f0bits =>
    cases params : initParams s.cfg strat f0bits with
    | none =>
      obtain rfl : Status.configError = e := by simpa [errorOf, params] using raises
      exact execInit_fails pin strat f0bits idle producer params
    | some _ =>
      obtain ⟨unbuilt, rfl⟩ : builtIn s.cfg strat = false ∧ unbuiltStatus s.cfg strat = e := by
        simpa [errorOf, params] using raises
      exact execInit_notBuilt pin strat f0bits idle producer unbuilt params
  | consume x =>
    obtain ⟨phase, rfl⟩ : s.phase = .idle ∧ Status.usageError = e := by simpa [errorOf] using raises
    exact execConsume_idle x idle phase
  | start =>
    obtain ⟨phase, rfl⟩ : s.phase = .idle ∧ Status.usageError = e := by simpa [errorOf] using raises
    exact execStart_idle idle phase
  | loop =>
    obtain ⟨phase, rfl⟩ : s.phase = .idle ∧ Status.usageError = e := by simpa [errorOf] using raises
    exact (execLoop_ready idle).trans (congrArg _ (lEnter_idle phase))
  | rdreg reg =>
    obtain ⟨reserved, rfl⟩ : regOfNumber reg = none ∧ Status.illegalCommand = e := by simpa [errorOf] using raises
    exact execRdreg_reserved idle reserved
  | push | pop | tick | stop => cases raises

/-- A command without an error answers OK or, if it has more micro-steps to take, nothing yet. -/
theorem addsNoError_of_errorOf (idle : s.cseq = .idle) (producer : s.pseq = .idle) (run : exec i s = .next t)
    (none_raised : errorOf s i = none) : AddsNoError s.cOut t.cOut ∧ AddsNoError s.pOut t.pOut := by
  cases i with
  | push x =>
    cases (execPush_ready x producer).symm.trans run
    exact ⟨.refl _, .refl _⟩
  | pop =>
    cases (execPop_ready idle).symm.trans run
    exact ⟨.refl _, .refl _⟩
  | consume x =>
    have phase : s.phase ≠ .idle := by simpa [errorOf] using none_raised
    cases (execConsume_ready x idle phase).symm.trans run
    exact ⟨by simpa using .ok .., .inl (by simp)⟩
  | tick x =>
    by_cases phase : s.phase = .running
    · cases (execTick_running x producer phase).symm.trans run
      exact ⟨.refl _, .refl _⟩
    · cases (execTick_stopped x producer phase).symm.trans run
      exact ⟨.refl _, .ok ..⟩
  | init pin strat f0bits =>
    cases params : initParams s.cfg strat f0bits with
    | none => simp [errorOf, params] at none_raised
    | some _ =>
      have built : builtIn s.cfg strat = true := by simpa [errorOf, params] using none_raised
      cases (execInit_ok pin strat f0bits idle producer built params).symm.trans run
      exact ⟨by simpa using .ok .., .inl (by simp)⟩
  | start =>
    cases phase : s.phase with
    | idle => simp [errorOf, phase] at none_raised
    | configured =>
      cases (execStart_configured idle phase).symm.trans run
      exact ⟨.ok .., .refl _⟩
    | running =>
      cases (execStart_running idle phase).symm.trans run
      exact ⟨.ok .., .refl _⟩
  | stop =>
    by_cases phase : s.phase = .running
    · cases (exec_stop_running idle producer phase).symm.trans run
      exact ⟨.ok .., .refl _⟩
    · cases (exec_stop_stopped idle producer phase).symm.trans run
      exact ⟨.ok .., .refl _⟩
  | loop =>
    have phase : s.phase ≠ .idle := by simpa [errorOf] using none_raised
    cases (execLoop_ready idle).symm.trans run
    rw [lEnter_ready phase]
    exact ⟨.refl _, .refl _⟩
  | rdreg reg =>
    obtain ⟨r, known⟩ := Option.ne_none_iff_exists'.mp (by simpa [errorOf] using none_raised)
    cases (execRdreg_legal idle known).symm.trans run
    exact ⟨.inr ⟨_, rfl, rfl⟩, .refl _⟩

/-- A command is answered with an error, on whichever port, exactly when it raises that error. -/
theorem answers_error_iff (idle : s.cseq = .idle) (producer : s.pseq = .idle) (run : exec i s = .next t)
    (error : e ≠ .ok) :
    (t.cOut = s.cOut ++ [errorResponse e] ∨ t.pOut = s.pOut ++ [errorResponse e]) ↔ errorOf s i = some e := by
  cases raised : errorOf s i with
  | none =>
    obtain ⟨consumer, producer⟩ := addsNoError_of_errorOf idle producer run raised
    simp [consumer.ne_append_error error, producer.ne_append_error error]
  | some e' =>
    cases (exec_of_errorOf idle producer raised).symm.trans run
    simp [errorResponse]

/-- Only an INIT raises CONFIG_ERROR, and one of a strategy built in does so only when its checks fail (R231). -/
theorem init_of_configError (raises : errorOf s i = some .configError) :
    ∃ pin strat f0bits, i = .init pin strat f0bits ∧
      (builtIn s.cfg strat = true → initParams s.cfg strat f0bits = none) := by
  cases i with
  | init pin strat f0bits =>
    refine ⟨pin, strat, f0bits, rfl, fun built => ?_⟩
    cases params : initParams s.cfg strat f0bits with
    | none => rfl
    | some _ => simp [errorOf, params, built] at raises
  | push | pop | consume | tick | start | stop | loop | rdreg => simp [errorOf] at raises

theorem errorOf_init_fails {pin : PinId} {strat : Strategy} {f0bits : Word}
    (failed : initParams s.cfg strat f0bits = none) : errorOf s (.init pin strat f0bits) = some .configError := by
  simp only [errorOf, failed]

/-- USAGE_ERROR is raised by START, LOOP and CONSUME in phase Idle (R232). -/
theorem errorOf_usageError_iff :
    errorOf s i = some .usageError ↔ s.phase = .idle ∧ (i = .start ∨ i = .loop ∨ ∃ x, i = .consume x) := by
  cases i with
  | init pin strat f0bits =>
    cases params : initParams s.cfg strat f0bits with
    | none => simp [errorOf, params]
    | some _ => obtain unbuilt | unbuilt := unbuiltStatus_cases s.cfg strat <;> simp [errorOf, params, unbuilt]
  | push | pop | consume | tick | start | stop | loop | rdreg => simp [errorOf]

/-- Settles O46: CONFIG_ERROR is INIT's error, and INIT's checks are `initParams_none_iff`. -/
theorem configErrorExactly : Obligations.ConfigErrorExactly := by
  intro s t i idle producer run
  refine ⟨fun answered => ?_, ?_⟩
  · obtain ⟨pin, strat, f0bits, rfl, failed⟩ :=
      init_of_configError ((answers_error_iff (e := .configError) idle producer run nofun).mp answered)
    exact ⟨pin, strat, f0bits, rfl,
      fun built => ⟨pin, strat, f0bits, rfl, (initParams_none_iff ..).mp (failed built)⟩⟩
  · rintro ⟨pin, strat, f0bits, rfl, failed⟩
    cases (exec_of_errorOf idle producer (errorOf_init_fails ((initParams_none_iff ..).mpr failed))).symm.trans run
    rw [raise_of_idle idle]
    rfl

/-- Settles O52: `errorOf_usageError_iff`, and a raised error changes nothing (R237). -/
theorem usageErrorExactly : Obligations.UsageErrorExactly := by
  intro s t i idle producer run
  have answered := answers_error_iff (e := .usageError) idle producer run nofun
  refine ⟨answered.trans errorOf_usageError_iff, fun phase command => ?_⟩
  cases (exec_of_errorOf idle producer (errorOf_usageError_iff.mpr ⟨phase, command⟩)).symm.trans run
  rw [raise_of_idle idle]

end Sys2Proof.Machine
end

section
/-!
The reset input (O54, R260): one step to the reset values, the ports as they were.
-/

namespace Sys2Proof.Machine

theorem step_reset {s : State} {rest : List Turn} (asserted : s.sched = .reset :: rest) :
    step s = .next (hardReset { s with sched := rest }) := by
  simp only [step, stepBy, asserted]

/-- Settles O54: the fields as `hardReset` writes them. -/
theorem resetTurn : Obligations.ResetTurn := fun _ _ asserted =>
  ⟨_, step_reset asserted, rfl, rfl, rfl, rfl, rfl, toReal_zero, toReal_zero, rfl, rfl, rfl, rfl, rfl, rfl, rfl, rfl, rfl,
    rfl, rfl, rfl⟩

end Sys2Proof.Machine
end

section
/-!
LOOP against a producer at a bounded rate (O49, R266): an iteration takes four turns of the consumer and one sample out of
the ring, so that a LOOP which gets five turns for every new sample comes to the end of them.
-/

namespace Sys2Proof.Machine

/-! ## Counting along a run -/

section Count

variable (p : State → Bool) (r : Nat → State)

theorem countSteps_succ (i j : Nat) :
    countSteps p r i (j + 1) = countSteps p r i j + if i ≤ j ∧ p (r j) = true then 1 else 0 := by
  simp [countSteps, List.range_succ, List.countP_append, List.countP_singleton]

/-- Before step `i` nothing is counted from `i` on. -/
theorem countSteps_self (i : Nat) : countSteps p r i i = 0 :=
  List.countP_eq_zero.mpr fun k below => by simp [List.mem_range.mp below]

theorem countSteps_split {i j : Nat} (le : i ≤ j) :
    countSteps p r 0 j = countSteps p r 0 i + countSteps p r i j := by
  induction j, le using Nat.le_induction with
  | base => rw [countSteps_self, Nat.add_zero]
  | succ j le ih => simp [countSteps_succ, ih, le, Nat.add_assoc]

theorem countSteps_mono {q : State → Bool} (implies : ∀ s, p s = true → q s = true) (i j : Nat) :
    countSteps p r i j ≤ countSteps q r i j :=
  List.countP_mono_left fun k _ => by simpa using fun le hp => ⟨le, implies _ hp⟩

theorem countSteps_le_of_le (i : Nat) {j k : Nat} (le : j ≤ k) : countSteps p r i j ≤ countSteps p r i k :=
  (List.range_sublist.mpr le).countP_le

theorem countSteps_all {i a n : Nat} (le : i ≤ a) (all : ∀ m, a ≤ m → m < a + n → p (r m) = true) :
    countSteps p r i (a + n) = countSteps p r i a + n := by
  induction n with
  | zero => rfl
  | succ n ih =>
    have before := ih fun m low high => all m low (by omega)
    have last := all (a + n) (Nat.le_add_right a n) (Nat.lt_succ_self _)
    rw [← Nat.add_assoc, countSteps_succ, before, if_pos ⟨by omega, last⟩, Nat.add_assoc]

/-- If `need` steps of `p` lie between every two steps of `q`, there are `need` times as many of them, but for the first step
of `q`. -/
theorem countSteps_spaced {q : State → Bool} {need k : Nat}
    (spaced : ∀ i j, i < j → j < k → q (r i) = true → q (r j) = true → need ≤ countSteps p r (i + 1) j) :
    need * countSteps q r 0 k ≤ countSteps p r 0 k + need := by
  have upToLast : ∀ j ≤ k, countSteps q r 0 j = 0 ∨
      ∃ i < j, q (r i) = true ∧ need * countSteps q r 0 j ≤ countSteps p r 0 (i + 1) + need := by
    intro j
    induction j with
    | zero => exact fun _ => .inl (countSteps_self q r 0)
    | succ j ih =>
      intro le
      by_cases now : q (r j) = true
      · have one_more : countSteps q r 0 (j + 1) = countSteps q r 0 j + 1 := by simp [countSteps_succ, now]
        have grows := countSteps_le_of_le p r 0 (Nat.le_add_right j 1)
        refine .inr ⟨j, Nat.lt_succ_self j, now, ?_⟩
        rw [one_more, Nat.mul_succ]
        rcases ih (by omega) with none_yet | ⟨i, lt, last, bound⟩
        · simp [none_yet]
        · have between := spaced i j lt (by omega) last now
          have split := countSteps_split p r (i := i + 1) lt
          omega
      · have same : countSteps q r 0 (j + 1) = countSteps q r 0 j := by simp [countSteps_succ, now]
        rw [same]
        exact (ih (by omega)).imp_right fun ⟨i, lt, last⟩ => ⟨i, lt.trans (Nat.lt_succ_self j), last⟩
  rcases upToLast k le_rfl with none_at_all | ⟨i, lt, -, bound⟩
  · simp [none_at_all]
  · exact bound.trans (Nat.add_le_add_right (countSteps_le_of_le p r 0 lt) need)

end Count

/-! ## What a LOOP has left to do -/

theorem liveCount_congr {s t : State} (same : live t = live s) : liveCount t = liveCount s := by
  rw [← live_length, same, live_length]

/-- The samples in the ring, and the one on its way there. -/
def inFlight (s : State) : Nat := liveCount s + if s.pseq = .idle then 0 else 1

/-- The consumer's turns from a micro-step to the end of LOOP, beyond the four for each sample in flight. The sample about to
be freed still counts as one, which leaves `C_PUBLISH` the least; the one about to be consumed does not. `L_ENTER` is never
held between steps (R36). -/
def loopRank : CSeq → Nat
  | .idle => 0
  | .publish => 1
  | .done => 1
  | .read => 2
  | .load => 3
  | .enter => 4
  | .consume => 4

/-- The turns of the consumer that a LOOP needs at most if the producer takes no more samples. -/
def loopWork (s : State) : Nat := 4 * inFlight s + loopRank s.cseq

/-- It is the consumer's turn, whether or not it has a micro-step to take. -/
def consumersTurn (s : State) : Bool := decide (turnOf s = some .consumer)

/-- A LOOP is in progress (R201). -/
structure InLoop (s : State) : Prop where
  inv : Inv s
  busy : s.cseq ≠ .idle
  loop : s.cLoop = true

theorem InLoop.reschedule {s : State} (h : InLoop s) (sched : List Turn) (turn : Nat) :
    InLoop { s with sched := sched, turn := turn } := ⟨h.inv.reschedule sched turn, h.busy, h.loop⟩

theorem InLoop.enabled {s : State} (h : InLoop s) : enabled .consumer s = true := by
  simp [Machine.enabled, h.busy]

theorem loopWork_le {s : State} (inv : Inv s) : loopWork s ≤ 4 * s.cfg.cap + 4 := by
  have live : liveCount s < s.cfg.cap := occupancy_lt inv.counters.wr inv.counters.rd
  have rank : loopRank s.cseq ≤ 4 := by cases s.cseq <;> simp [loopRank]
  rw [loopWork, inFlight]
  split <;> omega

/-- Only taking a sample brings one more on its way: `P_PUBLISH` ends the command that it publishes for. -/
theorem ProducerMove.inFlight_le {s t : State} (m : ProducerMove s t) (inv : Inv s) :
    inFlight t ≤ inFlight s + if s.pseq = .idle ∧ t.pseq ≠ .idle then 1 else 0 := by
  by_cases seq : s.pseq = .publish
  · cases m with
    | wait => exact Nat.le_add_right ..
    | publish =>
      have one_more : liveCount (pPublish s) = liveCount s + 1 := by
        rw [← live_length, inv.live_pPublish seq, List.length_append, live_length, List.length_singleton]
      have ends : (pPublish s).pseq = .idle := rfl
      rw [inFlight, inFlight, one_more]
      simp [ends, seq]
    | reject _ other | load _ _ other | ignore _ other | reload other | drop other | write other =>
      cases seq.symm.trans other
  · rw [inFlight, inFlight, liveCount_congr (m.keeps_live inv seq)]
    by_cases s.pseq = .idle <;> by_cases t.pseq = .idle <;> simp_all

/-- A command that an idle producer begins is a sample: an illegal one is answered at once (R234). -/
theorem takesSample_of_begins {s t : State} {sched : List Turn} {n : Nat} (turn : turnOf s = some .producer)
    (run : agentStep .producer { s with sched := sched, turn := n } = .next t) (idle : s.pseq = .idle)
    (begins : t.pseq ≠ .idle) : takesSample s = true := by
  cases fetch : fetchCommand s.pIn with
  | none =>
    cases (agentStep_nothing (a := .producer) (s := { s with sched := sched, turn := n }) idle fetch).symm.trans run
    exact absurd idle begins
  | some cut =>
    obtain ⟨cmd, rest⟩ := cut
    cases dec : decode s.cfg .producer cmd with
    | error e =>
      cases (agentStep_illegal_producer (s := { s with sched := sched, turn := n }) idle fetch dec).symm.trans run
      exact absurd rfl begins
    | ok i =>
      obtain ⟨can, -⟩ := agentStep_exec_producer idle fetch dec
      simp [takesSample, takesMicroStep, turn, can, idle, fetch, dec]

/-- Of the consumer's micro-steps `C_PUBLISH` alone changes what is in flight. -/
theorem InLoop.keeps_inFlight {s t : State} (h : InLoop s) (run : agentStep .consumer s = .next t)
    (seq : s.cseq ≠ .publish) : inFlight t = inFlight s := by
  have m := agentStep_consumer run
  obtain ⟨-, -, pseq, -⟩ := m.frame
  rw [inFlight, inFlight, pseq, liveCount_congr (m.keeps_live (fun init => h.busy init.1) seq)]

/-- A turn of the consumer ends the LOOP or leaves it less to do. -/
theorem InLoop.consumer_turn {s t : State} (h : InLoop s) (run : agentStep .consumer s = .next t) :
    t.cseq = .idle ∨ (t.cLoop = true ∧ loopWork t < loopWork s) := by
  have flight := h.keeps_inFlight run
  rw [loopWork, loopWork]
  cases seq : s.cseq with
  | idle => exact absurd seq h.busy
  | enter => exact absurd seq h.inv.sequencers.notEnter
  | load =>
    cases (agentStep_load seq).symm.trans run
    refine .inr ⟨h.loop, ?_⟩
    rw [flight (by simp [seq])]
    exact Nat.lt_succ_self _
  | read =>
    cases (agentStep_read seq).symm.trans run
    refine .inr ?_
    rw [flight (by simp [seq])]
    by_cases drained : s.cW = s.cR
    · rw [cRead_drained drained h.loop]
      exact ⟨h.loop, Nat.lt_succ_self _⟩
    · rw [cRead_take drained]
      exact ⟨h.loop, Nat.lt_succ_self _⟩
  | publish =>
    cases (agentStep_free seq).symm.trans run
    have one_less : liveCount s = liveCount (cPublish s) + 1 := by
      rw [← live_length, h.inv.live_cPublish seq, List.length_cons, live_length]
    have goesOn : (cPublish s).cLoop = true ∧ (cPublish s).cseq = .consume ∧ (cPublish s).pseq = s.pseq := by
      rw [cPublish_loop h.loop]
      exact ⟨h.loop, rfl, rfl⟩
    obtain ⟨loop, cseq, pseq⟩ := goesOn
    refine .inr ⟨loop, ?_⟩
    rw [inFlight, inFlight, one_less, cseq, pseq, loopRank, loopRank]
    omega
  | consume =>
    cases (agentStep_consume seq).symm.trans run
    rw [flight (by simp [seq]), lConsume_ready (h.inv.sequencers.loopPhase h.busy h.loop)]
    exact .inr ⟨by simp [h.loop], Nat.lt_succ_self _⟩
  | done =>
    cases (agentStep_done seq).symm.trans run
    exact .inl rfl

/-- A step during which a LOOP goes on: only a sample that the producer takes adds to its work, and every turn of the
consumer takes off some of it. -/
theorem InLoop.step {s t : State} (h : InLoop s) (run : step s = .next t) (busy : t.cseq ≠ .idle) :
    InLoop t ∧ loopWork t + (if turnOf s = some .consumer then 1 else 0) ≤
      loopWork s + 4 * (if takesSample s = true then 1 else 0) := by
  have inv := stepKeepsInv s t h.inv run
  cases turn : turnOf s with
  | none =>
    rcases step_noTurn turn with ⟨-, same⟩ | ⟨a, w, later, -, same⟩ | ⟨later, -, same⟩
    · cases same.symm.trans run
      exact ⟨h, Nat.le_add_right ..⟩
    · cases same.symm.trans run
      cases a <;> exact ⟨⟨inv, busy, h.loop⟩, Nat.le_add_right ..⟩
    · cases same.symm.trans run
      exact absurd rfl busy
  | some a =>
    obtain ⟨n, same⟩ := step_turnOf turn
    have run : agentStep a { s with sched := s.sched.tail, turn := n } = .next t := same.symm.trans run
    have h' := h.reschedule s.sched.tail n
    cases a with
    | consumer =>
      obtain ⟨loop, less⟩ := (h'.consumer_turn run).resolve_left busy
      exact ⟨⟨inv, busy, loop⟩, Nat.le_add_right_of_le less⟩
    | producer =>
      have m := agentStep_producer run
      have cseq : t.cseq = s.cseq := by rw [m.frame]
      have loop : t.cLoop = s.cLoop := by rw [m.frame]
      have flight : inFlight t ≤ inFlight s + if s.pseq = .idle ∧ t.pseq ≠ .idle then 1 else 0 := m.inFlight_le h'.inv
      have sample := takesSample_of_begins turn run
      refine ⟨⟨inv, busy, loop.trans h.loop⟩, ?_⟩
      rw [loopWork, loopWork, cseq, if_neg (by simp)]
      by_cases begins : s.pseq = .idle ∧ t.pseq ≠ .idle
      · rw [if_pos begins] at flight
        rw [if_pos (sample begins.1 begins.2)]
        omega
      · rw [if_neg begins] at flight
        omega

/-- What a LOOP has left to do grows by four for each sample that the producer takes, and shrinks with each turn of the
consumer. -/
theorem loopWork_run {e : Nat → Option Turn} {s : State} (h : InLoop s) (k : Nat)
    (busy : ∀ j ≤ k, (runOn e s j).cseq ≠ .idle) :
    InLoop (runOn e s k) ∧
      loopWork (runOn e s k) + countSteps consumersTurn (runOn e s) 0 k ≤
        loopWork s + 4 * countSteps takesSample (runOn e s) 0 k := by
  induction k with
  | zero => exact ⟨h.reschedule _ s.turn, Nat.le_add_right ..⟩
  | succ k ih =>
    obtain ⟨now, bound⟩ := ih fun j le => busy j (Nat.le_succ_of_le le)
    obtain ⟨t, run⟩ := step_answers (runOn e s k)
    have next := runOn_next run
    have going : t.cseq ≠ .idle := by
      have := busy (k + 1) le_rfl
      rwa [next] at this
    obtain ⟨later, work⟩ := now.step run going
    have same : loopWork (runOn e s (k + 1)) = loopWork t := by rw [next]; rfl
    refine ⟨by rw [next]; exact later.reschedule _ t.turn, ?_⟩
    rw [countSteps_succ, countSteps_succ, same]
    simp only [Nat.zero_le, true_and, consumersTurn, decide_eq_true_eq]
    omega

/-- With five turns of the consumer for each sample a LOOP comes to its end: what it had left to do, at most `4·C + 4`, and
four more turns for each sample are made up for by every fifth turn. -/
theorem loop_ends {e : Nat → Option Turn} {s : State} {k : Nat} (h : InLoop s) (rate : paced 5 (runOn e s) k)
    (turns : 20 * (s.cfg.cap + 3) ≤ countSteps consumersTurn (runOn e s) 0 k) :
    ∃ j, j ≤ k ∧ (runOn e s j).cseq = .idle := by
  by_contra going
  have busy (j : Nat) (le : j ≤ k) : (runOn e s j).cseq ≠ .idle := fun idle => going ⟨j, le, idle⟩
  obtain ⟨last, bound⟩ := loopWork_run h k busy
  have spaced : 5 * countSteps takesSample (runOn e s) 0 k ≤
      countSteps (takesMicroStep .consumer) (runOn e s) 0 k + 5 := by
    refine countSteps_spaced _ _ fun i j lt le first second => ?_
    refine (rate i j lt le first second).resolve_left ?_
    rintro ⟨m, -, before, blocked⟩
    have able := (loopWork_run h m fun l le => busy l (by omega)).1.enabled
    rw [able] at blocked
    cases blocked
  have own : countSteps (takesMicroStep .consumer) (runOn e s) 0 k ≤
      countSteps consumersTurn (runOn e s) 0 k :=
    countSteps_mono _ _ (fun t takes => (Bool.and_eq_true_iff.mp takes).1) 0 k
  have start := loopWork_le h.inv
  omega

end Sys2Proof.Machine
end

section
/-!
LOOP against a producer as fast as the consumer (O49, R266): after each round of `fullRate` the block stands where it stood
before, one sample on, and LOOP goes on for ever.
-/

namespace Sys2Proof.Machine

/-! ## A round -/

/-- Where the agents stand before entry `i` of a round: the word that waits, the sequencers, and the index that the agent
about to test it has just loaded. -/
def AtEntry (u : State) : Nat → Prop
  | 0 => u.pIn = [] ∧ u.pseq = .idle ∧ u.cseq = .load
  | 1 => u.pIn = [0x04000000#32] ∧ u.pseq = .idle ∧ u.cseq = .load
  | 2 => u.pIn = [] ∧ u.pseq = .write ∧ u.pR = u.rd ∧ u.cseq = .load
  | 3 => u.pIn = [] ∧ u.pseq = .publish ∧ u.cseq = .load
  | 4 => u.pIn = [] ∧ u.pseq = .idle ∧ u.cseq = .load
  | 5 => u.pIn = [] ∧ u.pseq = .idle ∧ u.cseq = .read ∧ u.cW = u.wr
  | 6 => u.pIn = [] ∧ u.pseq = .idle ∧ u.cseq = .publish
  | 7 => u.pIn = [] ∧ u.pseq = .idle ∧ u.cseq = .consume
  | _ => False

/-- `u` stands before entry `i` of a round of `fullRate` that LOOP began in `s`: between `P_PUBLISH` and `C_PUBLISH` the ring
holds one sample more. -/
structure InRound (s : State) (i : Nat) (u : State) : Prop where
  inv : Inv u
  cfg : u.cfg = s.cfg
  running : u.phase = .running
  loop : u.cLoop = true
  cOut : u.cOut = s.cOut
  live : liveCount u = liveCount s + if 4 ≤ i ∧ i ≤ 6 then 1 else 0
  entry : AtEntry u i

section Round

variable {s u t : State} {i : Nat}

theorem InRound.reschedule (h : InRound s i u) (sched : List Turn) : InRound s i { u with sched := sched } := by
  refine { h with inv := h.inv.reschedule sched u.turn, entry := ?_ }
  have entry := h.entry
  match i with
  | 0 | 1 | 2 | 3 | 4 | 5 | 6 | 7 => exact entry
  | _ + 8 => exact entry.elim

theorem InRound.busy (h : InRound s i u) : u.cseq ≠ .idle := by
  have entry := h.entry
  match i with
  | 0 | 1 | 2 | 3 | 4 | 5 | 6 | 7 => simp only [AtEntry] at entry; simp [entry]
  | _ + 8 => exact entry.elim

/-! The entries of a round, in their order. -/

theorem InRound.arrival (h : InRound s 0 u) :
    InRound s 1 (setPortIn .producer (portIn .producer u ++ [0x04000000#32]) u) := by
  obtain ⟨noWords, idle, load⟩ := h.entry
  refine { h with inv := h.inv.setPortIn .producer _, entry := ⟨?_, idle, load⟩ }
  show u.pIn ++ _ = _
  rw [noWords]
  rfl

/-- The TICK of `fullRateRound` carries the sample 0, which fits whatever `SAMPLE_BITS` is. -/
theorem decode_tick_zero (c : Config) : decode c .producer [0x04000000#32] = .ok (.tick 0#24) :=
  decode_encode (i := .tick 0#24) (by simp [Instr.wellFormed, sampleFits])

theorem InRound.take (h : InRound s 1 u) : ∃ t, agentStep .producer u = .next t ∧ InRound s 2 t := by
  obtain ⟨waits, idle, load⟩ := h.entry
  have fetch : fetchCommand u.pIn = some ([0x04000000#32], []) := by rw [waits]; rfl
  obtain ⟨-, run⟩ := agentStep_exec_producer idle fetch (decode_tick_zero u.cfg)
  have next := run.trans (execTick_running (s := { u with pIn := [] }) 0#24 idle h.running)
  exact ⟨_, next, { h with inv := (agentStep_producer next).inv h.inv, entry := ⟨rfl, rfl, rfl, load⟩ }⟩

theorem InRound.write (room : liveCount s + 1 < s.cfg.cap) (h : InRound s 2 u) :
    ∃ t, agentStep .producer u = .next t ∧ InRound s 3 t := by
  obtain ⟨noWords, write, pR, load⟩ := h.entry
  obtain ⟨-, pW, -⟩ := h.inv.sequencers.write write
  have unfull : nextIndex u.cfg u.pW ≠ u.pR := by
    have full := nextIndex_eq_iff_full h.inv.counters.wr h.inv.counters.rd
    have live : occupancy u.cfg u.wr u.rd = liveCount s := h.live
    have cap := congrArg Config.cap h.cfg
    rw [pW, pR, ne_eq, full, live]
    omega
  have next := (agentStep_write write).trans (congrArg Host.Outcome.next (pWrite_of_room unfull))
  have m := agentStep_producer next
  have live := liveCount_congr (m.keeps_live h.inv (by simp [write]))
  exact ⟨_, next, { h with inv := m.inv h.inv, live := live.trans h.live, entry := ⟨noWords, rfl, load⟩ }⟩

theorem InRound.publish (h : InRound s 3 u) : ∃ t, agentStep .producer u = .next t ∧ InRound s 4 t := by
  obtain ⟨noWords, publish, load⟩ := h.entry
  have next := agentStep_publish publish
  have live : liveCount (pPublish u) = liveCount s + 1 := by
    rw [← live_length, h.inv.live_pPublish publish, List.length_append, live_length, h.live]
    rfl
  exact ⟨_, next, { h with inv := (agentStep_producer next).inv h.inv, live, entry := ⟨noWords, rfl, load⟩ }⟩

theorem InRound.load (h : InRound s 4 u) : ∃ t, agentStep .consumer u = .next t ∧ InRound s 5 t := by
  obtain ⟨noWords, idle, load⟩ := h.entry
  have next := agentStep_load load
  exact ⟨_, next, { h with inv := (agentStep_consumer next).inv h.inv, entry := ⟨noWords, idle, rfl, rfl⟩ }⟩

theorem InRound.read (h : InRound s 5 u) : ∃ t, agentStep .consumer u = .next t ∧ InRound s 6 t := by
  obtain ⟨noWords, idle, read, cW⟩ := h.entry
  obtain ⟨cR, -⟩ := h.inv.sequencers.read read
  have some_live : u.cW ≠ u.cR := by
    have empty := occupancy_eq_zero h.inv.counters.wr h.inv.counters.rd
    have live : occupancy u.cfg u.wr u.rd = liveCount s + 1 := h.live
    rw [cW, cR, ne_eq, ← empty, live]
    exact Nat.succ_ne_zero _
  have next := (agentStep_read read).trans (congrArg Host.Outcome.next (cRead_take some_live))
  exact ⟨_, next, { h with inv := (agentStep_consumer next).inv h.inv, entry := ⟨noWords, idle, rfl⟩ }⟩

theorem InRound.free (h : InRound s 6 u) : ∃ t, agentStep .consumer u = .next t ∧ InRound s 7 t := by
  obtain ⟨noWords, idle, publish⟩ := h.entry
  have live : liveCount (cPublish u) = liveCount s := by
    have less := congrArg List.length (h.inv.live_cPublish publish)
    have live := h.live
    rw [List.length_cons, live_length, live_length] at less
    simpa [less] using live
  rw [cPublish_loop h.loop] at live
  have next := (agentStep_free publish).trans (congrArg Host.Outcome.next (cPublish_loop h.loop))
  exact ⟨_, next, { h with inv := (agentStep_consumer next).inv h.inv, live, entry := ⟨noWords, idle, rfl⟩ }⟩

theorem InRound.consume (h : InRound s 7 u) : ∃ t, agentStep .consumer u = .next t ∧ InRound s 0 t := by
  obtain ⟨noWords, idle, consume⟩ := h.entry
  have next := (agentStep_consume consume).trans
    (congrArg Host.Outcome.next (lConsume_ready (by simp [h.running])))
  have m := agentStep_consumer next
  have live := liveCount_congr (m.keeps_live (fun init => h.busy init.1) (by simp [consume]))
  exact ⟨_, next, m.inv h.inv, by simp [h.cfg], by simp [h.running], by simp [h.loop], by simp [h.cOut],
    live.trans h.live, by simp [noWords], by simp [idle], rfl⟩

/-- A step by an entry of the round brings the block to the next. -/
theorem InRound.next (room : liveCount s + 1 < s.cfg.cap) (h : InRound s i u) (sched : u.sched = (fullRate i).toList) :
    ∃ t, step u = .next t ∧ InRound s ((i + 1) % 8) t := by
  obtain ⟨byAgent, bySend, -⟩ := stepChoosesAgent u
  have byTurn {a : Agent} {j : Nat} (sched : u.sched = [.agent a])
      (turn : ∃ t, agentStep a { u with sched := [] } = .next t ∧ InRound s j t) :
      ∃ t, step u = .next t ∧ InRound s j t :=
    turn.imp fun t ⟨run, later⟩ => ⟨(byAgent a [] sched).trans run, later⟩
  have now := h.reschedule []
  match i with
  | 0 => exact ⟨_, bySend _ _ sched, now.arrival⟩
  | 1 => exact byTurn sched now.take
  | 2 => exact byTurn sched (now.write room)
  | 3 => exact byTurn sched now.publish
  | 4 => exact byTurn sched now.load
  | 5 => exact byTurn sched now.read
  | 6 => exact byTurn sched now.free
  | 7 => exact byTurn sched now.consume
  | _ + 8 => exact h.entry.elim

/-- The producer takes one sample a round. -/
theorem InRound.takesSample_entry (h : InRound s i u) (sched : u.sched = (fullRate i).toList)
    (takes : takesSample u = true) : i = 1 := by
  have entry := h.entry
  match i with
  | 1 => rfl
  | 0 | 2 | 3 | 4 | 5 | 6 | 7 =>
    simp only [AtEntry] at entry
    simp [takesSample, takesMicroStep, turnOf, sched, fullRate, fullRateRound, entry] at takes
  | _ + 8 => exact entry.elim

/-- The second half of a round is the consumer's. -/
theorem InRound.takesMicroStep_consumer (h : InRound s i u) (sched : u.sched = (fullRate i).toList) (second : 4 ≤ i) :
    takesMicroStep .consumer u = true := by
  have able : enabled .consumer u = true := by simp [enabled, h.busy]
  have turn : turnOf u = some .consumer := by
    match i with
    | 4 | 5 | 6 | 7 => simp [turnOf, sched, fullRate, fullRateRound]
    | _ + 8 => exact h.entry.elim
  simp [takesMicroStep, turn, able]

end Round

/-! ## The run -/

theorem fullRate_mod (k : Nat) : fullRate (k % 8) = fullRate k := by simp [fullRate]

/-- A LOOP about to load is at the beginning of a round. -/
theorem inRound_start {s : State} (inv : Inv s) (running : s.phase = .running) (idle : s.pseq = .idle)
    (noWords : s.pIn = []) (load : s.cseq = .load) : InRound s 0 s :=
  ⟨inv, rfl, running, inv.sequencers.inLoop (.inl load), rfl, rfl, noWords, idle, load⟩

theorem inRound_runOn {s : State} (room : liveCount s + 1 < s.cfg.cap) (start : InRound s 0 s) (k : Nat) :
    InRound s (k % 8) (runOn fullRate s k) := by
  induction k with
  | zero => exact start.reschedule _
  | succ k ih =>
    obtain ⟨t, run, later⟩ := ih.next room (by rw [runOn_sched, fullRate_mod])
    rw [runOn_next run, ← Nat.mod_add_mod]
    exact later.reschedule _

/-- Between the samples of two rounds stand the four micro-steps of an iteration. -/
theorem paced_fullRate {s : State} (round : ∀ k, InRound s (k % 8) (runOn fullRate s k)) (k : Nat) :
    paced 4 (runOn fullRate s) k := by
  have sched (k : Nat) : (runOn fullRate s k).sched = (fullRate (k % 8)).toList := by rw [runOn_sched, fullRate_mod]
  intro i j lt _ first second
  have first := (round i).takesSample_entry (sched i) first
  have second := (round j).takesSample_entry (sched j) second
  have own (m : Nat) (low : i + 3 ≤ m) (high : m < i + 3 + 4) : takesMicroStep .consumer (runOn fullRate s m) = true :=
    (round m).takesMicroStep_consumer (sched m) (by omega)
  refine .inr ?_
  calc 4 ≤ countSteps (takesMicroStep .consumer) (runOn fullRate s) (i + 1) (i + 3) + 4 := Nat.le_add_left ..
    _ = countSteps (takesMicroStep .consumer) (runOn fullRate s) (i + 1) (i + 3 + 4) :=
      (countSteps_all _ _ (by omega) own).symm
    _ ≤ countSteps (takesMicroStep .consumer) (runOn fullRate s) (i + 1) j := countSteps_le_of_le _ _ _ (by omega)

/-- Settles O49: every step answers a next state (`step_answers`), LOOP ends with five turns a sample (`loop_ends`), and on
`fullRate` every state stands in a round (`inRound_runOn`), in which LOOP goes on. -/
theorem loopTermination : Obligations.LoopTermination := by
  refine ⟨fun e s k => ?_, fun e s k inv busy loop => loop_ends ⟨inv, busy, loop⟩,
    fun s inv running idle noWords load _ room k => ?_⟩
  · obtain ⟨t, run⟩ := step_answers (runOn e s k)
    exact ⟨t, run, runOn_next run⟩
  · have round := inRound_runOn room (inRound_start inv running idle noWords load)
    have full : InRound s 0 (runOn fullRate s (8 * k)) := by simpa using round (8 * k)
    exact ⟨paced_fullRate round k, (round k).busy, (round k).loop, (round k).cOut, full.live⟩

end Sys2Proof.Machine
end
